-- ==== Sys2Proof/Word.lean ====
section
/-! DEFINITION. The two word types of the PXA ISA (00_scope.md R5, R6): a byte, and the 16-bit word of an address or
of one of the pointers IP and SP. Nothing is signed and nothing is wider (R6, R29). -/

namespace Sys2Proof

/-- An 8-bit unsigned value, 0..255 (00_scope.md R6). -/
abbrev Byte := BitVec 8

/-- A 16-bit unsigned value, 0..65535 (00_scope.md R6). -/
abbrev Word := BitVec 16

end Sys2Proof
end

