-- ==== Sys2Proof/Config.lean ====
section
/-! DEFINITION. What an implementation fixes (00_scope.md R5) and the free values: constants with no body, so that
nothing can be proved of the value they give. -/

namespace Sys2Proof

/-- The parameter `opcodeOf` (00_scope.md R5; 30_encoding.md R64), as plain data: an opcode byte for each mnemonic. -/
structure OpcodeMap where
  num : Byte
  mov : Byte
  jmp : Byte
  jin : Byte
  jiz : Byte
  jnz : Byte
  jic : Byte
  jnc : Byte
  clc : Byte
  clr : Byte
  ret : Byte
  alc : Byte
  eat : Byte
  ofg : Byte
  ofs : Byte
  pop : Byte
  psh : Byte
  gec : Byte
  sec : Byte
  ger : Byte
  ser : Byte
  inc : Byte
  dec : Byte
  add : Byte
  sub : Byte
  mul : Byte
  shl : Byte
  shr : Byte
  inl : Byte
  del : Byte
  hlt : Byte
deriving DecidableEq, Repr

/-- The parameter `regIndex` (00_scope.md R5; 10_state.md R15), as plain data: an operand byte for each register. -/
structure RegisterMap where
  a : Byte
  b : Byte
  c : Byte
  d : Byte
  m : Byte
  ipl : Byte
  iph : Byte
  spl : Byte
  sph : Byte
deriving DecidableEq, Repr

/-- The numbers of an encoding, which the source does not give: parameters of the machine (00_scope.md R5; 10_state.md
R36). The values that the spec decides are `Codes.decided` (Sys2Proof/Decode.lean; log 6, log 7). -/
structure Codes where
  opcodes : OpcodeMap
  registers : RegisterMap
deriving DecidableEq, Repr

/-- The operand bytes that name a register. -/
def RegisterMap.bytes (r : RegisterMap) : List Byte := [r.a, r.b, r.c, r.d, r.m, r.ipl, r.iph, r.spl, r.sph]

end Sys2Proof

namespace Sys2Proof.Config

/-- Bytes in the one address space (00_scope.md R5; 20_memory.md R37). -/
def memBytes : Nat := 65536

/-- `IO_SIZE`: bytes in the memory-mapped I/O window (00_scope.md R5). -/
def ioSize : Nat := 4096

/-- The least `IO_BASE`: the entry point at 0x0000-0x0001 is storage (20_memory.md R39). -/
def ioBaseMin : Nat := 2

/-- The greatest `IO_BASE`: the window lies inside the address space (20_memory.md R39). -/
def ioBaseMax : Nat := 0xF000

/-- The byte that the `draw`-th free value gives when the device answers `ioGet(offset)`: an arbitrary byte at every
call (20_memory.md R48; 92_eei_decisions.md D16). Free value: DESIGN CHOICE, log 12. -/
opaque ioByte : (draw offset : Nat) → Byte

/-- The `draw`-th free value as the byte of a register that an instruction leaves `undef` (44_arithmetic.md R113 to
R116). Free value: DESIGN CHOICE, log 3. -/
opaque freeByte : (draw : Nat) → Byte

/-- The `draw`-th free value as a flag that an instruction leaves `undef` (10_state.md R26). Free value:
DESIGN CHOICE, log 3. -/
opaque freeBit : (draw : Nat) → Bool

end Sys2Proof.Config
end

