-- ==== Sys2Proof/Syntax.lean ====
section
/-! DEFINITION. The syntax of the PXA ISA: register and flag names, operand kinds, the 31 mnemonics, the instruction as
the CPU executes it (`Instr`, one constructor per row of opcode_table.json) and as its bytes spell it (`RawInstr`). -/

namespace Sys2Proof

/-- The nine addressable 8-bit registers (10_state.md R15). -/
inductive Reg where
  | a | b | c | d
  /-- scratch and accumulator for memory: the data register of `gec`, `sec`, `ger`, `ser` -/
  | m
  /-- low byte of IP -/
  | ipl
  /-- high byte of IP -/
  | iph
  /-- low byte of SP -/
  | spl
  /-- high byte of SP -/
  | sph
deriving DecidableEq, Repr

/-- The two flags (10_state.md R25). -/
inductive Flag where
  | zero
  | carry
deriving DecidableEq, Repr

/-- The two kinds of an operand byte (30_encoding.md R62). -/
inductive OperandKind where
  | register
  | immediate
deriving DecidableEq, Repr

/-- The mnemonics of the decode ROM, in its order (30_encoding.md R64). -/
inductive Mnemonic where
  | num | mov
  | jmp | jin | jiz | jnz | jic | jnc | clc | clr | ret
  | alc | eat | ofg | ofs | pop | psh
  | gec | sec | ger | ser
  | inc | dec | add | sub | mul | shl | shr | inl | del
  | hlt
deriving DecidableEq, Repr

/-- An instruction: one constructor per row of the opcode table, its operands in the order of their bytes
(30_encoding.md R60, R64, R65). A REGISTER operand is a register, an IMMEDIATE operand is a byte. -/
inductive Instr where
  | num (r : Reg) (i : Byte)
  | mov (rd rs : Reg)
  | jmp (lo hi : Byte)
  | jin (rl rh : Reg)
  | jiz (lo hi : Byte)
  | jnz (lo hi : Byte)
  | jic (lo hi : Byte)
  | jnc (lo hi : Byte)
  | clc (lo hi : Byte)
  | clr (rl rh : Reg)
  | ret
  | alc (n : Byte)
  | eat (n : Byte)
  | ofg (r : Reg) (off : Byte)
  | ofs (r : Reg) (off : Byte)
  | pop (r : Reg)
  | psh (r : Reg)
  | gec (lo hi : Byte)
  | sec (lo hi : Byte)
  | ger (rl rh : Reg)
  | ser (rl rh : Reg)
  | inc (r : Reg)
  | dec (r : Reg)
  | add (rd rs : Reg)
  | sub (rd rs : Reg)
  | mul (rd rs : Reg)
  | shl (rd rs : Reg)
  | shr (rd rs : Reg)
  | inl (rl rh : Reg)
  | del (rl rh : Reg)
  | hlt
deriving DecidableEq, Repr

/-- An instruction as it is spelled in bytes: a mnemonic (its opcode byte stands for it) and the operand bytes that
follow, not yet checked (30_encoding.md R60). -/
structure RawInstr where
  mnemonic : Mnemonic
  operands : List Byte
deriving DecidableEq, Repr

end Sys2Proof
end

