-- ==== Sys2Proof/WellFormed.lean ====
section
/-! DEFINITION. When the bytes of an instruction spell one: the operand count and the register bytes (30_encoding.md
R60, R62, R66, R68). A term of `Instr` names registers and holds bytes, so what can be ill-formed is a `RawInstr`; the
bytes `encode` writes for an `Instr` are well-formed (Sys2Proof/Laws/Decode.lean). -/

namespace Sys2Proof

/-- The operand kinds of a mnemonic, in the order of the operand bytes (30_encoding.md R64). -/
def Mnemonic.kinds : Mnemonic → List OperandKind
  | .num | .ofg | .ofs => [.register, .immediate]
  | .mov | .jin | .clr | .ger | .ser | .add | .sub | .mul | .shl | .shr | .inl | .del => [.register, .register]
  | .jmp | .jiz | .jnz | .jic | .jnc | .clc | .gec | .sec => [.immediate, .immediate]
  | .pop | .psh | .inc | .dec => [.register]
  | .alc | .eat => [.immediate]
  | .ret | .hlt => []

/-- One byte per operand kind, no more and no fewer (30_encoding.md R60, R66). -/
def RawInstr.countOk (r : RawInstr) : Bool :=
  r.operands.length == r.mnemonic.kinds.length

/-- A REGISTER byte is the index of a register (0..8 under the decided numbers); every IMMEDIATE byte is legal
(30_encoding.md R62, R68). -/
def operandOk (c : Codes) : OperandKind → Byte → Bool
  | .register, b => c.registers.bytes.contains b
  | .immediate, _ => true

/-- Every operand byte is legal for its kind (30_encoding.md R62, R68). -/
def RawInstr.operandsOk (c : Codes) (r : RawInstr) : Bool :=
  (List.zipWith (operandOk c) r.mnemonic.kinds r.operands).all id

/-- A well-formed spelling of an instruction (30_encoding.md R60, R62, R68). -/
def RawInstr.wellFormed (c : Codes) (r : RawInstr) : Bool :=
  r.countOk && r.operandsOk c

end Sys2Proof
end

