-- ==== Sys2Proof/Decode.lean ====
section
/-! DEFINITION. The decode ROM (30_encoding.md R64 to R69), the decoder and the encoder. The opcode bytes and the
register indices are parameters, `Codes` (00_scope.md R5); the spec's own values for them, which its source does not
give, are `Codes.decided` (92_eei_decisions.md D1, D2; log 6, log 7). -/

namespace Sys2Proof

/-- `opcodeOf`: the opcode byte of a mnemonic (30_encoding.md R64). -/
def opcodeOf (c : Codes) : Mnemonic → Byte
  | .num => c.opcodes.num
  | .mov => c.opcodes.mov
  | .jmp => c.opcodes.jmp
  | .jin => c.opcodes.jin
  | .jiz => c.opcodes.jiz
  | .jnz => c.opcodes.jnz
  | .jic => c.opcodes.jic
  | .jnc => c.opcodes.jnc
  | .clc => c.opcodes.clc
  | .clr => c.opcodes.clr
  | .ret => c.opcodes.ret
  | .alc => c.opcodes.alc
  | .eat => c.opcodes.eat
  | .ofg => c.opcodes.ofg
  | .ofs => c.opcodes.ofs
  | .pop => c.opcodes.pop
  | .psh => c.opcodes.psh
  | .gec => c.opcodes.gec
  | .sec => c.opcodes.sec
  | .ger => c.opcodes.ger
  | .ser => c.opcodes.ser
  | .inc => c.opcodes.inc
  | .dec => c.opcodes.dec
  | .add => c.opcodes.add
  | .sub => c.opcodes.sub
  | .mul => c.opcodes.mul
  | .shl => c.opcodes.shl
  | .shr => c.opcodes.shr
  | .inl => c.opcodes.inl
  | .del => c.opcodes.del
  | .hlt => c.opcodes.hlt

/-- `regIndex`: the operand byte of a register (10_state.md R15). -/
def regIndex (c : Codes) : Reg → Byte
  | .a => c.registers.a
  | .b => c.registers.b
  | .c => c.registers.c
  | .d => c.registers.d
  | .m => c.registers.m
  | .ipl => c.registers.ipl
  | .iph => c.registers.iph
  | .spl => c.registers.spl
  | .sph => c.registers.sph

/-- The opcode bytes that the spec decides (30_encoding.md R64; 92_eei_decisions.md D1; log 6). -/
def decidedOpcodes : OpcodeMap where
  num := 0x00#8
  mov := 0x01#8
  jmp := 0x02#8
  jin := 0x03#8
  jiz := 0x04#8
  jnz := 0x05#8
  jic := 0x06#8
  jnc := 0x07#8
  clc := 0x08#8
  clr := 0x09#8
  ret := 0x0A#8
  alc := 0x0B#8
  eat := 0x0C#8
  ofg := 0x0D#8
  ofs := 0x0E#8
  pop := 0x0F#8
  psh := 0x10#8
  gec := 0x11#8
  sec := 0x12#8
  ger := 0x13#8
  ser := 0x14#8
  inc := 0x15#8
  dec := 0x16#8
  add := 0x17#8
  sub := 0x18#8
  mul := 0x19#8
  shl := 0x1A#8
  shr := 0x1B#8
  inl := 0x1C#8
  del := 0x1D#8
  hlt := 0x1E#8

/-- The register indices that the spec decides (10_state.md R15; 92_eei_decisions.md D2; log 7). -/
def decidedRegisters : RegisterMap where
  a := 0#8
  b := 1#8
  c := 2#8
  d := 3#8
  m := 4#8
  ipl := 5#8
  iph := 6#8
  spl := 7#8
  sph := 8#8

/-- The numbers that the spec decides, under which all its encodings are written (00_scope.md R5). -/
def Codes.decided : Codes := { opcodes := decidedOpcodes, registers := decidedRegisters }

/-- Every mnemonic, in the order of the decode ROM (30_encoding.md R64, R70). -/
def allMnemonics : List Mnemonic :=
  [.num, .mov, .jmp, .jin, .jiz, .jnz, .jic, .jnc, .clc, .clr, .ret, .alc, .eat, .ofg, .ofs, .pop, .psh,
   .gec, .sec, .ger, .ser, .inc, .dec, .add, .sub, .mul, .shl, .shr, .inl, .del, .hlt]

/-- Every register, in the order of its index (10_state.md R15). -/
def allRegs : List Reg := [.a, .b, .c, .d, .m, .ipl, .iph, .spl, .sph]

/-- `DecodeROM[op]`: the mnemonic of an opcode byte, none for an illegal one (30_encoding.md R61, R67). -/
def romLookup (c : Codes) (op : Byte) : Option Mnemonic :=
  allMnemonics.find? fun m => opcodeOf c m == op

/-- The register a REGISTER byte names, none for the others: 9..255 under the decided numbers (30_encoding.md R62,
R68). -/
def regOfByte (c : Codes) (b : Byte) : Option Reg :=
  allRegs.find? fun r => regIndex c r == b

/-- The opcode bytes that have a ROM entry (30_encoding.md R64, R67). -/
def Codes.opcodeBytes (c : Codes) : List Byte := allMnemonics.map (opcodeOf c)

/-- The REGISTER bytes that name a register (30_encoding.md R68). -/
def Codes.registerBytes (c : Codes) : List Byte := allRegs.map (regIndex c)

/-- No two mnemonics share an opcode byte and no two registers an index, as a table from bytes needs (30_encoding.md
R62, R64). -/
def Codes.distinct (c : Codes) : Bool := decide c.opcodeBytes.Nodup && decide c.registerBytes.Nodup

/-- The mnemonic of an instruction (30_encoding.md R64). -/
def Instr.mnemonic : Instr → Mnemonic
  | .num _ _ => .num
  | .mov _ _ => .mov
  | .jmp _ _ => .jmp
  | .jin _ _ => .jin
  | .jiz _ _ => .jiz
  | .jnz _ _ => .jnz
  | .jic _ _ => .jic
  | .jnc _ _ => .jnc
  | .clc _ _ => .clc
  | .clr _ _ => .clr
  | .ret => .ret
  | .alc _ => .alc
  | .eat _ => .eat
  | .ofg _ _ => .ofg
  | .ofs _ _ => .ofs
  | .pop _ => .pop
  | .psh _ => .psh
  | .gec _ _ => .gec
  | .sec _ _ => .sec
  | .ger _ _ => .ger
  | .ser _ _ => .ser
  | .inc _ => .inc
  | .dec _ => .dec
  | .add _ _ => .add
  | .sub _ _ => .sub
  | .mul _ _ => .mul
  | .shl _ _ => .shl
  | .shr _ _ => .shr
  | .inl _ _ => .inl
  | .del _ _ => .del
  | .hlt => .hlt

/-- Format FR: one REGISTER byte, or the byte that names none (30_encoding.md R65, R68). -/
def buildR (c : Codes) (mk : Reg → Instr) (b1 : Byte) : Except Byte Instr :=
  match regOfByte c b1 with
  | none => .error b1
  | some r => .ok (mk r)

/-- Format FRI: a REGISTER byte and an IMMEDIATE byte (30_encoding.md R65). -/
def buildRI (c : Codes) (mk : Reg → Byte → Instr) (b1 b2 : Byte) : Except Byte Instr :=
  buildR c (fun r => mk r b2) b1

/-- Format FRR: two REGISTER bytes, the first checked first (30_encoding.md R61, R65; 60_exceptions.md R124). -/
def buildRR (c : Codes) (mk : Reg → Reg → Instr) (b1 b2 : Byte) : Except Byte Instr :=
  match regOfByte c b1 with
  | none => .error b1
  | some r => buildR c (mk r) b2

/-- The instruction of a mnemonic and its operand bytes `b1`, `b2` (a byte that the mnemonic has no operand for is not
read), or the first REGISTER byte that names no register (30_encoding.md R61, R64). -/
def build (c : Codes) (m : Mnemonic) (b1 b2 : Byte) : Except Byte Instr :=
  match m with
  | .num => buildRI c .num b1 b2
  | .mov => buildRR c .mov b1 b2
  | .jmp => .ok (.jmp b1 b2)
  | .jin => buildRR c .jin b1 b2
  | .jiz => .ok (.jiz b1 b2)
  | .jnz => .ok (.jnz b1 b2)
  | .jic => .ok (.jic b1 b2)
  | .jnc => .ok (.jnc b1 b2)
  | .clc => .ok (.clc b1 b2)
  | .clr => buildRR c .clr b1 b2
  | .ret => .ok .ret
  | .alc => .ok (.alc b1)
  | .eat => .ok (.eat b1)
  | .ofg => buildRI c .ofg b1 b2
  | .ofs => buildRI c .ofs b1 b2
  | .pop => buildR c .pop b1
  | .psh => buildR c .psh b1
  | .gec => .ok (.gec b1 b2)
  | .sec => .ok (.sec b1 b2)
  | .ger => buildRR c .ger b1 b2
  | .ser => buildRR c .ser b1 b2
  | .inc => buildR c .inc b1
  | .dec => buildR c .dec b1
  | .add => buildRR c .add b1 b2
  | .sub => buildRR c .sub b1 b2
  | .mul => buildRR c .mul b1 b2
  | .shl => buildRR c .shl b1 b2
  | .shr => buildRR c .shr b1 b2
  | .inl => buildRR c .inl b1 b2
  | .del => buildRR c .del b1 b2
  | .hlt => .ok .hlt

/-- The instruction of a list of operand bytes. -/
def buildList (c : Codes) (m : Mnemonic) (bs : List Byte) : Except Byte Instr :=
  build c m (bs.getD 0 0#8) (bs.getD 1 0#8)

/-- Why a list of bytes does not begin with an instruction. -/
inductive DecodeError where
  /-- the list ends before the instruction does -/
  | truncated
  /-- the opcode byte has no entry in the decode ROM (30_encoding.md R67) -/
  | invalidOpcode (op : Byte)
  /-- a REGISTER byte names no register (30_encoding.md R68) -/
  | invalidRegister (b : Byte)
deriving DecidableEq, Repr

/-- Decode the instruction at the head of a list of bytes, with the bytes after it: look the opcode byte up, take as
many bytes as it has operands, check the REGISTER bytes in order (30_encoding.md R61, R66 to R68). -/
def decode (c : Codes) : List Byte → Except DecodeError (Instr × List Byte)
  | [] => .error .truncated
  | op :: rest =>
    match romLookup c op with
    | none => .error (.invalidOpcode op)
    | some m =>
      if rest.length < m.kinds.length then .error .truncated
      else
        match buildList c m (rest.take m.kinds.length) with
        | .error b => .error (.invalidRegister b)
        | .ok i => .ok (i, rest.drop m.kinds.length)

/-- The operand bytes of an instruction, in order (30_encoding.md R60, R65). -/
def Instr.operandBytes (c : Codes) : Instr → List Byte
  | .num r i | .ofg r i | .ofs r i => [regIndex c r, i]
  | .mov r s | .jin r s | .clr r s | .ger r s | .ser r s | .add r s | .sub r s | .mul r s | .shl r s | .shr r s
  | .inl r s | .del r s => [regIndex c r, regIndex c s]
  | .jmp lo hi | .jiz lo hi | .jnz lo hi | .jic lo hi | .jnc lo hi | .clc lo hi | .gec lo hi | .sec lo hi => [lo, hi]
  | .pop r | .psh r | .inc r | .dec r => [regIndex c r]
  | .alc n | .eat n => [n]
  | .ret | .hlt => []

/-- An instruction as its bytes spell it. -/
def Instr.raw (c : Codes) (i : Instr) : RawInstr := ⟨i.mnemonic, i.operandBytes c⟩

/-- The bytes of an instruction: its opcode byte, then one byte per operand (30_encoding.md R60). -/
def encode (c : Codes) (i : Instr) : List Byte := opcodeOf c i.mnemonic :: i.operandBytes c

/-- The length of an instruction in bytes, 1, 2 or 3 (30_encoding.md R60, R66). -/
def Instr.length (i : Instr) : Nat := 1 + i.mnemonic.kinds.length

/-- Byte `k` of the number `w`, byte 0 the least significant. -/
def byteOfNat (w k : Nat) : Byte := BitVec.ofNat 8 (w >>> (8 * k))

/-- The three bytes of an instruction whose bits are the low `nbits` of `w`, the first byte the least significant, every
bit above them 0. -/
def tableBytes (nbits w : Nat) : List Byte :=
  let v := w % 2 ^ nbits
  [byteOfNat v 0, byteOfNat v 1, byteOfNat v 2]

/-- The instruction that the decoder of a machine with the numbers `c` reads from an instruction whose bits are `w`. -/
def decodeWord (c : Codes) (nbits w : Nat) : Option Instr :=
  match decode c (tableBytes nbits w) with
  | .ok (i, _) => some i
  | .error _ => none

/-- The instruction that the decoder reads from an instruction whose bits are `w`, numbered as opcode_table.json numbers
them: the table is written under the decided numbers. -/
def decodeTableWord (nbits w : Nat) : Option Instr := decodeWord Codes.decided nbits w

end Sys2Proof
end

