-- ==== Sys2Proof/Machine/State.lean ====
section
/-! DEFINITION. The state of the CPU (10_state.md R15 to R36), as plain data, the reasons a step stops, and the state
after reset. -/

namespace Sys2Proof.Machine

/-- A register or flag cell. The spec's cell holds a value or `undef` (10_state.md R16, R25). Here the value is always
there and `isDef` is false where the spec says `undef`: the value is then a named value (at a start: log 1) or a free
value (left by an instruction: log 3), and the configuration says whether reading it raises UndefinedRead (log 2). -/
structure Held (α : Type) where
  val : α
  isDef : Bool
deriving DecidableEq, Repr

/-- The nine register cells (10_state.md R15). IP is `iph:ipl` and SP is `sph:spl`; neither is stored apart (R17). -/
structure Regs where
  a : Held Byte
  b : Held Byte
  c : Held Byte
  d : Held Byte
  m : Held Byte
  ipl : Held Byte
  iph : Held Byte
  spl : Held Byte
  sph : Held Byte
deriving DecidableEq, Repr

/-- The kinds of runtime error (60_exceptions.md R120). -/
inductive ErrorKind where
  /-- an access address, or a new value of SP or IP, outside 0..0xFFFF; raised by fetch at the top of memory and by
  `ofg`, `ofs`, `pop`, `ret`, `psh`, `clc`, `clr`, `alc`, `eat` -/
  | addressOutOfRange
  /-- the fetched opcode byte has no decode-ROM entry; raised by fetch -/
  | invalidOpcode
  /-- a REGISTER operand byte names no register; raised by decode -/
  | invalidRegister
  /-- a read of an `undef` storage byte, or (where the configuration asks for it, log 2) of an `undef` register cell or
  flag; raised by any instruction -/
  | undefinedRead
deriving DecidableEq, Repr

/-- The offending value of an error (60_exceptions.md R120, column `value`; log 15). -/
inductive ErrorValue where
  /-- an address, or a new SP or IP, as the unbounded integer it was computed as -/
  | address (n : Int)
  /-- an opcode byte or a register operand byte -/
  | byte (b : Byte)
  /-- a register cell -/
  | register (r : Reg)
  /-- a flag -/
  | flag (f : Flag)
deriving DecidableEq, Repr

/-- The error record (10_state.md R31; 60_exceptions.md R121): `ip` is the address of the opcode byte of the instruction
that raised it. -/
structure FaultRecord where
  kind : ErrorKind
  ip : Word
  value : ErrorValue
deriving DecidableEq, Repr

/-- One call at the I/O port (20_memory.md R48): `ioGet(offset)` with the byte it returned, or `ioSet(offset, value)`. -/
inductive IoEvent where
  | get (offset : Nat) (value : Byte)
  | set (offset : Nat) (value : Byte)
deriving DecidableEq, Repr

/-- Storage: the written bytes by address, addresses strictly rising; an address not listed is `undef` (20_memory.md R41;
log 4). -/
abbrev Memory := List Host.Cell

/-- What is fixed for the life of a machine and is not fixed by the source (10_state.md R36, `Config`). -/
structure Params where
  /-- `opcodeOf` and `regIndex`, the numbers of the decode ROM and of the registers (00_scope.md R5; 30_encoding.md R64,
  R69; 10_state.md R15, R32; log 6, log 7) -/
  codes : Codes
  /-- `IO_BASE`, a named parameter with 2 <= IO_BASE <= 0xF000 (20_memory.md R39; log 5) -/
  ioBase : Word
  /-- the model's own: whether reading a register cell or flag marked `undef` raises the model-only UndefinedRead of
  10_state.md R19 and R27 (true), or gives the value the cell holds (false) (log 2) -/
  trapUndef : Bool
deriving DecidableEq, Repr

/-- The state of the machine (10_state.md R36). -/
structure State where
  /-- the parameters; no operation changes them (10_state.md R36, Config) -/
  cfg : Params
  /-- the register file (R15) -/
  regs : Regs
  /-- the flag `zero`, Z (R25) -/
  zero : Held Bool
  /-- the flag `carry`, C (R25) -/
  carry : Held Bool
  /-- storage (R33) -/
  mem : Memory
  /-- whether a `loadProgram` has been made, so that the CPU has started (70_reset_and_hazards.md R134) -/
  loaded : Bool
  /-- the halted latch (R30) -/
  halted : Bool
  /-- the fault record (R31) -/
  fault : Option FaultRecord
  /-- `pc0`: the address of the opcode byte of the instruction being executed (R21; log 13) -/
  pc0 : Word
  /-- the calls made at the I/O port, in order (20_memory.md R48, R53; log 23) -/
  ioLog : List IoEvent
  /-- the model's own: how many free values have been drawn (log 20) -/
  draws : Nat
deriving DecidableEq, Repr

/-- Why the machine stops with a fault. -/
inductive Fault where
  /-- Raised by `step` when a runtime error is recorded: the CPU executes no instruction (10_state.md R31) and this is
  the error that ends the `run` call (60_exceptions.md R122; log 8). Safe: the spec's own stop. -/
  | runtimeError (r : FaultRecord)
deriving DecidableEq, Repr

/-- Why the machine, or a call of the host, is refused. -/
inductive Refusal where
  /-- Raised by an arm of `exec` for an instruction that has no meaning yet; no arm does. Safe. -/
  | notModelled (mnemonic : String)
  /-- Raised by `step` and `run` before any `loadProgram` (70_reset_and_hazards.md R134). Safe: the spec refuses it. -/
  | notStarted
  /-- Raised by `step` and `run` while the CPU is halted (70_reset_and_hazards.md R139; log 11). Safe: the spec refuses
  it. -/
  | halted
  /-- Raised by `run` while an error is recorded (70_reset_and_hazards.md R139). Safe: the spec refuses it. -/
  | faulted
  /-- Raised by `loadProgram` for a start address below 2 (70_reset_and_hazards.md R135). Safe: the spec refuses it. -/
  | loadBelowEntry
  /-- Raised by `loadProgram` for bytes that pass 0xFFFF (70_reset_and_hazards.md R135). Safe: the spec refuses it. -/
  | loadPastTop
  /-- Raised by `loadProgram` for bytes that meet the I/O window (70_reset_and_hazards.md R135). Safe: the spec refuses
  it. -/
  | loadMeetsWindow
deriving DecidableEq, Repr

/-- A cell that the spec calls `undef` after a start (10_state.md R35): value 0. DESIGN CHOICE, log 1. -/
def undefByte : Held Byte := ⟨0#8, false⟩

/-- A flag that the spec calls `undef` after a start (10_state.md R35): value false. DESIGN CHOICE, log 1. -/
def undefFlag : Held Bool := ⟨false, false⟩

/-- The machine right after reset, before the first `loadProgram` (70_reset_and_hazards.md R134; 10_state.md R35):
nothing loaded, every storage byte and every cell `undef`. That the CPU is not halted and has no error recorded is the
spec's only after a start (R30, R35); before the first load it is the model's choice: DESIGN CHOICE, log 24. -/
def State.reset : State where
  cfg := { codes := Codes.decided, ioBase := 0xF000#16, trapUndef := false }
  regs := { a := undefByte, b := undefByte, c := undefByte, d := undefByte, m := undefByte,
            ipl := undefByte, iph := undefByte, spl := undefByte, sph := undefByte }
  zero := undefFlag
  carry := undefFlag
  mem := []
  loaded := false
  halted := false
  fault := none
  pc0 := 0#16
  ioLog := []
  draws := 0

end Sys2Proof.Machine
end

