-- ==== Sys2Proof/Machine/Ops.lean ====
section
/-! DEFINITION. The named operations over registers, storage and the I/O port (00_scope.md R8), taking a runtime error
(`raise`) and the start that is the only way on from one (`start`).

An operation answers a `Res`: done, with a value and the state so far, or raised, with the state in which the error is
recorded and the rest of the instruction does not happen (60_exceptions.md R122). -/

namespace Sys2Proof.Machine

/-- What an operation within an instruction answers. -/
inductive Res (α : Type) where
  | done (x : α) (s : State)
  | raised (s : State)
deriving DecidableEq, Repr

/-- Go on with the value and the state of an operation that is done; an error ends the sequence
(60_exceptions.md R122, R124). -/
def Res.andThen {α β : Type} (x : Res α) (f : α → State → Res β) : Res β :=
  match x with
  | .done a s => f a s
  | .raised s => .raised s

/-- The next state of an instruction: the one its rule leaves, or the one in which its error is recorded. -/
def Res.outcome {α : Type} (x : Res α) : Host.Outcome State Fault Refusal :=
  match x with
  | .done _ s => .next s
  | .raised s => .next s

/-- Taking a runtime error: the record `(kind, pc0, value)` is written, and nothing else (10_state.md R31;
60_exceptions.md R120 to R122). There is no handler, no vector and no change of mode. DEDUCED, log 8; what the
instruction did before it stays done: DESIGN CHOICE, log 9. -/
def raise {α : Type} (kind : ErrorKind) (value : ErrorValue) (s : State) : Res α :=
  .raised { s with fault := some { kind := kind, ip := s.pc0, value := value } }

/-- The label of an error kind (60_exceptions.md R120). -/
def ErrorKind.code : ErrorKind → Nat
  | .addressOutOfRange => 0
  | .invalidOpcode => 1
  | .invalidRegister => 2
  | .undefinedRead => 3

/-! ### Bytes and words -/

/-- `cat(hi, lo)`: the word `hi * 256 + lo` (00_scope.md R6). -/
def cat (hi lo : Byte) : Word := hi ++ lo

/-- `v[7:0]` (00_scope.md R6). -/
def loByte (v : Word) : Byte := v.extractLsb' 0 8

/-- `v[15:8]` (00_scope.md R6). -/
def hiByte (v : Word) : Byte := v.extractLsb' 8 8

/-! ### The register file -/

/-- The cell of a register (10_state.md R15). -/
def Regs.get (g : Regs) : Reg → Held Byte
  | .a => g.a
  | .b => g.b
  | .c => g.c
  | .d => g.d
  | .m => g.m
  | .ipl => g.ipl
  | .iph => g.iph
  | .spl => g.spl
  | .sph => g.sph

/-- The register file with one cell replaced, every other as it was (10_state.md R16, R17). -/
def Regs.set (g : Regs) (r : Reg) (h : Held Byte) : Regs :=
  match r with
  | .a => { g with a := h }
  | .b => { g with b := h }
  | .c => { g with c := h }
  | .d => { g with d := h }
  | .m => { g with m := h }
  | .ipl => { g with ipl := h }
  | .iph => { g with iph := h }
  | .spl => { g with spl := h }
  | .sph => { g with sph := h }

/-- The byte a register cell holds. -/
def State.regVal (s : State) (r : Reg) : Byte := (s.regs.get r).val

/-- The word in a pair of register cells, `cat(x[rh], x[rl])` (30_encoding.md R63). -/
def State.pairVal (s : State) (rl rh : Reg) : Word := cat (s.regVal rh) (s.regVal rl)

/-- IP, the instruction pointer: `cat(x[IPH], x[IPL])` (10_state.md R17). -/
def State.pc (s : State) : Word := s.pairVal .ipl .iph

/-- SP, the stack pointer: `cat(x[SPH], x[SPL])` (10_state.md R17). -/
def State.sp (s : State) : Word := s.pairVal .spl .sph

/-- The cell of a flag (10_state.md R25). -/
def State.flagCell (s : State) : Flag → Held Bool
  | .zero => s.zero
  | .carry => s.carry

/-- Whether reading a cell gives its value: it is defined, or the configuration does not trap the reading of an `undef`
cell (10_state.md R19, R27; log 2). -/
def State.readable {α : Type} (s : State) (h : Held α) : Bool := h.isDef || !s.cfg.trapUndef

/-- `x[r]` (00_scope.md R8; 10_state.md R19). -/
def readReg (r : Reg) (s : State) : Res Byte :=
  if s.readable (s.regs.get r) then .done (s.regVal r) s
  else raise .undefinedRead (.register r) s

/-- Read a flag (10_state.md R27). -/
def readFlag (f : Flag) (s : State) : Res Bool :=
  if s.readable (s.flagCell f) then .done (s.flagCell f).val s
  else raise .undefinedRead (.flag f) s

/-- The state with one register cell replaced. -/
def State.setCell (s : State) (r : Reg) (h : Held Byte) : State := { s with regs := s.regs.set r h }

/-- `x[r] <- v` (00_scope.md R8; 10_state.md R16). -/
def State.setReg (s : State) (r : Reg) (v : Byte) : State := s.setCell r { val := v, isDef := true }

/-- `x[r] <- undef`: the cell holds a free value, marked undefined (44_arithmetic.md R113 to R116; log 3). -/
def State.undefReg (s : State) (r : Reg) : State :=
  { s.setCell r { val := Config.freeByte s.draws, isDef := false } with draws := s.draws + 1 }

/-- Write a word into a pair of register cells: `w[7:0]` into the low one, then `w[15:8]` into the high one
(00_scope.md R8; 44_arithmetic.md R115). -/
def State.setPair (s : State) (rl rh : Reg) (w : Word) : State := (s.setReg rl (loByte w)).setReg rh (hiByte w)

/-- `pc <- t` (00_scope.md R8). -/
def State.setPc (s : State) (t : Word) : State := s.setPair .ipl .iph t

/-- `SP <- t` for a `t` in range (00_scope.md R8). -/
def State.setSp (s : State) (t : Word) : State := s.setPair .spl .sph t

/-- Read a pair of cells as a word, the low half first (10_state.md R19; 30_encoding.md R63). -/
def readPair (rl rh : Reg) (s : State) : Res Word :=
  (readReg rl s).andThen fun lo s => (readReg rh s).andThen fun hi s => .done (cat hi lo) s

/-- Read IP as a word (10_state.md R17, R19). -/
def readPc (s : State) : Res Word := readPair .ipl .iph s

/-- Read SP as a word (10_state.md R17, R19). -/
def readSp (s : State) : Res Word := readPair .spl .sph s

/-- `SP <- t` for an unbounded `t`: outside 0..0xFFFF it raises and does not wrap (00_scope.md R8; 10_state.md R24). -/
def moveSp (t : Int) (s : State) : Res Unit :=
  if 0 ≤ t ∧ t.toNat ≤ 0xFFFF then .done () (s.setSp (BitVec.ofInt 16 t))
  else raise .addressOutOfRange (.address t) s

/-! ### Storage -/

/-- The byte of a storage address, none where it is `undef` (20_memory.md R41). -/
def Memory.read : Memory → Nat → Option Byte
  | [], _ => none
  | (k, v) :: rest, a => if k = a then some v else Memory.read rest a

/-- Storage with one byte written, addresses kept strictly rising (20_memory.md R41, R45). -/
def Memory.write : Memory → Nat → Byte → Memory
  | [], a, b => [(a, b)]
  | (k, v) :: rest, a, b =>
    if a < k then (a, b) :: (k, v) :: rest
    else if a = k then (a, b) :: rest
    else (k, v) :: Memory.write rest a b

/-- The bytes of a list written at consecutive addresses (70_reset_and_hazards.md R135). -/
def Memory.writeList : Memory → Nat → List Byte → Memory
  | m, _, [] => m
  | m, a, b :: bs => Memory.writeList (Memory.write m a b) (a + 1) bs

/-- The canonical form: addresses strictly rising. No listed byte can equal what an unlisted address reads as, since that
is no value. -/
def Memory.wf : Memory → Bool
  | [] => true
  | [_] => true
  | (k, _) :: (k', v') :: rest => decide (k < k') && Memory.wf ((k', v') :: rest)

/-- `IsIO(a)` (20_memory.md R38). -/
def State.isIo (s : State) (a : Nat) : Bool :=
  decide (s.cfg.ioBase.toNat ≤ a ∧ a ≤ s.cfg.ioBase.toNat + (Config.ioSize - 1))

/-- `IoOffset(a)` (20_memory.md R38). -/
def State.ioOffset (s : State) (a : Nat) : Nat := a - s.cfg.ioBase.toNat

/-- The state after `ioGet(offset)`: the call is recorded with the byte it gives, and a free value is drawn. -/
def State.afterGet (s : State) (offset : Nat) : State :=
  { s with ioLog := s.ioLog ++ [.get offset (Config.ioByte s.draws offset)], draws := s.draws + 1 }

/-- `ioGet(offset)`: any byte, a fresh draw at each call (20_memory.md R48). -/
def ioGet (offset : Nat) (s : State) : Res Byte := .done (Config.ioByte s.draws offset) (s.afterGet offset)

/-- `ioSet(offset, value)`: an event in order, with no effect on CPU state (20_memory.md R48). -/
def State.ioSet (s : State) (offset : Nat) (v : Byte) : State :=
  { s with ioLog := s.ioLog ++ [.set offset v] }

/-- The state with one storage byte written. -/
def State.store (s : State) (a : Nat) (b : Byte) : State := { s with mem := s.mem.write a b }

/-- The state after `MemWrite(a, 1, v)` at an address in range: the window sends the byte to the device, every other
address stores it (20_memory.md R38, R45). -/
def State.writeAt (s : State) (a : Nat) (v : Byte) : State :=
  if s.isIo a then s.ioSet (s.ioOffset a) v else s.store a v

/-- `MemRead(a, 1)`: the range check, then the I/O decoder, then the `undef` check (20_memory.md R44). -/
def memRead (a : Int) (s : State) : Res Byte :=
  if a < 0 ∨ a.toNat > 0xFFFF then raise .addressOutOfRange (.address a) s
  else if s.isIo a.toNat then ioGet (s.ioOffset a.toNat) s
  else
    match s.mem.read a.toNat with
    | none => raise .undefinedRead (.address a) s
    | some b => .done b s

/-- `MemWrite(a, 1, v)` (20_memory.md R45). -/
def memWrite (a : Int) (v : Byte) (s : State) : Res Unit :=
  if a < 0 ∨ a.toNat > 0xFFFF then raise .addressOutOfRange (.address a) s
  else .done () (s.writeAt a.toNat v)

/-! ### The stack -/

/-- `Push(v)`: write at SP, then SP + 1 (20_memory.md R46). -/
def push (v : Byte) (s : State) : Res Unit :=
  (readSp s).andThen fun sp s =>
    (memWrite (sp.toNat : Int) v s).andThen fun _ s => moveSp ((sp.toNat : Int) + 1) s

/-- `Pop()`: SP - 1, then read there (20_memory.md R46). -/
def pop (s : State) : Res Byte :=
  (readSp s).andThen fun sp s =>
    (moveSp ((sp.toNat : Int) - 1) s).andThen fun _ s => memRead ((sp.toNat : Int) - 1) s

/-- `StackSlot(off) = SP - off - 1`, an unbounded integer (20_memory.md R46). -/
def stackSlot (sp : Word) (off : Byte) : Int := (sp.toNat : Int) - (off.toNat : Int) - 1

/-! ### Start -/

/-- A half of IP as `Start()` seeds it: the storage byte, `undef` where storage is (70_reset_and_hazards.md R133;
log 16). -/
def seedCell : Option Byte → Held Byte
  | some b => { val := b, isDef := true }
  | none => undefByte

/-- `Start()`: the CPU's only reset, at the end of every `loadProgram` and at every restart, and the only way on after a
halt or a runtime error (70_reset_and_hazards.md R133, R138; 60_exceptions.md R125). Storage and the record of I/O calls
are kept. -/
def start (s : State) : State :=
  { s with
    regs := { a := undefByte, b := undefByte, c := undefByte, d := undefByte, m := undefByte,
              ipl := seedCell (s.mem.read 0), iph := seedCell (s.mem.read 1),
              spl := undefByte, sph := undefByte }
    zero := undefFlag
    carry := undefFlag
    halted := false
    fault := none }

end Sys2Proof.Machine
end

