-- ==== Sys2Proof/Machine/Flags.lean ====
section
/-! DEFINITION. The flag computations (10_state.md R26; 44_arithmetic.md R107): from the true result, an unbounded
integer, or left `undef`. -/

namespace Sys2Proof.Machine

/-- The stored result of an arithmetic instruction: the true result modulo 256 (44_arithmetic.md R107(3)). -/
def storedResult (t : Int) : Byte := BitVec.ofInt 8 t

/-- `Z <- (t mod 256 = 0)` (44_arithmetic.md R107(4)). -/
def zeroOf (t : Int) : Bool := decide (t % 256 = 0)

/-- `C <- (t < 0 or t > 255)` (44_arithmetic.md R107(4)). -/
def carryOf (t : Int) : Bool := decide (t < 0 ∨ t > 255)

/-- The state with both flags set from the true result (44_arithmetic.md R107(4)). -/
def State.setFlags (s : State) (t : Int) : State :=
  { s with zero := { val := zeroOf t, isDef := true }, carry := { val := carryOf t, isDef := true } }

/-- The state with both flags left `undef`: free values, marked undefined (10_state.md R26; log 3). -/
def State.undefFlags (s : State) : State :=
  { s with
    zero := { val := Config.freeBit s.draws, isDef := false }
    carry := { val := Config.freeBit (s.draws + 1), isDef := false }
    draws := s.draws + 2 }

/-- An arithmetic result: the stored byte into the destination, both flags from the true result
(44_arithmetic.md R107). -/
def State.setResult (s : State) (rd : Reg) (t : Int) : State := (s.setReg rd (storedResult t)).setFlags t

end Sys2Proof.Machine
end

