-- ==== Sys2Proof/Machine/Operands.lean ====
section
/-! DEFINITION. The operand forms of the PXA ISA (30_encoding.md R62, R63): the immediate address, the register pair,
the register and the stack slot, and the addresses through which instructions read and store. -/

namespace Sys2Proof.Machine

/-- An immediate address `addrLo,addrHi`: `cat(hi, lo)` (30_encoding.md R63). -/
def immAddress (lo hi : Byte) : Word := cat hi lo

/-- A register-pair address or counter `regLo,regHi`: `cat(x[rh], x[rl])`, the low half read first (30_encoding.md R63;
10_state.md R19). -/
def readPairOperand (rl rh : Reg) (s : State) : Res Word := readPair rl rh s

/-- Two register operands, the destination read first (60_exceptions.md R124; log 22). -/
def readTwo (rd rs : Reg) (s : State) : Res (Byte × Byte) :=
  (readReg rd s).andThen fun x s => (readReg rs s).andThen fun y s => .done (x, y) s

/-- Read the byte at a 16-bit address into a register (43_memory_access.md; 20_memory.md R44). -/
def loadInto (r : Reg) (a : Int) (s : State) : Res Unit :=
  (memRead a s).andThen fun v s => .done () (s.setReg r v)

/-- Store the value of a register at an address that is already computed (20_memory.md R45). -/
def storeFrom (r : Reg) (a : Int) (s : State) : Res Unit :=
  (readReg r s).andThen fun v s => memWrite a v s

/-- The address of the stack slot `SP - off - 1` (20_memory.md R46). -/
def slotOperand (off : Byte) (s : State) : Res Int :=
  (readSp s).andThen fun sp s => .done (stackSlot sp off) s

end Sys2Proof.Machine
end

