-- ==== Sys2Proof/Machine/Arithmetic.lean ====
section
/-! DEFINITION. The arithmetic and logic instructions (44_arithmetic.md). -/

namespace Sys2Proof.Machine

/-- A one-register operation: the true result from the old value (R107 to R109). -/
def alu1 (f : Int → Int) (r : Reg) (s : State) : Res Unit :=
  (readReg r s).andThen fun x s => .done () (s.setResult r (f (x.toNat : Int)))

/-- A two-register operation: the true result from the old values (R107, R110 to R112). -/
def alu2 (f : Int → Int → Int) (rd rs : Reg) (s : State) : Res Unit :=
  (readTwo rd rs s).andThen fun xy s => .done () (s.setResult rd (f (xy.1.toNat : Int) (xy.2.toNat : Int)))

/-- A shift: for a count of 0..7 the shifted byte, for a greater count the destination is left `undef`; both flags are
left `undef` (R113, R114). -/
def shift (f : Nat → Nat → Nat) (rd rs : Reg) (s : State) : Res Unit :=
  (readTwo rd rs s).andThen fun xy s =>
    .done () (if xy.2.toNat ≤ 7 then s.setReg rd (BitVec.ofNat 8 (f xy.1.toNat xy.2.toNat)) else s.undefReg rd).undefFlags

/-- A register pair as a 16-bit counter: the new value into both halves, or `undef` where one register is both; both
flags are left `undef` (R115, R116). -/
def counter (f : Word → Word) (rl rh : Reg) (s : State) : Res Unit :=
  (readPairOperand rl rh s).andThen fun w s =>
    .done () (if rl = rh then s.undefReg rl else s.setPair rl rh (f w)).undefFlags

/-- `inc reg`: increment (R108). -/
def execInc (r : Reg) (s : State) : Host.Outcome State Fault Refusal :=
  (alu1 (fun x => x + 1) r s).outcome

/-- `dec reg`: decrement (R109; 90_conflicts.md C2). -/
def execDec (r : Reg) (s : State) : Host.Outcome State Fault Refusal :=
  (alu1 (fun x => x - 1) r s).outcome

/-- `add dst, src`: add (R110). -/
def execAdd (rd rs : Reg) (s : State) : Host.Outcome State Fault Refusal :=
  (alu2 (fun x y => x + y) rd rs s).outcome

/-- `sub dst, src`: subtract (R111). -/
def execSub (rd rs : Reg) (s : State) : Host.Outcome State Fault Refusal :=
  (alu2 (fun x y => x - y) rd rs s).outcome

/-- `mul dst, src`: multiply, low byte (R112). -/
def execMul (rd rs : Reg) (s : State) : Host.Outcome State Fault Refusal :=
  (alu2 (fun x y => x * y) rd rs s).outcome

/-- `shl dst, src`: shift left by the value of the source register (R113). -/
def execShl (rd rs : Reg) (s : State) : Host.Outcome State Fault Refusal :=
  (shift (fun x n => x * 2 ^ n) rd rs s).outcome

/-- `shr dst, src`: logical shift right by the value of the source register (R114). -/
def execShr (rd rs : Reg) (s : State) : Host.Outcome State Fault Refusal :=
  (shift (fun x n => x / 2 ^ n) rd rs s).outcome

/-- `inl regLo, regHi`: 16-bit increment, wrapping (R115). -/
def execInl (rl rh : Reg) (s : State) : Host.Outcome State Fault Refusal :=
  (counter (fun w => w + 1) rl rh s).outcome

/-- `del regLo, regHi`: 16-bit decrement, wrapping (R116). -/
def execDel (rl rh : Reg) (s : State) : Host.Outcome State Fault Refusal :=
  (counter (fun w => w - 1) rl rh s).outcome

end Sys2Proof.Machine
end

