-- ==== Sys2Proof/Machine/ControlFlow.lean ====
section
/-! DEFINITION. The control-transfer instructions (41_control_flow.md). There are no delay slots (R96). -/

namespace Sys2Proof.Machine

/-- A conditional jump: taken when the flag has the wanted value (R89 to R92). -/
def jumpIf (f : Flag) (wanted : Bool) (target : Word) (s : State) : Res Unit :=
  (readFlag f s).andThen fun v s => .done () (if v == wanted then s.setPc target else s)

/-- A call of a target that is already computed: the return address is pushed low byte first, then IP is the target
(R93, R94). -/
def call (target : Word) (s : State) : Res Unit :=
  (readPc s).andThen fun ra s =>
    (push (loByte ra) s).andThen fun _ s =>
      (push (hiByte ra) s).andThen fun _ s => .done () (s.setPc target)

/-- `jmp addrLo, addrHi`: absolute jump (R87). -/
def execJmp (lo hi : Byte) (s : State) : Host.Outcome State Fault Refusal :=
  .next (s.setPc (immAddress lo hi))

/-- `jin regLo, regHi`: indirect jump (R88). -/
def execJin (rl rh : Reg) (s : State) : Host.Outcome State Fault Refusal :=
  ((readPairOperand rl rh s).andThen fun t s => .done () (s.setPc t)).outcome

/-- `jiz addrLo, addrHi`: jump if zero (R89). -/
def execJiz (lo hi : Byte) (s : State) : Host.Outcome State Fault Refusal :=
  (jumpIf .zero true (immAddress lo hi) s).outcome

/-- `jnz addrLo, addrHi`: jump if not zero (R90). -/
def execJnz (lo hi : Byte) (s : State) : Host.Outcome State Fault Refusal :=
  (jumpIf .zero false (immAddress lo hi) s).outcome

/-- `jic addrLo, addrHi`: jump if carry (R91). -/
def execJic (lo hi : Byte) (s : State) : Host.Outcome State Fault Refusal :=
  (jumpIf .carry true (immAddress lo hi) s).outcome

/-- `jnc addrLo, addrHi`: jump if not carry (R92). -/
def execJnc (lo hi : Byte) (s : State) : Host.Outcome State Fault Refusal :=
  (jumpIf .carry false (immAddress lo hi) s).outcome

/-- `clc addrLo, addrHi`: direct call (R93). -/
def execClc (lo hi : Byte) (s : State) : Host.Outcome State Fault Refusal :=
  (call (immAddress lo hi) s).outcome

/-- `clr regLo, regHi`: indirect call, the target read before the pushes (R94). -/
def execClr (rl rh : Reg) (s : State) : Host.Outcome State Fault Refusal :=
  ((readPairOperand rl rh s).andThen fun t s => call t s).outcome

/-- `ret`: pop the high byte, then the low byte, and go there (R95). -/
def execRet (s : State) : Host.Outcome State Fault Refusal :=
  ((pop s).andThen fun hi s => (pop s).andThen fun lo s => .done () (s.setPc (cat hi lo))).outcome

end Sys2Proof.Machine
end

