-- ==== Sys2Proof/Machine/DataMove.lean ====
section
/-! DEFINITION. The data-move instructions (40_data_move.md). In every meaning IP already holds the address of the next
instruction (10_state.md R21). -/

namespace Sys2Proof.Machine

/-- `num reg, imm`: load immediate (R85). -/
def execNum (r : Reg) (i : Byte) (s : State) : Host.Outcome State Fault Refusal :=
  .next (s.setReg r i)

/-- `mov dst, src`: register copy (R86). -/
def execMov (rd rs : Reg) (s : State) : Host.Outcome State Fault Refusal :=
  ((readReg rs s).andThen fun v s => .done () (s.setReg rd v)).outcome

end Sys2Proof.Machine
end

