-- ==== Sys2Proof/Machine/MemoryAccess.lean ====
section
/-! DEFINITION. The memory-access instructions: every data value moves through M (43_memory_access.md). -/

namespace Sys2Proof.Machine

/-- `gec addrLo, addrHi`: load absolute (R103). -/
def execGec (lo hi : Byte) (s : State) : Host.Outcome State Fault Refusal :=
  (loadInto .m ((immAddress lo hi).toNat : Int) s).outcome

/-- `sec addrLo, addrHi`: store absolute (R104). -/
def execSec (lo hi : Byte) (s : State) : Host.Outcome State Fault Refusal :=
  (storeFrom .m ((immAddress lo hi).toNat : Int) s).outcome

/-- `ger regLo, regHi`: load indirect, the address read before M is written (R105). -/
def execGer (rl rh : Reg) (s : State) : Host.Outcome State Fault Refusal :=
  ((readPairOperand rl rh s).andThen fun a s => loadInto .m (a.toNat : Int) s).outcome

/-- `ser regLo, regHi`: store indirect (R106). -/
def execSer (rl rh : Reg) (s : State) : Host.Outcome State Fault Refusal :=
  ((readPairOperand rl rh s).andThen fun a s => storeFrom .m (a.toNat : Int) s).outcome

end Sys2Proof.Machine
end

