-- ==== Sys2Proof/Machine/Stack.lean ====
section
/-! DEFINITION. The stack-frame instructions (42_stack.md). -/

namespace Sys2Proof.Machine

/-- `alc n`: allocate n stack bytes (R97). -/
def execAlc (n : Byte) (s : State) : Host.Outcome State Fault Refusal :=
  ((readSp s).andThen fun sp s => moveSp ((sp.toNat : Int) + (n.toNat : Int)) s).outcome

/-- `eat n`: release n stack bytes (R98). -/
def execEat (n : Byte) (s : State) : Host.Outcome State Fault Refusal :=
  ((readSp s).andThen fun sp s => moveSp ((sp.toNat : Int) - (n.toNat : Int)) s).outcome

/-- `ofg reg, offset`: read a stack slot; SP is not changed (R99). -/
def execOfg (r : Reg) (off : Byte) (s : State) : Host.Outcome State Fault Refusal :=
  ((slotOperand off s).andThen fun a s => loadInto r a s).outcome

/-- `ofs reg, offset`: write a stack slot; SP is not changed (R100). -/
def execOfs (r : Reg) (off : Byte) (s : State) : Host.Outcome State Fault Refusal :=
  ((slotOperand off s).andThen fun a s => storeFrom r a s).outcome

/-- `pop reg`: pop one byte; SP moves before the register is written (R101). -/
def execPop (r : Reg) (s : State) : Host.Outcome State Fault Refusal :=
  ((pop s).andThen fun v s => .done () (s.setReg r v)).outcome

/-- `psh reg`: push one byte, read before SP moves (R102). -/
def execPsh (r : Reg) (s : State) : Host.Outcome State Fault Refusal :=
  ((readReg r s).andThen fun v s => push v s).outcome

end Sys2Proof.Machine
end

