-- ==== Sys2Proof/Machine/System.lean ====
section
/-! DEFINITION. The one system instruction (45_system.md R117, R118). -/

namespace Sys2Proof.Machine

/-- `hlt`: halt (R117). -/
def execHlt (s : State) : Host.Outcome State Fault Refusal :=
  .next { s with halted := true }

end Sys2Proof.Machine
end

