-- ==== Sys2Proof/Machine/Dispatch.lean ====
section
/-! DEFINITION. What an instruction does: one arm per constructor, each one call of the instruction's meaning
(30_encoding.md R61, `Execute`). -/

namespace Sys2Proof.Machine

def exec (i : Instr) (s : State) : Host.Outcome State Fault Refusal :=
  match i with
  | .num r imm => Sys2Proof.Machine.execNum r imm s
  | .mov rd rs => Sys2Proof.Machine.execMov rd rs s
  | .jmp lo hi => Sys2Proof.Machine.execJmp lo hi s
  | .jin rl rh => Sys2Proof.Machine.execJin rl rh s
  | .jiz lo hi => Sys2Proof.Machine.execJiz lo hi s
  | .jnz lo hi => Sys2Proof.Machine.execJnz lo hi s
  | .jic lo hi => Sys2Proof.Machine.execJic lo hi s
  | .jnc lo hi => Sys2Proof.Machine.execJnc lo hi s
  | .clc lo hi => Sys2Proof.Machine.execClc lo hi s
  | .clr rl rh => Sys2Proof.Machine.execClr rl rh s
  | .ret => Sys2Proof.Machine.execRet s
  | .alc n => Sys2Proof.Machine.execAlc n s
  | .eat n => Sys2Proof.Machine.execEat n s
  | .ofg r off => Sys2Proof.Machine.execOfg r off s
  | .ofs r off => Sys2Proof.Machine.execOfs r off s
  | .pop r => Sys2Proof.Machine.execPop r s
  | .psh r => Sys2Proof.Machine.execPsh r s
  | .gec lo hi => Sys2Proof.Machine.execGec lo hi s
  | .sec lo hi => Sys2Proof.Machine.execSec lo hi s
  | .ger rl rh => Sys2Proof.Machine.execGer rl rh s
  | .ser rl rh => Sys2Proof.Machine.execSer rl rh s
  | .inc r => Sys2Proof.Machine.execInc r s
  | .dec r => Sys2Proof.Machine.execDec r s
  | .add rd rs => Sys2Proof.Machine.execAdd rd rs s
  | .sub rd rs => Sys2Proof.Machine.execSub rd rs s
  | .mul rd rs => Sys2Proof.Machine.execMul rd rs s
  | .shl rd rs => Sys2Proof.Machine.execShl rd rs s
  | .shr rd rs => Sys2Proof.Machine.execShr rd rs s
  | .inl rl rh => Sys2Proof.Machine.execInl rl rh s
  | .del rl rh => Sys2Proof.Machine.execDel rl rh s
  | .hlt => Sys2Proof.Machine.execHlt s

end Sys2Proof.Machine
end

