-- ==== Sys2Proof/Machine/Fetch.lean ====
section
/-! DEFINITION. Fetch and decode (30_encoding.md R61, R66): the bytes of an instruction are read one at a time through
the I/O decoder, IP moving past each, before any effect. -/

namespace Sys2Proof.Machine

/-- `FetchByte()`: read at IP, then move IP past the byte, never past 0xFFFF (30_encoding.md R61; 10_state.md R22). -/
def fetchByte (s : State) : Res Byte :=
  (memRead (s.pc.toNat : Int) s).andThen fun b s =>
    if s.pc.toNat + 1 > 0xFFFF then raise .addressOutOfRange (.address ((s.pc.toNat : Int) + 1)) s
    else .done b (s.setPc (s.pc + 1))

/-- `n` bytes fetched in order (30_encoding.md R61). -/
def fetchBytes : Nat → State → Res (List Byte)
  | 0, s => .done [] s
  | n + 1, s => (fetchByte s).andThen fun b s => (fetchBytes n s).andThen fun bs s => .done (b :: bs) s

/-- `pc0 <- pc`: the address of the opcode byte is kept for the error record; IP is read as a word
(30_encoding.md R61; 10_state.md R19, R21; log 14). -/
def latchPc (s : State) : Res Word := readPc { s with pc0 := s.pc }

/-- The operand bytes of a mnemonic, and then the check of its REGISTER bytes in order (30_encoding.md R61). -/
def fetchOperands (m : Mnemonic) (s : State) : Res Instr :=
  (fetchBytes m.kinds.length s).andThen fun bs s =>
    match buildList s.cfg.codes m bs with
    | .error b => raise .invalidRegister (.byte b) s
    | .ok i => .done i s

/-- Fetch and decode the instruction at IP; IP is left past its last byte (30_encoding.md R61). -/
def fetch (s : State) : Res Instr :=
  (latchPc s).andThen fun _ s =>
    (fetchByte s).andThen fun op s =>
      match romLookup s.cfg.codes op with
      | none => raise .invalidOpcode (.byte op) s
      | some m => fetchOperands m s

/-- Three bytes of storage from address `a` on that are outside the I/O window and from which a fetch cannot pass
0xFFFF. -/
def State.fetchable (s : State) (a : Nat) : Bool :=
  !s.isIo a && !s.isIo (a + 1) && !s.isIo (a + 2) && decide (a + 3 ≤ 0xFFFF)

/-- Where `withFetchWord` places an instruction: at IP where three bytes of storage are there, else at 0x0010, else
(where the I/O window is there) at 0x2000. Log 19. -/
def State.placeFor (s : State) : Nat :=
  if s.fetchable s.pc.toNat then s.pc.toNat
  else if s.fetchable 0x0010 then 0x0010
  else 0x2000

/-- The state with the bytes `bs` in storage where the next step fetches them, and that step able to run: a program
loaded, not halted, no error recorded (70_reset_and_hazards.md R134, R139; log 10). -/
def State.withFetchBytes (s : State) (bs : List Byte) : State :=
  { s.setPc (BitVec.ofNat 16 s.placeFor) with
    mem := s.mem.writeList s.placeFor bs
    loaded := true
    halted := false
    fault := none }

end Sys2Proof.Machine
end

