-- ==== Sys2Proof/Machine/Step.lean ====
section
/-! DEFINITION. One step of the machine: one instruction (00_scope.md R9; 30_encoding.md R61). -/

namespace Sys2Proof.Machine

/-- Fetch an instruction and run it; an error of the fetch is the next state, with its record. -/
def runFetched (r : Res Instr) : Host.Outcome State Fault Refusal :=
  match r with
  | .done i s => exec i s
  | .raised s => .next s

/-- One step: refused before any load and while halted, stopped while an error is recorded (10_state.md R30, R31;
70_reset_and_hazards.md R134, R139), else one instruction. -/
def step (s : State) : Host.Outcome State Fault Refusal :=
  if s.loaded = false then .refused .notStarted
  else
    match s.fault with
    | some r => .fault (.runtimeError r)
    | none => if s.halted then .refused .halted else runFetched (fetch s)

/-- The state with the instruction whose bits are `w` stored where `step` fetches next. -/
def State.withFetchWord (s : State) (nbits w : Nat) : State := s.withFetchBytes (tableBytes nbits w)

end Sys2Proof.Machine
end

