-- ==== Sys2Proof/Machine/HostPort.lean ====
section
/-! DEFINITION. The host control port (00_scope.md R11; 70_reset_and_hazards.md R133 to R139): `loadProgram`, restart and
`run`. The host acts only between steps (R10). -/

namespace Sys2Proof.Machine

/-- Whether the bytes of a load meet the I/O window (70_reset_and_hazards.md R135); no bytes meet nothing (log 17). -/
def State.meetsWindow (s : State) (a len : Nat) : Bool :=
  decide (0 < len ∧ a < s.cfg.ioBase.toNat + Config.ioSize ∧ s.cfg.ioBase.toNat < a + len)

/-- The state of a load that is not refused, before `Start()`: the bytes, then the entry point, low byte at 0x0000
(70_reset_and_hazards.md R135). -/
def State.withProgram (s : State) (a : Word) (bs : List Nat) : State :=
  { s with
    mem := ((s.mem.writeList a.toNat (bs.map (BitVec.ofNat 8))).write 0 (loByte a)).write 1 (hiByte a)
    loaded := true }

/-- `loadProgram(startAddress, bytes)` (70_reset_and_hazards.md R135): refused where a require line fails, else the
bytes and the entry point are written and `Start()` runs. A byte is reduced modulo 256. -/
def loadProgram (a : Word) (bs : List Nat) (s : State) : Host.Outcome State Fault Refusal :=
  if a.toNat < 2 then .refused .loadBelowEntry
  else if a.toNat + bs.length > Config.memBytes then .refused .loadPastTop
  else if s.meetsWindow a.toNat bs.length then .refused .loadMeetsWindow
  else .next (start (s.withProgram a bs))

/-- A restart: `Start()` without loading anything (70_reset_and_hazards.md R138). -/
def restart (s : State) : State := start s

/-- What a `run` call gives the host (70_reset_and_hazards.md R136; 60_exceptions.md R122). -/
inductive RunResult where
  /-- `{halted}`, with the state the call leaves -/
  | returned (halted : Bool) (s : State)
  /-- the runtime error that ended the call -/
  | error (r : FaultRecord) (s : State)
  /-- a call the model refuses (R134, R139) -/
  | refused (r : Refusal)
deriving DecidableEq, Repr

/-- The loop of `run` with `n` instructions of budget left (70_reset_and_hazards.md R136, R137). -/
def runLoop : Nat → State → RunResult
  | 0, s => .returned false s
  | n + 1, s =>
    match step s with
    | .next t =>
      match t.fault with
      | some r => .error r t
      | none => if t.halted then .returned true t else runLoop n t
    | .fault (.runtimeError r) => .error r s
    | .refused r => .refused r

/-- The calls of `run` that are refused (70_reset_and_hazards.md R134, R139). -/
def runRefusal (s : State) : Option Refusal :=
  if s.loaded = false then some .notStarted
  else if s.fault.isSome then some .faulted
  else if s.halted then some .halted
  else none

/-- `run(cyclesLimit)` with a budget (70_reset_and_hazards.md R136, R137). -/
def run (limit : Nat) (s : State) : RunResult :=
  match runRefusal s with
  | some r => .refused r
  | none => runLoop limit s

/-- A result that ends a run: not a pause by the budget (70_reset_and_hazards.md R141). -/
def RunResult.ended : RunResult → Bool
  | .returned halted _ => halted
  | .error _ _ => true
  | .refused _ => true

/-- `run(unbounded)` gives a result: some budget is enough for the run to end in it. A program that never ends gives no
result (70_reset_and_hazards.md R136, R141; log 18). -/
def RunsUnbounded (s : State) (r : RunResult) : Prop := ∃ n, run n s = r ∧ r.ended = true

end Sys2Proof.Machine
end

