-- ==== Sys2Proof/Safety.lean ====
section
/-! DEFINITION. The terms in which claims speak of safe states and runs. -/

namespace Sys2Proof.Machine

/-- Storage as the spec lays it out: the canonical form, every listed address in the 64 KiB space and none in the I/O
window, which has no storage (20_memory.md R37, R38). -/
def State.storageOk (s : State) : Prop :=
  s.mem.wf = true ∧ ∀ c ∈ s.mem, c.1 < Config.memBytes ∧ s.isIo c.1 = false

/-- `IO_BASE` as R39 constrains it (20_memory.md). -/
def State.windowOk (s : State) : Prop :=
  Config.ioBaseMin ≤ s.cfg.ioBase.toNat ∧ s.cfg.ioBase.toNat ≤ Config.ioBaseMax

/-- The numbers of the encoding make a table: no byte stands for two mnemonics, or for two registers (30_encoding.md R62,
R64). -/
def State.codesOk (s : State) : Prop := s.cfg.codes.distinct = true

/-- The invariant of the machine: its storage, its window and its decode ROM are as the spec says, and a CPU that has halted, or that
recorded an error, has been loaded (70_reset_and_hazards.md R134). -/
def State.Inv (s : State) : Prop :=
  s.storageOk ∧ s.windowOk ∧ s.codesOk ∧ (s.halted = true → s.loaded = true) ∧ (s.fault.isSome = true → s.loaded = true)

/-- The CPU executes instructions: loaded, not halted, no error recorded (10_state.md R30, R31; 70_reset_and_hazards.md
R134). -/
def State.running (s : State) : Bool := s.loaded && !s.halted && s.fault.isNone

/-- A step that completes its instruction: a next state with no error recorded (60_exceptions.md R123). -/
def CompletesTo (s t : State) : Prop := step s = .next t ∧ t.fault = none

/-- Reading a register gives its byte: no UndefinedRead (10_state.md R19; log 2). -/
def State.canRead (s : State) (r : Reg) : Prop := s.readable (s.regs.get r) = true

/-- Reading a flag gives its value: no UndefinedRead (10_state.md R27; log 2). -/
def State.canReadFlag (s : State) (f : Flag) : Prop := s.readable (s.flagCell f) = true

/-- Reading SP gives its word: no UndefinedRead (10_state.md R19; log 2). -/
def State.canReadSp (s : State) : Prop := s.canRead .spl ∧ s.canRead .sph

/-- Reading IP gives its word: no UndefinedRead (10_state.md R19; log 2). -/
def State.canReadPc (s : State) : Prop := s.canRead .ipl ∧ s.canRead .iph

/-- An address of storage that holds a byte: in range, outside the window, written (20_memory.md R41, R44). -/
def State.holdsByte (s : State) (a : Nat) (b : Byte) : Prop :=
  a < Config.memBytes ∧ s.isIo a = false ∧ s.mem.read a = some b

/-- The byte that reading an address gives: the device's answer in the window, else the stored byte (20_memory.md R44). -/
def State.readGives (s : State) (a : Nat) (b : Byte) : Prop :=
  a < Config.memBytes ∧ if s.isIo a then b = Config.ioByte s.draws (s.ioOffset a) else s.mem.read a = some b

/-- The state after reading an address (20_memory.md R44, R48). -/
def State.afterRead (s : State) (a : Nat) : State := if s.isIo a then s.afterGet (s.ioOffset a) else s

/-- The I/O call that reading an address makes, if any (20_memory.md R38, R48). -/
def State.readEvents (s : State) (a : Nat) : List IoEvent :=
  if s.isIo a then [.get (s.ioOffset a) (Config.ioByte s.draws (s.ioOffset a))] else []

/-- The I/O call that writing an address makes, if any (20_memory.md R38, R48). -/
def State.writeEvents (s : State) (a : Nat) (v : Byte) : List IoEvent :=
  if s.isIo a then [.set (s.ioOffset a) v] else []

/-- The address is storage that nothing has written (20_memory.md R41). -/
def State.unwritten (s : State) (a : Nat) : Prop :=
  a < Config.memBytes ∧ s.isIo a = false ∧ s.mem.read a = none

/-- Every register cell but those of `w` is as it was. -/
def KeepsRegsBut (s t : State) (w : List Reg) : Prop := ∀ r, r ∉ w → t.regs.get r = s.regs.get r

/-- Both flags are as they were. -/
def KeepsFlags (s t : State) : Prop := t.zero = s.zero ∧ t.carry = s.carry

/-- Every storage byte but those at the addresses of `w` is as it was. -/
def KeepsStorageBut (s t : State) (w : List Nat) : Prop := ∀ a, a ∉ w → t.mem.read a = s.mem.read a

/-- The parameters, the latches, the error record and `pc0` are as they were. -/
def KeepsControl (s t : State) : Prop :=
  t.cfg = s.cfg ∧ t.loaded = s.loaded ∧ t.halted = s.halted ∧ t.fault = s.fault ∧ t.pc0 = s.pc0

/-- No I/O call was made and no free value was drawn. -/
def KeepsIo (s t : State) : Prop := t.ioLog = s.ioLog ∧ t.draws = s.draws

/-- Nothing but register cells of `w` has changed. -/
def ChangesOnlyRegs (s t : State) (w : List Reg) : Prop :=
  KeepsRegsBut s t w ∧ KeepsFlags s t ∧ KeepsStorageBut s t [] ∧ KeepsControl s t ∧ KeepsIo s t

/-- A runtime error is taken: the record is `(kind, pc0, value)` and no I/O call was made. What the registers, flags and
storage are after it is not said (60_exceptions.md R122). -/
def Raises (o : Host.Outcome State Fault Refusal) (s : State) (kind : ErrorKind) (value : ErrorValue) : Prop :=
  ∃ t, o = .next t ∧ t.fault = some { kind := kind, ip := s.pc0, value := value } ∧ t.ioLog = s.ioLog

/-- An operation raises: the record is `(kind, pc0, value)` and no I/O call was made. What the registers, flags and
storage are after it is not said (60_exceptions.md R122). -/
def RaisesIn {α : Type} (x : Res α) (s : State) (kind : ErrorKind) (value : ErrorValue) : Prop :=
  ∃ t, x = .raised t ∧ t.fault = some { kind := kind, ip := s.pc0, value := value } ∧ t.ioLog = s.ioLog

/-- The I/O calls that read (20_memory.md R48). -/
def IoEvent.isGet : IoEvent → Bool
  | .get _ _ => true
  | .set _ _ => false

/-- The spec's reading of `undef`: reading an `undef` register cell or flag raises UndefinedRead (10_state.md R19,
R27; log 2). -/
def State.strict (s : State) : State := { s with cfg := { s.cfg with trapUndef := true } }

/-- Reading an `undef` register cell or flag gives the value the cell holds (log 2). -/
def State.lenient (s : State) : State := { s with cfg := { s.cfg with trapUndef := false } }

end Sys2Proof.Machine
end

