-- ==== Sys2Proof/Certificates/Slice0/Obligations.lean ====
section
/-! DEFINITION. The statements about the model. Each docstring names the rules of spec/ it formalises. Opcode bytes and
register indices are parameters of the machine; `Codes.decided` has the values that the spec decides (92_eei_decisions.md
D1, D2; log 6, log 7). Where a clause rests on a choice of the model, the docstring names the log entry. -/

open Sys2Proof Sys2Proof.Machine

/-! ### Encoding -/

/-- The bytes of every instruction, followed by any bytes, decode to that instruction and those bytes, whatever the
numbers of the encoding, no two of them the same (30_encoding.md sections 1 to 3). -/
def Obligations.DecodeInvertsEncode : Prop :=
  ∀ (c : Codes) (i : Instr) (rest : List Byte), c.distinct = true → decode c (encode c i ++ rest) = .ok (i, rest)

/-- Bytes that decode are the bytes the encoder writes: every encoding is the only one of its instruction
(30_encoding.md sections 1 to 3). -/
def Obligations.EncodeInvertsDecode : Prop :=
  ∀ (c : Codes) (bs : List Byte) (i : Instr) (rest : List Byte), decode c bs = .ok (i, rest) → encode c i ++ rest = bs

/-- R66: the opcode byte alone fixes the length: byte 0 is looked up, then exactly as many more bytes are read as the
entry has operand kinds, whatever they are; decoding runs out of bytes exactly when there are fewer. -/
def Obligations.OpcodeAloneFixesLength : Prop :=
  ∀ (c : Codes) (op : Byte) (rest : List Byte),
    (∀ i rest', decode c (op :: rest) = .ok (i, rest') →
      romLookup c op = some i.mnemonic ∧ i.mnemonic.kinds.length ≤ rest.length ∧
        rest' = rest.drop i.mnemonic.kinds.length) ∧
    (decode c (op :: rest) = .error .truncated ↔
      ∃ m, romLookup c op = some m ∧ rest.length < m.kinds.length)

/-- Exactly the opcode bytes with no entry are illegal, and no operand byte is looked at (30_encoding.md R67); under the
numbers the spec decides (D1, D2) these are 0x1F..0xFF, and the register bytes that name none are 9..255 (R68). -/
def Obligations.OpcodesAboveHltAreIllegal : Prop :=
  (∀ (c : Codes) (op : Byte) (rest : List Byte),
    decode c (op :: rest) = .error (.invalidOpcode op) ↔ op ∉ c.opcodeBytes) ∧
  (∀ (op : Byte) (rest : List Byte),
    decode Codes.decided (op :: rest) = .error (.invalidOpcode op) ↔ 0x1F ≤ op.toNat) ∧
  (∀ b : Byte, b ∉ Codes.decided.registerBytes ↔ 9 ≤ b.toNat)

/-- Words written out from the spec's encodings decode to their instructions (30_encoding.md R64, R65 under D1, D2). -/
def Obligations.WrittenWordsDecode : Prop :=
  decodeTableWord 24 0x0A0100 = some (.num .b 10#8) ∧
  decodeTableWord 24 0x001C02 = some (.jmp 0x1C#8 0x00#8) ∧
  decodeTableWord 24 0x030209 = some (.clr .c .d) ∧
  decodeTableWord 8 0x0A = some .ret ∧
  decodeTableWord 16 0x040B = some (.alc 4#8) ∧
  decodeTableWord 24 0x02000D = some (.ofg .a 2#8) ∧
  decodeTableWord 24 0x030012 = some (.sec 0#8 3#8) ∧
  decodeTableWord 24 0x010318 = some (.sub .d .b) ∧
  decodeTableWord 24 0x080717 = some (.add .spl .sph) ∧
  decodeTableWord 8 0x1E = some .hlt ∧
  decodeTableWord 24 0x090017 = none ∧
  decodeTableWord 8 0x1F = none

/-! ### Registers and memory -/

/-- R16: a cell that is written holds the byte and is defined, a cell left `undef` is not, no other cell changes, every
cell can be written and read, and what is stored is reduced modulo 256. -/
def Obligations.RegisterCellsReadBack : Prop :=
  ∀ (s : State) (r : Reg) (v : Byte) (t : Int),
    (s.setReg r v).regs.get r = { val := v, isDef := true } ∧
    readReg r (s.setReg r v) = .done v (s.setReg r v) ∧
    ((s.undefReg r).regs.get r).isDef = false ∧
    (∀ q, q ≠ r → (s.setReg r v).regs.get q = s.regs.get q ∧ (s.undefReg r).regs.get q = s.regs.get q) ∧
    ((storedResult t).toNat : Int) = t % 256

/-- R17: IP is IPH:IPL and SP is SPH:SPL; a write of one half changes that byte of the pointer and leaves the other byte
and the other pointer as they were; reading a half gives the current byte of the pointer. -/
def Obligations.PointersAliasRegisterHalves : Prop :=
  ∀ (s : State) (v : Byte),
    (s.pc.toNat = 256 * (s.regVal .iph).toNat + (s.regVal .ipl).toNat ∧
      (s.regVal .ipl).toNat = s.pc.toNat % 256 ∧ (s.regVal .iph).toNat = s.pc.toNat / 256) ∧
    (s.sp.toNat = 256 * (s.regVal .sph).toNat + (s.regVal .spl).toNat ∧
      (s.regVal .spl).toNat = s.sp.toNat % 256 ∧ (s.regVal .sph).toNat = s.sp.toNat / 256) ∧
    ((s.setReg .ipl v).pc.toNat = 256 * (s.pc.toNat / 256) + v.toNat ∧ (s.setReg .ipl v).sp = s.sp) ∧
    ((s.setReg .iph v).pc.toNat = 256 * v.toNat + s.pc.toNat % 256 ∧ (s.setReg .iph v).sp = s.sp) ∧
    ((s.setReg .spl v).sp.toNat = 256 * (s.sp.toNat / 256) + v.toNat ∧ (s.setReg .spl v).pc = s.pc) ∧
    ((s.setReg .sph v).sp.toNat = 256 * v.toNat + s.sp.toNat % 256 ∧ (s.setReg .sph v).pc = s.pc)

/-- R44, R45: an address outside 0..0xFFFF raises; an address in the window goes to the device, with its offset, and
nothing else of the CPU changes; storage that holds a byte gives it and nothing changes; an unwritten byte raises
UndefinedRead; a write of storage is read back and no other address is changed. Of a state with an error only the record
and the I/O calls are said. -/
def Obligations.MemoryAccessFollowsDecoder : Prop :=
  ∀ (s : State) (v : Byte),
    (∀ a : Int, a < 0 ∨ a > 0xFFFF →
      RaisesIn (memRead a s) s .addressOutOfRange (.address a) ∧
      RaisesIn (memWrite a v s) s .addressOutOfRange (.address a)) ∧
    (∀ a : Nat, a ≤ 0xFFFF → s.cfg.ioBase.toNat ≤ a → a ≤ s.cfg.ioBase.toNat + 4095 →
      (∃ b n, memRead a s = .done b
        { s with ioLog := s.ioLog ++ [.get (a - s.cfg.ioBase.toNat) b], draws := n }) ∧
      memWrite a v s = .done () { s with ioLog := s.ioLog ++ [.set (a - s.cfg.ioBase.toNat) v] }) ∧
    (∀ a : Nat, a ≤ 0xFFFF → a < s.cfg.ioBase.toNat ∨ s.cfg.ioBase.toNat + 4095 < a →
      (s.mem.read a = none → RaisesIn (memRead a s) s .undefinedRead (.address a)) ∧
      (∀ b, s.mem.read a = some b → memRead a s = .done b s) ∧
      (∃ m : Memory, memWrite a v s = .done () { s with mem := m } ∧ m.read a = some v ∧
        ∀ b, b ≠ a → m.read b = s.mem.read b))

/-- An access that raises writes the error record and changes nothing else, and a read draws one free value where it
asks the device and none elsewhere. Both are the model's choices: log 9 (20_memory.md R44, R45 and 60_exceptions.md R122
leave the state after an error open) and log 20 (the counter is the model's own). -/
def Obligations.AccessErrorsChangeNothingElse : Prop :=
  ∀ (s t : State) (a : Int) (v : Byte),
    (memRead a s = .raised t → t = { s with fault := t.fault }) ∧
    (memWrite a v s = .raised t → t = { s with fault := t.fault }) ∧
    (memRead a s = .done v t → t.draws = s.draws + if s.isIo a.toNat then 1 else 0)

/-- A byte stored below the top of memory outside the window is what the next fetch of that address gives, with no delay
(20_memory.md R57; 70_reset_and_hazards.md R143). -/
def Obligations.StoreIsSeenByFetch : Prop :=
  ∀ (s t : State) (a : Word) (v : Byte), a.toNat < 0xFFFF → s.isIo a.toNat = false →
    memWrite a.toNat v s = .done () t →
      fetchByte (t.setPc a) = .done v ((t.setPc a).setPc (a + 1))

/-! ### The invariant -/

/-- Every step keeps the invariant of the machine: storage canonical, inside the address space and outside the window;
the window where R39 puts it; a decode ROM that is a table; a halted or faulted CPU is a loaded one (20_memory.md sections
1 and 2; 30_encoding.md R64, R69). -/
def Obligations.StepKeepsInvariant : Prop :=
  ∀ s t : State, s.Inv → step s = .next t → t.Inv

/-- The machine after reset has the invariant. The window base 0xF000 at reset is the model's choice (log 5); the numbers
of the encoding are the spec's decisions D1, D2 (log 6, log 7); that the CPU is not halted and has no error before the
first load is the model's choice (log 24). -/
def Obligations.ResetHasInvariant : Prop := State.reset.Inv

/-- A load that is not refused and a restart keep the invariant (70_reset_and_hazards.md section 2). -/
def Obligations.HostCallsKeepInvariant : Prop :=
  ∀ s : State, s.Inv → (restart s).Inv ∧ ∀ (a : Word) (bs : List Nat) (t : State), loadProgram a bs s = .next t → t.Inv

/-! ### The step -/

/-- When the storage bytes at IP decode to an instruction, a step runs that instruction, with IP already past its bytes
and `pc0` at its opcode byte (30_encoding.md R61; 10_state.md R21). -/
def Obligations.StepRunsDecodedInstruction : Prop :=
  ∀ (s : State) (bs : List Byte) (i : Instr), s.running = true → s.canReadPc →
    decode s.cfg.codes bs = .ok (i, []) →
    s.pc.toNat + bs.length ≤ 0xFFFF → (∀ k (h : k < bs.length), s.holdsByte (s.pc.toNat + k) bs[k]) →
      step s = exec i (State.setPc { s with pc0 := s.pc } (s.pc + BitVec.ofNat 16 bs.length))

/-- The word that the machine's decoder reads as an instruction (`decodeTableWord` where its numbers are the decided ones)
is the instruction that the next step of `withFetchWord` runs, from a state in which only IP, `pc0`, the three bytes
fetched and the latches that the fetch needs are not those of `s` (how a program comes to run is log 10, where the word is
placed is log 19). -/
def Obligations.FetchWordRunsItsInstruction : Prop :=
  ∀ (s : State) (nbits w : Nat) (i : Instr), decodeWord s.cfg.codes nbits w = some i →
    ∃ t, step (s.withFetchWord nbits w) = exec i t ∧
      t.pc0 = (s.withFetchWord nbits w).pc ∧ t.pc.toNat = t.pc0.toNat + i.length ∧
      KeepsRegsBut s t [.ipl, .iph] ∧ KeepsFlags s t ∧ KeepsIo s t ∧ t.cfg = s.cfg ∧
      KeepsStorageBut s t [t.pc0.toNat, t.pc0.toNat + 1, t.pc0.toNat + 2]

/-- Fetching the byte at 0xFFFF raises AddressOutOfRange instead of wrapping, before the opcode is looked at, and so does
an instruction whose bytes would reach past 0xFFFF (10_state.md R22; the spec's decision D7). -/
def Obligations.FetchPastTopRaises : Prop :=
  ∀ s : State, s.running = true → s.canReadPc →
    (∀ b, s.pc.toNat = 0xFFFF → s.holdsByte 0xFFFF b →
      ∃ t, step s = .next t ∧ t.ioLog = s.ioLog ∧
        t.fault = some { kind := .addressOutOfRange, ip := s.pc, value := .address 0x10000 }) ∧
    (∀ (bs : List Byte) (i : Instr), decode s.cfg.codes bs = .ok (i, []) → s.pc.toNat + bs.length > 0xFFFF →
      (∀ k (h : k < bs.length), s.pc.toNat + k ≤ 0xFFFF → s.holdsByte (s.pc.toNat + k) bs[k]) →
      ∃ t, step s = .next t ∧ t.ioLog = s.ioLog ∧
        t.fault = some { kind := .addressOutOfRange, ip := s.pc, value := .address 0x10000 })

/-- An opcode byte with no decode-ROM entry raises InvalidOpcode(pc0, op); an unwritten opcode byte raises
UndefinedRead(pc0, pc0) (30_encoding.md R67; 20_memory.md R44). Which bytes have no entry under the decided numbers is
said by OpcodesAboveHltAreIllegal. -/
def Obligations.BadOpcodeByteRaises : Prop :=
  ∀ s : State, s.running = true → s.canReadPc →
    (∀ op, s.holdsByte s.pc.toNat op → s.pc.toNat < 0xFFFF → op ∉ s.cfg.codes.opcodeBytes →
      ∃ t, step s = .next t ∧ t.ioLog = s.ioLog ∧
        t.fault = some { kind := .invalidOpcode, ip := s.pc, value := .byte op }) ∧
    (s.unwritten s.pc.toNat →
      ∃ t, step s = .next t ∧ t.ioLog = s.ioLog ∧
        t.fault = some { kind := .undefinedRead, ip := s.pc, value := .address s.pc.toNat })

/-- The first REGISTER byte, in the order of the operands, that names no register raises InvalidRegister(pc0, b), as the
decoder does, and nothing is changed but IP, which has moved past the bytes, `pc0` and the record (30_encoding.md R61,
R68 "before any effect"; 60_exceptions.md R124(4); the spec's decisions D14, D18). What a state with an error holds
beside the record and the I/O calls is log 9. -/
def Obligations.BadRegisterByteRaises : Prop :=
  ∀ (s : State) (op : Byte) (m : Mnemonic) (bs : List Byte) (k : Nat) (hk : k < bs.length),
    s.running = true → s.canReadPc → romLookup s.cfg.codes op = some m → bs.length = m.kinds.length →
    s.pc.toNat + 1 + bs.length ≤ 0xFFFF → s.holdsByte s.pc.toNat op →
    (∀ j (h : j < bs.length), s.holdsByte (s.pc.toNat + 1 + j) bs[j]) →
    m.kinds[k]? = some .register → bs[k] ∉ s.cfg.codes.registerBytes →
    (∀ j (h : j < k), m.kinds[j]? = some .register → bs[j] ∈ s.cfg.codes.registerBytes) →
      decode s.cfg.codes (op :: bs) = .error (.invalidRegister bs[k]) ∧
      ∃ t, step s = .next t ∧ t.fault = some { kind := .invalidRegister, ip := s.pc, value := .byte bs[k] } ∧
        KeepsRegsBut s t [.ipl, .iph] ∧ KeepsFlags s t ∧ KeepsStorageBut s t [] ∧ KeepsIo s t ∧
        t.cfg = s.cfg ∧ t.loaded = s.loaded ∧ t.halted = s.halted

/-- Errors are precise (60_exceptions.md R123): a step that records an error started with none recorded, the record names
the instruction of that step, and no later instruction starts. That the next step answers the error is log 8; that the
record's ip is the word the two halves of IP hold also where a half cannot be read is log 14. -/
def Obligations.ErrorsArePrecise : Prop :=
  ∀ (s t : State) (r : FaultRecord), step s = .next t → t.fault = some r →
    s.fault = none ∧ r.ip = s.pc ∧ step t = .fault (.runtimeError r)

/-- Every record a step writes has the value that R120 gives its kind (60_exceptions.md section 2; the bytes under the
decided numbers are D1, D2, the kinds 2 and 3 D4, D14; that a register or flag is named only where the configuration asks for it is log 2). -/
def Obligations.ErrorRecordFitsItsKind : Prop :=
  ∀ (s t : State) (r : FaultRecord), step s = .next t → t.fault = some r →
    match r.kind with
    | .addressOutOfRange => ∃ n : Int, r.value = .address n ∧ (n < 0 ∨ n > 0xFFFF)
    | .invalidOpcode => ∃ b : Byte, r.value = .byte b ∧ b ∉ s.cfg.codes.opcodeBytes ∧
        (s.cfg.codes = Codes.decided → 0x1F ≤ b.toNat)
    | .invalidRegister => ∃ b : Byte, r.value = .byte b ∧ b ∉ s.cfg.codes.registerBytes ∧
        (s.cfg.codes = Codes.decided → 9 ≤ b.toNat)
    | .undefinedRead =>
      (∃ a : Nat, r.value = .address a ∧ a ≤ 0xFFFF ∧ s.isIo a = false) ∨
      (s.cfg.trapUndef = true ∧ ((∃ q, r.value = .register q) ∨ ∃ f, r.value = .flag f))

/-- Before a load, while an error is recorded and while halted the CPU executes no instruction, and a `run` is refused
(10_state.md section 5; 70_reset_and_hazards.md R134, R139). That a step with an error recorded answers the error
is log 8. -/
def Obligations.StoppedMachineTakesNoStep : Prop :=
  ∀ (s : State) (n : Nat),
    (s.loaded = false → step s = .refused .notStarted ∧ run n s = .refused .notStarted) ∧
    (∀ r, s.loaded = true → s.fault = some r → step s = .fault (.runtimeError r) ∧ run n s = .refused .faulted) ∧
    (s.loaded = true → s.fault = none → s.halted = true →
      step s = .refused .halted ∧ run n s = .refused .halted)

/-! ### What no instruction does -/

/-- Only `hlt` sets the halted latch (10_state.md R30; 45_system.md R117, R118). -/
def Obligations.OnlyHltHalts : Prop :=
  (∀ (i : Instr) (s t : State), i ≠ .hlt → exec i s = .next t → t.halted = s.halted) ∧
  (∀ s t : State, step s = .next t → t.halted = true → ∃ u, fetch s = .done .hlt u)

/-- Only the arithmetic family changes a flag (10_state.md section 4). That this holds of an instruction that raises, too,
is the model's choice (log 9): the spec leaves the flags after an error open. -/
def Obligations.OnlyArithmeticChangesFlags : Prop :=
  ∀ (i : Instr) (s t : State), exec i s = .next t →
    i.mnemonic ∉ [Mnemonic.inc, .dec, .add, .sub, .mul, .shl, .shr, .inl, .del] → KeepsFlags s t

/-- Only `sec`, `ser`, `psh`, `ofs`, `clc` and `clr` change storage: every byte reads as before any other instruction
(20_memory.md, the access table of R47). That this holds of an instruction that raises, too, is the model's choice
(log 9): the spec leaves storage after an error open. -/
def Obligations.OnlyStoringInstructionsChangeStorage : Prop :=
  ∀ (i : Instr) (s t : State), exec i s = .next t →
    i.mnemonic ∉ [Mnemonic.sec, .ser, .psh, .ofs, .clc, .clr] → KeepsStorageBut s t []

/-- No step changes a parameter of the machine: the decode ROM and register indices (30_encoding.md R69), the window base
(20_memory.md R39) and the model's own `trapUndef` (log 2); and a step leaves a loaded machine (70_reset_and_hazards.md
R134). -/
def Obligations.StepKeepsParameters : Prop :=
  ∀ s t : State, step s = .next t → t.cfg = s.cfg ∧ t.loaded = true

/-- A step adds at the end of the record of I/O calls and takes none back, whether it completes or raises, and makes at
most five: three fetches and two accesses (20_memory.md R47, R50, R53; 60_exceptions.md R122). Each `ioGet` draws a value
of its own: the model's own counter (log 20) has moved by at least the number of them (20_memory.md R48; log 12). -/
def Obligations.IoCallsAreNeverUndone : Prop :=
  ∀ s t : State, step s = .next t →
    ∃ l, t.ioLog = s.ioLog ++ l ∧ l.length ≤ 5 ∧ s.draws + (l.filter IoEvent.isGet).length ≤ t.draws

/-- A fetch in the window asks the device: the first I/O call of the step is `ioGet` of IP's offset (20_memory.md R49;
95_test_vectors.md V-IO-5). -/
def Obligations.FetchInWindowAsksDevice : Prop :=
  ∀ s : State, s.running = true → s.canReadPc → s.isIo s.pc.toNat = true →
    ∃ (t : State) (b : Byte) (l : List IoEvent), step s = .next t ∧
      t.ioLog = s.ioLog ++ .get (s.pc.toNat - s.cfg.ioBase.toNat) b :: l

/-- The spec's UndefinedRead of a register or flag only ever stops the machine: a step that completes under the spec's
reading of `undef` completes in the same way where such a read gives the value the cell holds (10_state.md R19: "This
fault exists only in the model"). The two readings are the model's (log 2), and so is that both steps draw the same
device byte and the same free values, from equal counters: log 12 and log 3 call a comparison of two runs unsafe for
that. -/
def Obligations.StrictStepIsLenientStep : Prop :=
  ∀ s t : State, step s.strict = .next t → t.fault = none → step s.lenient = .next t.lenient

/-! ### Data move -/

/-- `num` completes in every state and `mov` where its source can be read: the destination holds the byte, nothing else
changes (40_data_move.md R85, R86). -/
def Obligations.MovesFillRegister : Prop :=
  (∀ (r : Reg) (i : Byte) (s : State), ∃ t, exec (.num r i) s = .next t ∧
    t.regs.get r = { val := i, isDef := true } ∧ ChangesOnlyRegs s t [r]) ∧
  (∀ (rd rs : Reg) (s : State), s.canRead rs → ∃ t, exec (.mov rd rs) s = .next t ∧
    t.regs.get rd = { val := s.regVal rs, isDef := true } ∧ ChangesOnlyRegs s t [rd])

/-! ### Control flow -/

/-- `jmp` and `jin` set IP to their target and change nothing else (41_control_flow.md R87, R88). -/
def Obligations.JumpsSetIp : Prop :=
  (∀ (lo hi : Byte) (s : State), ∃ t, exec (.jmp lo hi) s = .next t ∧
    t.pc.toNat = 256 * hi.toNat + lo.toNat ∧ ChangesOnlyRegs s t [.ipl, .iph]) ∧
  (∀ (rl rh : Reg) (s : State), s.canRead rl → s.canRead rh → ∃ t, exec (.jin rl rh) s = .next t ∧
    t.pc.toNat = 256 * (s.regVal rh).toNat + (s.regVal rl).toNat ∧ ChangesOnlyRegs s t [.ipl, .iph])

/-- `jiz` and `jnz` complete where Z can be read: taken, IP is the target and nothing else changes; not taken, nothing
changes (41_control_flow.md R89, R90). -/
def Obligations.ZeroJumpsFollowFlag : Prop :=
  ∀ (lo hi : Byte) (s : State), s.canReadFlag .zero →
    (∃ t, exec (.jiz lo hi) s = .next t ∧
      if s.zero.val = true then t.pc = cat hi lo ∧ ChangesOnlyRegs s t [.ipl, .iph] else t = s) ∧
    (∃ t, exec (.jnz lo hi) s = .next t ∧
      if s.zero.val = true then t = s else t.pc = cat hi lo ∧ ChangesOnlyRegs s t [.ipl, .iph])

/-- `jic` and `jnc` complete where C can be read: taken, IP is the target and nothing else changes; not taken, nothing
changes (41_control_flow.md R91, R92). -/
def Obligations.CarryJumpsFollowFlag : Prop :=
  ∀ (lo hi : Byte) (s : State), s.canReadFlag .carry →
    (∃ t, exec (.jic lo hi) s = .next t ∧
      if s.carry.val = true then t.pc = cat hi lo ∧ ChangesOnlyRegs s t [.ipl, .iph] else t = s) ∧
    (∃ t, exec (.jnc lo hi) s = .next t ∧
      if s.carry.val = true then t = s else t.pc = cat hi lo ∧ ChangesOnlyRegs s t [.ipl, .iph])

/-- What a call of `target` from `s` leaves in `t`: the return address at SP, low byte first, SP two higher, IP at the
target; the bytes go to storage or, in the window, to the device in order; nothing else changes. -/
def CallsTo (s t : State) (target : Word) : Prop :=
  t.pc = target ∧ t.sp.toNat = s.sp.toNat + 2 ∧
  (s.isIo s.sp.toNat = false → t.mem.read s.sp.toNat = some (loByte s.pc)) ∧
  (s.isIo (s.sp.toNat + 1) = false → t.mem.read (s.sp.toNat + 1) = some (hiByte s.pc)) ∧
  t.ioLog = s.ioLog ++ s.writeEvents s.sp.toNat (loByte s.pc) ++ s.writeEvents (s.sp.toNat + 1) (hiByte s.pc) ∧
  KeepsStorageBut s t [s.sp.toNat, s.sp.toNat + 1] ∧ KeepsRegsBut s t [.ipl, .iph, .spl, .sph] ∧
  KeepsFlags s t ∧ KeepsControl s t ∧ t.draws = s.draws

/-- `clc` with SP at most 0xFFFD calls its target; with SP greater it raises AddressOutOfRange(pc0, 0x10000)
(41_control_flow.md R93). -/
def Obligations.ClcCallsTarget : Prop :=
  ∀ (lo hi : Byte) (s : State), s.canReadPc → s.canReadSp →
    if s.sp.toNat ≤ 0xFFFD then ∃ t, exec (.clc lo hi) s = .next t ∧ CallsTo s t (cat hi lo)
    else ∃ t, exec (.clc lo hi) s = .next t ∧
      t.fault = some { kind := .addressOutOfRange, ip := s.pc0, value := .address 0x10000 }

/-- `clr` calls the address its registers held before the pushes, SPL and SPH among them (41_control_flow.md R94). -/
def Obligations.ClrCallsOldPair : Prop :=
  ∀ (rl rh : Reg) (s : State), s.canRead rl → s.canRead rh → s.canReadPc → s.canReadSp →
    if s.sp.toNat ≤ 0xFFFD then
      ∃ t, exec (.clr rl rh) s = .next t ∧ CallsTo s t (cat (s.regVal rh) (s.regVal rl))
    else ∃ t, exec (.clr rl rh) s = .next t ∧
      t.fault = some { kind := .addressOutOfRange, ip := s.pc0, value := .address 0x10000 }

/-- `ret` takes the high byte from SP - 1 and the low byte from SP - 2, wherever they come from, and moves SP down by
two; with SP below 2 it raises AddressOutOfRange(pc0, -1), and where either byte is unwritten UndefinedRead, a device's
answer for the first one standing (41_control_flow.md R95; 60_exceptions.md R122). -/
def Obligations.RetPopsAddress : Prop :=
  ∀ s : State, s.canReadSp →
    (∀ hi lo : Byte, 2 ≤ s.sp.toNat → s.readGives (s.sp.toNat - 1) hi →
      (s.afterRead (s.sp.toNat - 1)).readGives (s.sp.toNat - 2) lo →
      ∃ t, exec .ret s = .next t ∧ t.pc = cat hi lo ∧ t.sp.toNat = s.sp.toNat - 2 ∧
        t.ioLog = s.ioLog ++ s.readEvents (s.sp.toNat - 1) ++
          (s.afterRead (s.sp.toNat - 1)).readEvents (s.sp.toNat - 2) ∧
        KeepsRegsBut s t [.ipl, .iph, .spl, .sph] ∧ KeepsFlags s t ∧ KeepsStorageBut s t [] ∧ KeepsControl s t) ∧
    (s.sp.toNat = 0 → Raises (exec .ret s) s .addressOutOfRange (.address (-1))) ∧
    (∀ b, s.sp.toNat = 1 → s.holdsByte 0 b → Raises (exec .ret s) s .addressOutOfRange (.address (-1))) ∧
    (0 < s.sp.toNat → s.unwritten (s.sp.toNat - 1) →
      Raises (exec .ret s) s .undefinedRead (.address (s.sp.toNat - 1 : Nat))) ∧
    (∀ hi : Byte, 2 ≤ s.sp.toNat → s.readGives (s.sp.toNat - 1) hi → s.unwritten (s.sp.toNat - 2) →
      ∃ t, exec .ret s = .next t ∧
        t.fault = some { kind := .undefinedRead, ip := s.pc0, value := .address (s.sp.toNat - 2 : Nat) } ∧
        t.ioLog = s.ioLog ++ s.readEvents (s.sp.toNat - 1))

/-- A call, direct or indirect, and the return that follows it, with the two bytes of the return address in storage, come
back to the address after the call with SP as it was, whatever IP the return is fetched from (41_control_flow.md R93,
R94, R95). -/
def Obligations.CallThenReturnComesBack : Prop :=
  ∀ (i : Instr) (s t : State) (p q : Word),
    (∃ lo hi, i = .clc lo hi) ∨ (∃ rl rh, i = .clr rl rh ∧ s.canRead rl ∧ s.canRead rh) →
    s.canReadPc → s.canReadSp → s.sp.toNat ≤ 0xFFFD →
    s.isIo s.sp.toNat = false → s.isIo (s.sp.toNat + 1) = false → exec i s = .next t →
      ∃ u, exec .ret { t.setPc p with pc0 := q } = .next u ∧ u.pc = s.pc ∧ u.sp = s.sp ∧
        u.fault = s.fault ∧ KeepsRegsBut s u [.ipl, .iph, .spl, .sph] ∧ KeepsFlags s u ∧ u.ioLog = s.ioLog

/-! ### Stack -/

/-- `alc` and `eat` move SP by their operand, and raise AddressOutOfRange with the sum or difference where it leaves
0..0xFFFF (42_stack.md R97, R98; 10_state.md R24, the spec's decision D7). -/
def Obligations.AlcEatMoveSp : Prop :=
  ∀ (n : Byte) (s : State), s.canReadSp →
    (if s.sp.toNat + n.toNat ≤ 0xFFFF then
      ∃ t, exec (.alc n) s = .next t ∧ t.sp.toNat = s.sp.toNat + n.toNat ∧ ChangesOnlyRegs s t [.spl, .sph]
    else Raises (exec (.alc n) s) s .addressOutOfRange (.address ((s.sp.toNat : Int) + n.toNat))) ∧
    (if n.toNat ≤ s.sp.toNat then
      ∃ t, exec (.eat n) s = .next t ∧ t.sp.toNat = s.sp.toNat - n.toNat ∧ ChangesOnlyRegs s t [.spl, .sph]
    else Raises (exec (.eat n) s) s .addressOutOfRange (.address ((s.sp.toNat : Int) - n.toNat)))

/-- `ofg` reads the slot SP - offset - 1 into its register, SP among them, from storage or the window; below address 0 it
raises AddressOutOfRange, at an unwritten byte UndefinedRead (42_stack.md R99). -/
def Obligations.OfgReadsSlot : Prop :=
  ∀ (r : Reg) (off : Byte) (s : State), s.canReadSp →
    (∀ b, off.toNat < s.sp.toNat → s.readGives (s.sp.toNat - off.toNat - 1) b →
      ∃ t, exec (.ofg r off) s = .next t ∧ t.regs.get r = { val := b, isDef := true } ∧
        t.ioLog = s.ioLog ++ s.readEvents (s.sp.toNat - off.toNat - 1) ∧
        KeepsRegsBut s t [r] ∧ KeepsFlags s t ∧ KeepsStorageBut s t [] ∧ KeepsControl s t) ∧
    (s.sp.toNat ≤ off.toNat →
      Raises (exec (.ofg r off) s) s .addressOutOfRange (.address ((s.sp.toNat : Int) - off.toNat - 1))) ∧
    (off.toNat < s.sp.toNat → s.unwritten (s.sp.toNat - off.toNat - 1) →
      Raises (exec (.ofg r off) s) s .undefinedRead (.address (s.sp.toNat - off.toNat - 1 : Nat)))

/-- `ofs` writes its register's byte to the slot SP - offset - 1, in storage or the window, and changes no register;
below address 0 it raises AddressOutOfRange (42_stack.md R100). -/
def Obligations.OfsWritesSlot : Prop :=
  ∀ (r : Reg) (off : Byte) (s : State), s.canReadSp → s.canRead r →
    if off.toNat < s.sp.toNat then
      ∃ t, exec (.ofs r off) s = .next t ∧
        (s.isIo (s.sp.toNat - off.toNat - 1) = false →
          t.mem.read (s.sp.toNat - off.toNat - 1) = some (s.regVal r)) ∧
        t.ioLog = s.ioLog ++ s.writeEvents (s.sp.toNat - off.toNat - 1) (s.regVal r) ∧
        KeepsStorageBut s t [s.sp.toNat - off.toNat - 1] ∧ KeepsRegsBut s t [] ∧ KeepsFlags s t ∧
        KeepsControl s t ∧ t.draws = s.draws
    else Raises (exec (.ofs r off) s) s .addressOutOfRange (.address ((s.sp.toNat : Int) - off.toNat - 1))

/-- `pop` moves SP down by one, then puts the byte there into its register: a half of SP is replaced after the move; at
SP = 0 it raises AddressOutOfRange(pc0, -1), at an unwritten byte UndefinedRead (42_stack.md R101; the order is the
spec's decision D6). -/
def Obligations.PopReadsTop : Prop :=
  ∀ (r : Reg) (s : State), s.canReadSp →
    (∀ b, 0 < s.sp.toNat → s.readGives (s.sp.toNat - 1) b →
      ∃ t, exec (.pop r) s = .next t ∧ t.regs.get r = { val := b, isDef := true } ∧
        (∀ q, q ≠ r → t.regs.get q = (s.setSp (s.sp - 1)).regs.get q) ∧
        t.ioLog = s.ioLog ++ s.readEvents (s.sp.toNat - 1) ∧
        KeepsFlags s t ∧ KeepsStorageBut s t [] ∧ KeepsControl s t) ∧
    (s.sp.toNat = 0 → Raises (exec (.pop r) s) s .addressOutOfRange (.address (-1))) ∧
    (0 < s.sp.toNat → s.unwritten (s.sp.toNat - 1) →
      Raises (exec (.pop r) s) s .undefinedRead (.address (s.sp.toNat - 1 : Nat)))

/-- `psh` writes its register's byte, as it was, at SP and moves SP up by one; at SP = 0xFFFF it raises
AddressOutOfRange(pc0, 0x10000) (42_stack.md R102). -/
def Obligations.PshWritesTop : Prop :=
  ∀ (r : Reg) (s : State), s.canRead r → s.canReadSp →
    if s.sp.toNat < 0xFFFF then
      ∃ t, exec (.psh r) s = .next t ∧ t.sp.toNat = s.sp.toNat + 1 ∧
        (s.isIo s.sp.toNat = false → t.mem.read s.sp.toNat = some (s.regVal r)) ∧
        t.ioLog = s.ioLog ++ s.writeEvents s.sp.toNat (s.regVal r) ∧
        KeepsStorageBut s t [s.sp.toNat] ∧ KeepsRegsBut s t [.spl, .sph] ∧ KeepsFlags s t ∧
        KeepsControl s t ∧ t.draws = s.draws
    else ∃ t, exec (.psh r) s = .next t ∧
      t.fault = some { kind := .addressOutOfRange, ip := s.pc0, value := .address 0x10000 }

/-! ### Memory access -/

/-- `gec` and `ger` put the byte at their address into M, from storage or the window; the address of `ger` is read before
M is written; at an unwritten byte they raise UndefinedRead (43_memory_access.md R103, R105). -/
def Obligations.LoadsFillM : Prop :=
  (∀ (lo hi : Byte) (s : State),
    (∀ b, s.readGives (256 * hi.toNat + lo.toNat) b →
      ∃ t, exec (.gec lo hi) s = .next t ∧ t.regs.get .m = { val := b, isDef := true } ∧
        t.ioLog = s.ioLog ++ s.readEvents (256 * hi.toNat + lo.toNat) ∧
        KeepsRegsBut s t [.m] ∧ KeepsFlags s t ∧ KeepsStorageBut s t [] ∧ KeepsControl s t) ∧
    (s.unwritten (256 * hi.toNat + lo.toNat) →
      Raises (exec (.gec lo hi) s) s .undefinedRead (.address (256 * hi.toNat + lo.toNat : Nat)))) ∧
  (∀ (rl rh : Reg) (s : State), s.canRead rl → s.canRead rh →
    (∀ b, s.readGives (256 * (s.regVal rh).toNat + (s.regVal rl).toNat) b →
      ∃ t, exec (.ger rl rh) s = .next t ∧ t.regs.get .m = { val := b, isDef := true } ∧
        t.ioLog = s.ioLog ++ s.readEvents (256 * (s.regVal rh).toNat + (s.regVal rl).toNat) ∧
        KeepsRegsBut s t [.m] ∧ KeepsFlags s t ∧ KeepsStorageBut s t [] ∧ KeepsControl s t) ∧
    (s.unwritten (256 * (s.regVal rh).toNat + (s.regVal rl).toNat) →
      Raises (exec (.ger rl rh) s) s .undefinedRead
        (.address (256 * (s.regVal rh).toNat + (s.regVal rl).toNat : Nat))))

/-- What storing M at the address `a` from `s` leaves in `t`: the byte in storage or, in the window, one event; every
other byte, every register and every flag as before. -/
def StoresM (s t : State) (a : Nat) : Prop :=
  (s.isIo a = false → t.mem.read a = some (s.regVal .m)) ∧
  t.ioLog = s.ioLog ++ s.writeEvents a (s.regVal .m) ∧
  KeepsStorageBut s t [a] ∧ KeepsRegsBut s t [] ∧ KeepsFlags s t ∧ KeepsControl s t ∧ t.draws = s.draws

/-- `sec` and `ser` store M at their address, in storage or the window (43_memory_access.md R104, R106). -/
def Obligations.StoresWriteM : Prop :=
  (∀ (lo hi : Byte) (s : State), s.canRead .m →
    ∃ t, exec (.sec lo hi) s = .next t ∧ StoresM s t (256 * hi.toNat + lo.toNat)) ∧
  (∀ (rl rh : Reg) (s : State), s.canRead rl → s.canRead rh → s.canRead .m →
    ∃ t, exec (.ser rl rh) s = .next t ∧ StoresM s t (256 * (s.regVal rh).toNat + (s.regVal rl).toNat))

/-! ### Arithmetic -/

/-- What an arithmetic instruction leaves: the destination holds the byte `v`, both flags are defined and as given,
nothing else changes. -/
def LeavesResult (s t : State) (rd : Reg) (v : Byte) (z c : Bool) : Prop :=
  t.regs.get rd = { val := v, isDef := true } ∧ t.zero = { val := z, isDef := true } ∧
  t.carry = { val := c, isDef := true } ∧
  KeepsRegsBut s t [rd] ∧ KeepsStorageBut s t [] ∧ KeepsControl s t ∧ KeepsIo s t

/-- `inc` adds one modulo 256; both flags are true exactly when the old value was 255 (44_arithmetic.md R108). -/
def Obligations.IncAddsOne : Prop :=
  ∀ (r : Reg) (s : State), s.canRead r → ∃ t, exec (.inc r) s = .next t ∧
    LeavesResult s t r (s.regVal r + 1) (s.regVal r == 255#8) (s.regVal r == 255#8)

/-- `dec` takes one away modulo 256; Z is true exactly when the old value was 1 and C exactly when it was 0
(44_arithmetic.md R109; 90_conflicts.md C2). -/
def Obligations.DecTakesOne : Prop :=
  ∀ (r : Reg) (s : State), s.canRead r → ∃ t, exec (.dec r) s = .next t ∧
    LeavesResult s t r (s.regVal r - 1) (s.regVal r == 1#8) (s.regVal r == 0#8)

/-- `add`: the sum modulo 256, C when the true sum passes 255, Z when the stored byte is 0 (44_arithmetic.md R107,
R110). -/
def Obligations.AddStoresSum : Prop :=
  ∀ (rd rs : Reg) (s : State), s.canRead rd → s.canRead rs → ∃ t, exec (.add rd rs) s = .next t ∧
    LeavesResult s t rd (s.regVal rd + s.regVal rs)
      (decide (((s.regVal rd).toNat + (s.regVal rs).toNat) % 256 = 0))
      (decide ((s.regVal rd).toNat + (s.regVal rs).toNat > 255))

/-- `sub`: the difference modulo 256, C exactly when the destination is below the source, Z exactly when they are equal
(44_arithmetic.md R107, R111). -/
def Obligations.SubStoresDifference : Prop :=
  ∀ (rd rs : Reg) (s : State), s.canRead rd → s.canRead rs → ∃ t, exec (.sub rd rs) s = .next t ∧
    LeavesResult s t rd (s.regVal rd - s.regVal rs) (s.regVal rd == s.regVal rs)
      (decide ((s.regVal rd).toNat < (s.regVal rs).toNat))

/-- `mul`: the low byte of the product, C when its high byte is not 0, Z when the low byte is 0 (44_arithmetic.md R107,
R112). -/
def Obligations.MulStoresLowProduct : Prop :=
  ∀ (rd rs : Reg) (s : State), s.canRead rd → s.canRead rs → ∃ t, exec (.mul rd rs) s = .next t ∧
    LeavesResult s t rd (s.regVal rd * s.regVal rs) (s.regVal rd * s.regVal rs == 0#8)
      (decide ((s.regVal rd).toNat * (s.regVal rs).toNat / 256 ≠ 0))

/-- What a shift or a counter instruction leaves beside its registers `w`: both flags `undef`, nothing else changed. The
values of the flags are free (log 3): nothing is said of them. -/
def LeavesFlagsUndef (s t : State) (w : List Reg) : Prop :=
  t.zero.isDef = false ∧ t.carry.isDef = false ∧ KeepsRegsBut s t w ∧ KeepsStorageBut s t [] ∧ KeepsControl s t ∧
  t.ioLog = s.ioLog

/-- `shl` and `shr` complete where both registers can be read: for a count of 0..7 the byte shifted with zeros, for a
greater count the destination is left `undef`; the flags are left `undef` (44_arithmetic.md R113, R114; the spec's
decisions D9, D11). -/
def Obligations.ShiftsMoveBits : Prop :=
  ∀ (rd rs : Reg) (s : State), s.canRead rd → s.canRead rs →
    (∃ t, exec (.shl rd rs) s = .next t ∧ LeavesFlagsUndef s t [rd] ∧
      if (s.regVal rs).toNat ≤ 7 then t.regs.get rd = { val := s.regVal rd <<< (s.regVal rs).toNat, isDef := true }
      else (t.regs.get rd).isDef = false) ∧
    (∃ t, exec (.shr rd rs) s = .next t ∧ LeavesFlagsUndef s t [rd] ∧
      if (s.regVal rs).toNat ≤ 7 then t.regs.get rd = { val := s.regVal rd >>> (s.regVal rs).toNat, isDef := true }
      else (t.regs.get rd).isDef = false)

/-- `inl` adds one to the pair as a 16-bit counter, modulo 65536 and with no range error, SP and IP among them; one
register as both halves is left `undef`; the flags are left `undef` (44_arithmetic.md R115; the spec's decisions D9,
D35). -/
def Obligations.InlCountsUp : Prop :=
  ∀ (rl rh : Reg) (s : State), s.canRead rl → s.canRead rh →
    ∃ t, exec (.inl rl rh) s = .next t ∧ LeavesFlagsUndef s t [rl, rh] ∧
      if rl = rh then (t.regs.get rl).isDef = false
      else (t.regs.get rl).isDef = true ∧ (t.regs.get rh).isDef = true ∧
        256 * (t.regVal rh).toNat + (t.regVal rl).toNat =
          (256 * (s.regVal rh).toNat + (s.regVal rl).toNat + 1) % 65536

/-- `del` takes one from the pair as a 16-bit counter, modulo 65536 and with no range error; one register as both halves
is left `undef`; the flags are left `undef` (44_arithmetic.md R116; the spec's decisions D9, D35). -/
def Obligations.DelCountsDown : Prop :=
  ∀ (rl rh : Reg) (s : State), s.canRead rl → s.canRead rh →
    ∃ t, exec (.del rl rh) s = .next t ∧ LeavesFlagsUndef s t [rl, rh] ∧
      if rl = rh then (t.regs.get rl).isDef = false
      else (t.regs.get rl).isDef = true ∧ (t.regs.get rh).isDef = true ∧
        256 * (t.regVal rh).toNat + (t.regVal rl).toNat =
          (256 * (s.regVal rh).toNat + (s.regVal rl).toNat + 65535) % 65536

/-! ### System -/

/-- `hlt` sets the halted latch and changes nothing else; the step that runs it leaves IP after it, and the next step is
refused (45_system.md R117). -/
def Obligations.HltHalts : Prop :=
  ∀ s : State, (∃ t, exec .hlt s = .next t ∧ t.halted = true ∧ t = { s with halted := true }) ∧
    (s.running = true → s.canReadPc → s.codesOk → s.holdsByte s.pc.toNat (opcodeOf s.cfg.codes .hlt) →
      s.pc.toNat < 0xFFFF →
      ∃ t, step s = .next t ∧ t.halted = true ∧ t.fault = none ∧ t.pc = s.pc + 1 ∧ step t = .refused .halted)

/-! ### UndefinedRead -/

/-- Where a register cell cannot be read (the spec's reading of `undef`, log 2), every instruction that reads it raises
UndefinedRead(pc0, register): as its first operand, and as its second where the first can be read; so do `ofs`, and
`sec` and `ser` for M, which they do not name (10_state.md R19; 60_exceptions.md R124; the order is the spec's decision
D18). -/
def Obligations.UndefinedRegisterReadRaises : Prop :=
  ∀ (r q : Reg) (s : State), ¬ s.canRead r →
    (∀ i ∈ [Instr.mov q r, .psh r, .inc r, .dec r, .add r q, .sub r q, .mul r q, .shl r q, .shr r q, .jin r q, .clr r q,
        .ger r q, .ser r q, .inl r q, .del r q], Raises (exec i s) s .undefinedRead (.register r)) ∧
    (s.canRead q →
      ∀ i ∈ [Instr.add q r, .sub q r, .mul q r, .shl q r, .shr q r, .jin q r, .clr q r, .ger q r, .ser q r, .inl q r,
        .del q r], Raises (exec i s) s .undefinedRead (.register r)) ∧
    (s.canReadSp → ∀ off, Raises (exec (.ofs r off) s) s .undefinedRead (.register r)) ∧
    (r = .m →
      (∀ lo hi, Raises (exec (.sec lo hi) s) s .undefinedRead (.register .m)) ∧
      (∀ rl rh, s.canRead rl → s.canRead rh → Raises (exec (.ser rl rh) s) s .undefinedRead (.register .m)))

/-- A conditional jump raises UndefinedRead(pc0, flag) where its flag cannot be read (10_state.md R27; log 2). -/
def Obligations.UndefinedFlagReadRaises : Prop :=
  ∀ (lo hi : Byte) (s : State),
    (¬ s.canReadFlag .zero →
      Raises (exec (.jiz lo hi) s) s .undefinedRead (.flag .zero) ∧
      Raises (exec (.jnz lo hi) s) s .undefinedRead (.flag .zero)) ∧
    (¬ s.canReadFlag .carry →
      Raises (exec (.jic lo hi) s) s .undefinedRead (.flag .carry) ∧
      Raises (exec (.jnc lo hi) s) s .undefinedRead (.flag .carry))

/-- Every stack instruction raises UndefinedRead where SP cannot be read, naming SPL when that half cannot be read and
SPH when only that half cannot (10_state.md R19; 42_stack.md; log 2; the order is the spec's decision D18). -/
def Obligations.UndefinedSpReadRaises : Prop :=
  ∀ (r : Reg) (n lo hi : Byte) (rl rh : Reg) (s : State) (q : Reg),
    (q = .spl ∧ ¬ s.canRead .spl) ∨ (q = .sph ∧ s.canRead .spl ∧ ¬ s.canRead .sph) →
      (∀ i ∈ [Instr.alc n, .eat n, .ofg r n, .ofs r n, .pop r, .ret],
        Raises (exec i s) s .undefinedRead (.register q)) ∧
      (s.canRead r → Raises (exec (.psh r) s) s .undefinedRead (.register q)) ∧
      (s.canReadPc → Raises (exec (.clc lo hi) s) s .undefinedRead (.register q)) ∧
      (s.canReadPc → s.canRead rl → s.canRead rh → Raises (exec (.clr rl rh) s) s .undefinedRead (.register q))

/-! ### The host port -/

/-- A cell that a start leaves `undef`. -/
def LeftUndef (s : State) : Prop :=
  (∀ r, r ∉ [Reg.ipl, .iph] → (s.regs.get r).isDef = false) ∧ s.zero.isDef = false ∧ s.carry.isDef = false

/-- A load inside the require lines puts its bytes at the start address and the start address, low byte first, at 0x0000;
IP is the start address, every other cell is `undef`, every other storage byte is as before, and the CPU runs
(70_reset_and_hazards.md R133, R135; the require lines and what a start leaves are the spec's decisions D4, D21). -/
def Obligations.LoadProgramPlacesProgram : Prop :=
  ∀ (a : Word) (bs : List Nat) (s : State), 2 ≤ a.toNat → a.toNat + bs.length ≤ 0x10000 →
    (bs = [] ∨ a.toNat + bs.length ≤ s.cfg.ioBase.toNat ∨ s.cfg.ioBase.toNat + 4096 ≤ a.toNat) →
      ∃ t, loadProgram a bs s = .next t ∧
        (∀ k (h : k < bs.length), t.mem.read (a.toNat + k) = some (BitVec.ofNat 8 bs[k])) ∧
        t.mem.read 0 = some (loByte a) ∧ t.mem.read 1 = some (hiByte a) ∧
        (∀ x, 2 ≤ x → (x < a.toNat ∨ a.toNat + bs.length ≤ x) → t.mem.read x = s.mem.read x) ∧
        t.pc = a ∧ t.canReadPc ∧ t.running = true ∧ LeftUndef t ∧ t.cfg = s.cfg ∧ t.ioLog = s.ioLog

/-- A load outside the require lines is refused: below address 2, past 0xFFFF, or meeting the I/O window
(70_reset_and_hazards.md R135; the spec's decision D21). -/
def Obligations.LoadProgramRefusals : Prop :=
  ∀ (a : Word) (bs : List Nat) (s : State),
    (a.toNat < 2 → loadProgram a bs s = .refused .loadBelowEntry) ∧
    (2 ≤ a.toNat → a.toNat + bs.length > 0x10000 → loadProgram a bs s = .refused .loadPastTop) ∧
    (2 ≤ a.toNat → a.toNat + bs.length ≤ 0x10000 → bs ≠ [] →
      a.toNat < s.cfg.ioBase.toNat + 4096 → s.cfg.ioBase.toNat < a.toNat + bs.length →
        loadProgram a bs s = .refused .loadMeetsWindow)

/-- A restart seeds IP from the stored entry point, leaves every other cell `undef`, clears the halted latch and the
error record, and keeps storage (70_reset_and_hazards.md R133, R138; the spec's decisions D4, D21). -/
def Obligations.RestartSeedsIp : Prop :=
  ∀ (s : State) (lo hi : Byte), s.mem.read 0 = some lo → s.mem.read 1 = some hi →
    (restart s).pc.toNat = 256 * hi.toNat + lo.toNat ∧ (restart s).canReadPc ∧ LeftUndef (restart s) ∧
    (restart s).halted = false ∧ (restart s).fault = none ∧ (restart s).mem = s.mem ∧
    (restart s).loaded = s.loaded ∧ (restart s).cfg = s.cfg ∧ (restart s).ioLog = s.ioLog

/-- A run with budget m + n is a run with budget m and, if that paused, a run with budget n from where it paused
(70_reset_and_hazards.md R136, R137). -/
def Obligations.RunBudgetSplits : Prop :=
  ∀ (m n : Nat) (s : State),
    (∀ t, run m s = .returned false t → run (m + n) s = run n t) ∧
    ((run m s).ended = true → run (m + n) s = run m s)

/-- A run ends at once with the error or the halt of the step it makes, and otherwise goes on from that step's state with
one less of its budget; a budget of 0 executes nothing (70_reset_and_hazards.md R136; 60_exceptions.md R122). -/
def Obligations.RunFollowsStep : Prop :=
  ∀ (s t : State) (n : Nat), s.running = true →
    run 0 s = .returned false s ∧
    (step s = .next t →
      (∀ r, t.fault = some r → run (n + 1) s = .error r t) ∧
      (t.fault = none → t.halted = true → run (n + 1) s = .returned true t) ∧
      (t.fault = none → t.halted = false → run (n + 1) s = run n t))
end

