-- ==== Sys2Proof/Laws/Decode.lean ====
section
/-! SUPPORT. The decode ROM and the register table: every entry is found again where no two share a byte, and what the
encoder writes is well-formed. -/

namespace Sys2Proof

/-- In a list whose elements have distinct keys, the element with a given element's key is that element. -/
theorem find_key {α : Type} (f : α → Byte) (l : List α) (h : (l.map f).Nodup) (x : α) (hx : x ∈ l) :
    l.find? (fun y => f y == f x) = some x := by
  induction l with
  | nil => cases hx
  | cons y l ih =>
    simp only [List.map_cons, List.nodup_cons] at h
    rcases List.mem_cons.1 hx with rfl | hx
    · simp
    · have hne : f y ≠ f x := fun e => h.1 (e ▸ List.mem_map_of_mem hx)
      simp [hne, ih h.2 hx]

/-- The decided numbers make a table. -/
theorem decided_distinct : Codes.decided.distinct = true := by decide

/-- Every mnemonic is in the list of them. -/
theorem mem_allMnemonics (m : Mnemonic) : m ∈ allMnemonics := by cases m <;> decide

/-- Every register is in the list of them. -/
theorem mem_allRegs (r : Reg) : r ∈ allRegs := by cases r <;> decide

/-- The decode ROM gives each mnemonic back from its opcode byte. -/
theorem romLookup_opcodeOf {c : Codes} (h : c.distinct = true) (m : Mnemonic) : romLookup c (opcodeOf c m) = some m := by
  simp only [Codes.distinct, Bool.and_eq_true, decide_eq_true_eq] at h
  exact find_key (opcodeOf c) allMnemonics h.1 m (mem_allMnemonics m)

/-- The register table gives each register back from its index. -/
theorem regOfByte_regIndex {c : Codes} (h : c.distinct = true) (r : Reg) : regOfByte c (regIndex c r) = some r := by
  simp only [Codes.distinct, Bool.and_eq_true, decide_eq_true_eq] at h
  exact find_key (regIndex c) allRegs h.2 r (mem_allRegs r)

/-- A mnemonic found in the decode ROM stands for the byte it was found by. -/
theorem opcodeOf_of_romLookup {c : Codes} {op : Byte} {m : Mnemonic} (h : romLookup c op = some m) :
    opcodeOf c m = op := by
  have := List.find?_some h
  simpa using this

/-- A register found in the table stands for the byte it was found by. -/
theorem regIndex_of_regOfByte {c : Codes} {b : Byte} {r : Reg} (h : regOfByte c b = some r) : regIndex c r = b := by
  have := List.find?_some h
  simpa using this

/-- The decode ROM has no entry for exactly the bytes that are no opcode byte. -/
theorem romLookup_eq_none {c : Codes} {op : Byte} : romLookup c op = none ↔ op ∉ c.opcodeBytes := by
  simp [romLookup, Codes.opcodeBytes]

/-- The register table has no entry for exactly the bytes that are no register index. -/
theorem regOfByte_eq_none {c : Codes} {b : Byte} : regOfByte c b = none ↔ b ∉ c.registerBytes := by
  simp [regOfByte, Codes.registerBytes]

/-- An instruction has one operand byte per operand kind. -/
@[simp] theorem Instr.operandBytes_length (c : Codes) (i : Instr) :
    (i.operandBytes c).length = i.mnemonic.kinds.length := by
  cases i <;> rfl

/-- The encoder writes as many bytes as the instruction is long. -/
@[simp] theorem encode_length (c : Codes) (i : Instr) : (encode c i).length = i.length := by
  simp [encode, Instr.length, Nat.add_comm]

/-- The bytes WellFormed accepts for a register are those the decoder finds. -/
theorem registers_bytes (c : Codes) : c.registers.bytes = c.registerBytes := rfl

/-- A register's index is a legal REGISTER byte. -/
@[simp] theorem operandOk_regIndex (c : Codes) (r : Reg) : operandOk c .register (regIndex c r) = true := by
  simp only [operandOk, registers_bytes, Codes.registerBytes, List.contains_eq_mem, decide_eq_true_eq]
  exact List.mem_map_of_mem (mem_allRegs r)

/-- Every byte is a legal IMMEDIATE byte. -/
@[simp] theorem operandOk_immediate (c : Codes) (b : Byte) : operandOk c .immediate b = true := rfl

end Sys2Proof
end

