-- ==== Sys2Proof/Laws/State.lean ====
section
/-! SUPPORT. What each update of the state leaves in each field: one lemma per field per update, so that no proof unfolds
an update. -/

namespace Sys2Proof.Machine

/-! ### The register file -/

@[simp] theorem Regs.get_set_self (g : Regs) (r : Reg) (h : Held Byte) : (g.set r h).get r = h := by
  cases r <;> rfl

theorem Regs.get_set_ne (g : Regs) (r q : Reg) (h : Held Byte) (hne : q ≠ r) : (g.set r h).get q = g.get q := by
  cases r <;> cases q <;> first | rfl | exact absurd rfl hne

theorem Regs.get_set (g : Regs) (r q : Reg) (h : Held Byte) :
    (g.set r h).get q = if q = r then h else g.get q := by
  split
  · next e => subst e; simp
  · next e => exact Regs.get_set_ne g r q h e

/-- Two register files with the same cells are the same. -/
theorem Regs.ext_get {g g' : Regs} (h : ∀ r, g.get r = g'.get r) : g = g' := by
  have ha := h .a; have hb := h .b; have hc := h .c; have hd := h .d; have hm := h .m
  have h5 := h .ipl; have h6 := h .iph; have h7 := h .spl; have h8 := h .sph
  cases g; cases g'
  simp only [Regs.get] at *
  simp_all

/-! ### Bytes and words -/

theorem toNat_cat (hi lo : Byte) : (cat hi lo).toNat = hi.toNat * 256 + lo.toNat := by
  have h2 := lo.isLt
  simp only [cat, BitVec.toNat_append]
  rw [← Nat.shiftLeft_add_eq_or_of_lt h2, Nat.shiftLeft_eq]

theorem toNat_loByte (w : Word) : (loByte w).toNat = w.toNat % 256 := by
  simp [loByte]

theorem toNat_hiByte (w : Word) : (hiByte w).toNat = w.toNat / 256 := by
  have := w.isLt
  simp only [hiByte, BitVec.extractLsb'_toNat, Nat.shiftRight_eq_div_pow]
  omega

@[simp] theorem loByte_cat (hi lo : Byte) : loByte (cat hi lo) = lo := by
  apply BitVec.eq_of_toNat_eq
  have := lo.isLt
  rw [toNat_loByte, toNat_cat]
  omega

@[simp] theorem hiByte_cat (hi lo : Byte) : hiByte (cat hi lo) = hi := by
  apply BitVec.eq_of_toNat_eq
  have := lo.isLt
  rw [toNat_hiByte, toNat_cat]
  omega

@[simp] theorem cat_hi_lo (w : Word) : cat (hiByte w) (loByte w) = w := by
  apply BitVec.eq_of_toNat_eq
  have := w.isLt
  rw [toNat_cat, toNat_loByte, toNat_hiByte]
  omega

/-! ### setCell -/

@[simp] theorem State.setCell_cfg (s : State) (r : Reg) (h : Held Byte) :
    (s.setCell r h).cfg = s.cfg := rfl

@[simp] theorem State.setCell_regs (s : State) (r : Reg) (h : Held Byte) :
    (s.setCell r h).regs = s.regs.set r h := rfl

@[simp] theorem State.setCell_zero (s : State) (r : Reg) (h : Held Byte) :
    (s.setCell r h).zero = s.zero := rfl

@[simp] theorem State.setCell_carry (s : State) (r : Reg) (h : Held Byte) :
    (s.setCell r h).carry = s.carry := rfl

@[simp] theorem State.setCell_mem (s : State) (r : Reg) (h : Held Byte) :
    (s.setCell r h).mem = s.mem := rfl

@[simp] theorem State.setCell_loaded (s : State) (r : Reg) (h : Held Byte) :
    (s.setCell r h).loaded = s.loaded := rfl

@[simp] theorem State.setCell_halted (s : State) (r : Reg) (h : Held Byte) :
    (s.setCell r h).halted = s.halted := rfl

@[simp] theorem State.setCell_fault (s : State) (r : Reg) (h : Held Byte) :
    (s.setCell r h).fault = s.fault := rfl

@[simp] theorem State.setCell_pc0 (s : State) (r : Reg) (h : Held Byte) :
    (s.setCell r h).pc0 = s.pc0 := rfl

@[simp] theorem State.setCell_ioLog (s : State) (r : Reg) (h : Held Byte) :
    (s.setCell r h).ioLog = s.ioLog := rfl

@[simp] theorem State.setCell_draws (s : State) (r : Reg) (h : Held Byte) :
    (s.setCell r h).draws = s.draws := rfl

/-! ### setReg -/

@[simp] theorem State.setReg_cfg (s : State) (r : Reg) (v : Byte) :
    (s.setReg r v).cfg = s.cfg := rfl

@[simp] theorem State.setReg_regs (s : State) (r : Reg) (v : Byte) :
    (s.setReg r v).regs = s.regs.set r { val := v, isDef := true } := rfl

@[simp] theorem State.setReg_zero (s : State) (r : Reg) (v : Byte) :
    (s.setReg r v).zero = s.zero := rfl

@[simp] theorem State.setReg_carry (s : State) (r : Reg) (v : Byte) :
    (s.setReg r v).carry = s.carry := rfl

@[simp] theorem State.setReg_mem (s : State) (r : Reg) (v : Byte) :
    (s.setReg r v).mem = s.mem := rfl

@[simp] theorem State.setReg_loaded (s : State) (r : Reg) (v : Byte) :
    (s.setReg r v).loaded = s.loaded := rfl

@[simp] theorem State.setReg_halted (s : State) (r : Reg) (v : Byte) :
    (s.setReg r v).halted = s.halted := rfl

@[simp] theorem State.setReg_fault (s : State) (r : Reg) (v : Byte) :
    (s.setReg r v).fault = s.fault := rfl

@[simp] theorem State.setReg_pc0 (s : State) (r : Reg) (v : Byte) :
    (s.setReg r v).pc0 = s.pc0 := rfl

@[simp] theorem State.setReg_ioLog (s : State) (r : Reg) (v : Byte) :
    (s.setReg r v).ioLog = s.ioLog := rfl

@[simp] theorem State.setReg_draws (s : State) (r : Reg) (v : Byte) :
    (s.setReg r v).draws = s.draws := rfl

/-! ### undefReg -/

@[simp] theorem State.undefReg_cfg (s : State) (r : Reg) :
    (s.undefReg r).cfg = s.cfg := rfl

@[simp] theorem State.undefReg_regs (s : State) (r : Reg) :
    (s.undefReg r).regs = s.regs.set r { val := Config.freeByte s.draws, isDef := false } := rfl

@[simp] theorem State.undefReg_zero (s : State) (r : Reg) :
    (s.undefReg r).zero = s.zero := rfl

@[simp] theorem State.undefReg_carry (s : State) (r : Reg) :
    (s.undefReg r).carry = s.carry := rfl

@[simp] theorem State.undefReg_mem (s : State) (r : Reg) :
    (s.undefReg r).mem = s.mem := rfl

@[simp] theorem State.undefReg_loaded (s : State) (r : Reg) :
    (s.undefReg r).loaded = s.loaded := rfl

@[simp] theorem State.undefReg_halted (s : State) (r : Reg) :
    (s.undefReg r).halted = s.halted := rfl

@[simp] theorem State.undefReg_fault (s : State) (r : Reg) :
    (s.undefReg r).fault = s.fault := rfl

@[simp] theorem State.undefReg_pc0 (s : State) (r : Reg) :
    (s.undefReg r).pc0 = s.pc0 := rfl

@[simp] theorem State.undefReg_ioLog (s : State) (r : Reg) :
    (s.undefReg r).ioLog = s.ioLog := rfl

@[simp] theorem State.undefReg_draws (s : State) (r : Reg) :
    (s.undefReg r).draws = s.draws + 1 := rfl

/-! ### setPair -/

@[simp] theorem State.setPair_cfg (s : State) (rl rh : Reg) (w : Word) :
    (s.setPair rl rh w).cfg = s.cfg := rfl

@[simp] theorem State.setPair_regs (s : State) (rl rh : Reg) (w : Word) :
    (s.setPair rl rh w).regs = (s.regs.set rl { val := loByte w, isDef := true }).set rh { val := hiByte w, isDef := true } := rfl

@[simp] theorem State.setPair_zero (s : State) (rl rh : Reg) (w : Word) :
    (s.setPair rl rh w).zero = s.zero := rfl

@[simp] theorem State.setPair_carry (s : State) (rl rh : Reg) (w : Word) :
    (s.setPair rl rh w).carry = s.carry := rfl

@[simp] theorem State.setPair_mem (s : State) (rl rh : Reg) (w : Word) :
    (s.setPair rl rh w).mem = s.mem := rfl

@[simp] theorem State.setPair_loaded (s : State) (rl rh : Reg) (w : Word) :
    (s.setPair rl rh w).loaded = s.loaded := rfl

@[simp] theorem State.setPair_halted (s : State) (rl rh : Reg) (w : Word) :
    (s.setPair rl rh w).halted = s.halted := rfl

@[simp] theorem State.setPair_fault (s : State) (rl rh : Reg) (w : Word) :
    (s.setPair rl rh w).fault = s.fault := rfl

@[simp] theorem State.setPair_pc0 (s : State) (rl rh : Reg) (w : Word) :
    (s.setPair rl rh w).pc0 = s.pc0 := rfl

@[simp] theorem State.setPair_ioLog (s : State) (rl rh : Reg) (w : Word) :
    (s.setPair rl rh w).ioLog = s.ioLog := rfl

@[simp] theorem State.setPair_draws (s : State) (rl rh : Reg) (w : Word) :
    (s.setPair rl rh w).draws = s.draws := rfl

/-! ### setPc -/

@[simp] theorem State.setPc_cfg (s : State) (w : Word) :
    (s.setPc w).cfg = s.cfg := rfl

@[simp] theorem State.setPc_regs (s : State) (w : Word) :
    (s.setPc w).regs = (s.regs.set .ipl { val := loByte w, isDef := true }).set .iph { val := hiByte w, isDef := true } := rfl

@[simp] theorem State.setPc_zero (s : State) (w : Word) :
    (s.setPc w).zero = s.zero := rfl

@[simp] theorem State.setPc_carry (s : State) (w : Word) :
    (s.setPc w).carry = s.carry := rfl

@[simp] theorem State.setPc_mem (s : State) (w : Word) :
    (s.setPc w).mem = s.mem := rfl

@[simp] theorem State.setPc_loaded (s : State) (w : Word) :
    (s.setPc w).loaded = s.loaded := rfl

@[simp] theorem State.setPc_halted (s : State) (w : Word) :
    (s.setPc w).halted = s.halted := rfl

@[simp] theorem State.setPc_fault (s : State) (w : Word) :
    (s.setPc w).fault = s.fault := rfl

@[simp] theorem State.setPc_pc0 (s : State) (w : Word) :
    (s.setPc w).pc0 = s.pc0 := rfl

@[simp] theorem State.setPc_ioLog (s : State) (w : Word) :
    (s.setPc w).ioLog = s.ioLog := rfl

@[simp] theorem State.setPc_draws (s : State) (w : Word) :
    (s.setPc w).draws = s.draws := rfl

/-! ### setSp -/

@[simp] theorem State.setSp_cfg (s : State) (w : Word) :
    (s.setSp w).cfg = s.cfg := rfl

@[simp] theorem State.setSp_regs (s : State) (w : Word) :
    (s.setSp w).regs = (s.regs.set .spl { val := loByte w, isDef := true }).set .sph { val := hiByte w, isDef := true } := rfl

@[simp] theorem State.setSp_zero (s : State) (w : Word) :
    (s.setSp w).zero = s.zero := rfl

@[simp] theorem State.setSp_carry (s : State) (w : Word) :
    (s.setSp w).carry = s.carry := rfl

@[simp] theorem State.setSp_mem (s : State) (w : Word) :
    (s.setSp w).mem = s.mem := rfl

@[simp] theorem State.setSp_loaded (s : State) (w : Word) :
    (s.setSp w).loaded = s.loaded := rfl

@[simp] theorem State.setSp_halted (s : State) (w : Word) :
    (s.setSp w).halted = s.halted := rfl

@[simp] theorem State.setSp_fault (s : State) (w : Word) :
    (s.setSp w).fault = s.fault := rfl

@[simp] theorem State.setSp_pc0 (s : State) (w : Word) :
    (s.setSp w).pc0 = s.pc0 := rfl

@[simp] theorem State.setSp_ioLog (s : State) (w : Word) :
    (s.setSp w).ioLog = s.ioLog := rfl

@[simp] theorem State.setSp_draws (s : State) (w : Word) :
    (s.setSp w).draws = s.draws := rfl

/-! ### setFlags -/

@[simp] theorem State.setFlags_cfg (s : State) (t : Int) :
    (s.setFlags t).cfg = s.cfg := rfl

@[simp] theorem State.setFlags_regs (s : State) (t : Int) :
    (s.setFlags t).regs = s.regs := rfl

@[simp] theorem State.setFlags_zero (s : State) (t : Int) :
    (s.setFlags t).zero = { val := zeroOf t, isDef := true } := rfl

@[simp] theorem State.setFlags_carry (s : State) (t : Int) :
    (s.setFlags t).carry = { val := carryOf t, isDef := true } := rfl

@[simp] theorem State.setFlags_mem (s : State) (t : Int) :
    (s.setFlags t).mem = s.mem := rfl

@[simp] theorem State.setFlags_loaded (s : State) (t : Int) :
    (s.setFlags t).loaded = s.loaded := rfl

@[simp] theorem State.setFlags_halted (s : State) (t : Int) :
    (s.setFlags t).halted = s.halted := rfl

@[simp] theorem State.setFlags_fault (s : State) (t : Int) :
    (s.setFlags t).fault = s.fault := rfl

@[simp] theorem State.setFlags_pc0 (s : State) (t : Int) :
    (s.setFlags t).pc0 = s.pc0 := rfl

@[simp] theorem State.setFlags_ioLog (s : State) (t : Int) :
    (s.setFlags t).ioLog = s.ioLog := rfl

@[simp] theorem State.setFlags_draws (s : State) (t : Int) :
    (s.setFlags t).draws = s.draws := rfl

/-! ### undefFlags -/

@[simp] theorem State.undefFlags_cfg (s : State) :
    s.undefFlags.cfg = s.cfg := rfl

@[simp] theorem State.undefFlags_regs (s : State) :
    s.undefFlags.regs = s.regs := rfl

@[simp] theorem State.undefFlags_zero (s : State) :
    s.undefFlags.zero = { val := Config.freeBit s.draws, isDef := false } := rfl

@[simp] theorem State.undefFlags_carry (s : State) :
    s.undefFlags.carry = { val := Config.freeBit (s.draws + 1), isDef := false } := rfl

@[simp] theorem State.undefFlags_mem (s : State) :
    s.undefFlags.mem = s.mem := rfl

@[simp] theorem State.undefFlags_loaded (s : State) :
    s.undefFlags.loaded = s.loaded := rfl

@[simp] theorem State.undefFlags_halted (s : State) :
    s.undefFlags.halted = s.halted := rfl

@[simp] theorem State.undefFlags_fault (s : State) :
    s.undefFlags.fault = s.fault := rfl

@[simp] theorem State.undefFlags_pc0 (s : State) :
    s.undefFlags.pc0 = s.pc0 := rfl

@[simp] theorem State.undefFlags_ioLog (s : State) :
    s.undefFlags.ioLog = s.ioLog := rfl

@[simp] theorem State.undefFlags_draws (s : State) :
    s.undefFlags.draws = s.draws + 2 := rfl

/-! ### setResult -/

@[simp] theorem State.setResult_cfg (s : State) (rd : Reg) (t : Int) :
    (s.setResult rd t).cfg = s.cfg := rfl

@[simp] theorem State.setResult_regs (s : State) (rd : Reg) (t : Int) :
    (s.setResult rd t).regs = s.regs.set rd { val := storedResult t, isDef := true } := rfl

@[simp] theorem State.setResult_zero (s : State) (rd : Reg) (t : Int) :
    (s.setResult rd t).zero = { val := zeroOf t, isDef := true } := rfl

@[simp] theorem State.setResult_carry (s : State) (rd : Reg) (t : Int) :
    (s.setResult rd t).carry = { val := carryOf t, isDef := true } := rfl

@[simp] theorem State.setResult_mem (s : State) (rd : Reg) (t : Int) :
    (s.setResult rd t).mem = s.mem := rfl

@[simp] theorem State.setResult_loaded (s : State) (rd : Reg) (t : Int) :
    (s.setResult rd t).loaded = s.loaded := rfl

@[simp] theorem State.setResult_halted (s : State) (rd : Reg) (t : Int) :
    (s.setResult rd t).halted = s.halted := rfl

@[simp] theorem State.setResult_fault (s : State) (rd : Reg) (t : Int) :
    (s.setResult rd t).fault = s.fault := rfl

@[simp] theorem State.setResult_pc0 (s : State) (rd : Reg) (t : Int) :
    (s.setResult rd t).pc0 = s.pc0 := rfl

@[simp] theorem State.setResult_ioLog (s : State) (rd : Reg) (t : Int) :
    (s.setResult rd t).ioLog = s.ioLog := rfl

@[simp] theorem State.setResult_draws (s : State) (rd : Reg) (t : Int) :
    (s.setResult rd t).draws = s.draws := rfl

/-! ### afterGet -/

@[simp] theorem State.afterGet_cfg (s : State) (o : Nat) :
    (s.afterGet o).cfg = s.cfg := rfl

@[simp] theorem State.afterGet_regs (s : State) (o : Nat) :
    (s.afterGet o).regs = s.regs := rfl

@[simp] theorem State.afterGet_zero (s : State) (o : Nat) :
    (s.afterGet o).zero = s.zero := rfl

@[simp] theorem State.afterGet_carry (s : State) (o : Nat) :
    (s.afterGet o).carry = s.carry := rfl

@[simp] theorem State.afterGet_mem (s : State) (o : Nat) :
    (s.afterGet o).mem = s.mem := rfl

@[simp] theorem State.afterGet_loaded (s : State) (o : Nat) :
    (s.afterGet o).loaded = s.loaded := rfl

@[simp] theorem State.afterGet_halted (s : State) (o : Nat) :
    (s.afterGet o).halted = s.halted := rfl

@[simp] theorem State.afterGet_fault (s : State) (o : Nat) :
    (s.afterGet o).fault = s.fault := rfl

@[simp] theorem State.afterGet_pc0 (s : State) (o : Nat) :
    (s.afterGet o).pc0 = s.pc0 := rfl

@[simp] theorem State.afterGet_ioLog (s : State) (o : Nat) :
    (s.afterGet o).ioLog = s.ioLog ++ [.get o (Config.ioByte s.draws o)] := rfl

@[simp] theorem State.afterGet_draws (s : State) (o : Nat) :
    (s.afterGet o).draws = s.draws + 1 := rfl

/-! ### ioSet -/

@[simp] theorem State.ioSet_cfg (s : State) (o : Nat) (v : Byte) :
    (s.ioSet o v).cfg = s.cfg := rfl

@[simp] theorem State.ioSet_regs (s : State) (o : Nat) (v : Byte) :
    (s.ioSet o v).regs = s.regs := rfl

@[simp] theorem State.ioSet_zero (s : State) (o : Nat) (v : Byte) :
    (s.ioSet o v).zero = s.zero := rfl

@[simp] theorem State.ioSet_carry (s : State) (o : Nat) (v : Byte) :
    (s.ioSet o v).carry = s.carry := rfl

@[simp] theorem State.ioSet_mem (s : State) (o : Nat) (v : Byte) :
    (s.ioSet o v).mem = s.mem := rfl

@[simp] theorem State.ioSet_loaded (s : State) (o : Nat) (v : Byte) :
    (s.ioSet o v).loaded = s.loaded := rfl

@[simp] theorem State.ioSet_halted (s : State) (o : Nat) (v : Byte) :
    (s.ioSet o v).halted = s.halted := rfl

@[simp] theorem State.ioSet_fault (s : State) (o : Nat) (v : Byte) :
    (s.ioSet o v).fault = s.fault := rfl

@[simp] theorem State.ioSet_pc0 (s : State) (o : Nat) (v : Byte) :
    (s.ioSet o v).pc0 = s.pc0 := rfl

@[simp] theorem State.ioSet_ioLog (s : State) (o : Nat) (v : Byte) :
    (s.ioSet o v).ioLog = s.ioLog ++ [.set o v] := rfl

@[simp] theorem State.ioSet_draws (s : State) (o : Nat) (v : Byte) :
    (s.ioSet o v).draws = s.draws := rfl

/-! ### store -/

@[simp] theorem State.store_cfg (s : State) (a : Nat) (v : Byte) :
    (s.store a v).cfg = s.cfg := rfl

@[simp] theorem State.store_regs (s : State) (a : Nat) (v : Byte) :
    (s.store a v).regs = s.regs := rfl

@[simp] theorem State.store_zero (s : State) (a : Nat) (v : Byte) :
    (s.store a v).zero = s.zero := rfl

@[simp] theorem State.store_carry (s : State) (a : Nat) (v : Byte) :
    (s.store a v).carry = s.carry := rfl

@[simp] theorem State.store_mem (s : State) (a : Nat) (v : Byte) :
    (s.store a v).mem = s.mem.write a v := rfl

@[simp] theorem State.store_loaded (s : State) (a : Nat) (v : Byte) :
    (s.store a v).loaded = s.loaded := rfl

@[simp] theorem State.store_halted (s : State) (a : Nat) (v : Byte) :
    (s.store a v).halted = s.halted := rfl

@[simp] theorem State.store_fault (s : State) (a : Nat) (v : Byte) :
    (s.store a v).fault = s.fault := rfl

@[simp] theorem State.store_pc0 (s : State) (a : Nat) (v : Byte) :
    (s.store a v).pc0 = s.pc0 := rfl

@[simp] theorem State.store_ioLog (s : State) (a : Nat) (v : Byte) :
    (s.store a v).ioLog = s.ioLog := rfl

@[simp] theorem State.store_draws (s : State) (a : Nat) (v : Byte) :
    (s.store a v).draws = s.draws := rfl

/-! ### The pointers after an update -/

@[simp] theorem State.setPc_pc (s : State) (w : Word) : (s.setPc w).pc = w := by
  simp [State.pc, State.pairVal, State.regVal, Regs.get_set]

@[simp] theorem State.setPc_sp (s : State) (w : Word) : (s.setPc w).sp = s.sp := by
  simp [State.sp, State.pairVal, State.regVal, Regs.get_set]

@[simp] theorem State.setSp_sp (s : State) (w : Word) : (s.setSp w).sp = w := by
  simp [State.sp, State.pairVal, State.regVal, Regs.get_set]

@[simp] theorem State.setSp_pc (s : State) (w : Word) : (s.setSp w).pc = s.pc := by
  simp [State.pc, State.pairVal, State.regVal, Regs.get_set]

end Sys2Proof.Machine
end

