-- ==== Sys2Proof/Laws/Memory.lean ====
section
/-! SUPPORT. Storage: reading after writing, and the canonical form, which every operation over storage keeps. -/

namespace Sys2Proof.Machine

/-- Reading after a write gives the byte written there and what was read elsewhere. -/
theorem Memory.read_write (m : Memory) (a b : Nat) (v : Byte) :
    (m.write a v).read b = if b = a then some v else m.read b := by
  induction m with
  | nil => simp [Memory.write, Memory.read, eq_comm]
  | cons c rest ih =>
    obtain ⟨k, u⟩ := c
    by_cases h1 : a < k
    · simp [Memory.write, Memory.read, h1, eq_comm]
    · by_cases h2 : a = k
      · subst h2
        by_cases h3 : b = a
        · simp [Memory.write, Memory.read, h3]
        · simp [Memory.write, Memory.read, h3, Ne.symm h3]
      · by_cases h3 : k = b
        · subst h3
          simp [Memory.write, Memory.read, h1, h2, Ne.symm h2]
        · simp [Memory.write, Memory.read, h1, h2, h3, ih]

@[simp] theorem Memory.read_write_self (m : Memory) (a : Nat) (v : Byte) : (m.write a v).read a = some v := by
  simp [Memory.read_write]

theorem Memory.read_write_ne (m : Memory) (a b : Nat) (v : Byte) (h : b ≠ a) : (m.write a v).read b = m.read b := by
  simp [Memory.read_write, h]

/-- Reading after writing a list of bytes. -/
theorem Memory.read_writeList (m : Memory) (a b : Nat) (bs : List Byte) :
    (m.writeList a bs).read b = if a ≤ b ∧ b < a + bs.length then bs[b - a]? else m.read b := by
  induction bs generalizing m a with
  | nil =>
    simp only [Memory.writeList, List.length_nil]
    split
    · omega
    · rfl
  | cons x xs ih =>
    simp only [Memory.writeList, ih, Memory.read_write, List.length_cons]
    by_cases h1 : b = a
    · subst h1; simp
    · by_cases h2 : a + 1 ≤ b ∧ b < a + 1 + xs.length
      · have h3 : b - a = (b - (a + 1)) + 1 := by omega
        have h4 : a ≤ b ∧ b < a + (xs.length + 1) := by omega
        simp [h2, h4, h3]
      · have h4 : ¬ (a ≤ b ∧ b < a + (xs.length + 1)) := by omega
        rw [if_neg h2, if_neg h4, if_neg h1]

/-- The canonical form of a list with a head: the rest is canonical and lies above it. -/
theorem Memory.wf_cons (k : Nat) (v : Byte) (m : Memory) :
    Memory.wf ((k, v) :: m) = true ↔ m.wf = true ∧ ∀ c ∈ m.head?, k < c.1 := by
  cases m with
  | nil => simp [Memory.wf]
  | cons c rest => obtain ⟨k', v'⟩ := c; simp [Memory.wf, and_comm]

/-- The head of storage after a write is the address written or the head before. -/
theorem Memory.head_write (m : Memory) (a : Nat) (v : Byte) :
    ∀ c ∈ (m.write a v).head?, c.1 = a ∨ c ∈ m.head? := by
  cases m with
  | nil => simp [Memory.write]
  | cons c rest =>
    obtain ⟨k, u⟩ := c
    simp only [Memory.write]
    split
    · simp
    · split <;> simp

/-- A write keeps the canonical form. -/
theorem Memory.write_wf (m : Memory) (a : Nat) (v : Byte) (h : m.wf = true) : (m.write a v).wf = true := by
  induction m with
  | nil => rfl
  | cons c rest ih =>
    obtain ⟨k, u⟩ := c
    have hr := (Memory.wf_cons k u rest).1 h
    simp only [Memory.write]
    split
    · next h1 => exact (Memory.wf_cons a v _).2 ⟨h, by simpa using h1⟩
    · next h1 =>
      split
      · next h2 => subst h2; exact (Memory.wf_cons a v rest).2 hr
      · next h2 =>
        refine (Memory.wf_cons k u _).2 ⟨ih hr.1, fun c hc => ?_⟩
        rcases Memory.head_write rest a v c hc with h3 | h3
        · omega
        · exact hr.2 c h3

/-- Writing a list keeps the canonical form. -/
theorem Memory.writeList_wf (m : Memory) (a : Nat) (bs : List Byte) (h : m.wf = true) :
    (m.writeList a bs).wf = true := by
  induction bs generalizing m a with
  | nil => exact h
  | cons x xs ih => exact ih _ _ (Memory.write_wf m a x h)

/-- The cells after a write are the cell written and cells from before. -/
theorem Memory.mem_write (m : Memory) (a : Nat) (v : Byte) (c : Host.Cell) (h : c ∈ m.write a v) :
    c = (a, v) ∨ c ∈ m := by
  induction m with
  | nil => simpa [Memory.write] using h
  | cons x rest ih =>
    obtain ⟨k, u⟩ := x
    simp only [Memory.write] at h
    split at h
    · simpa using h
    · split at h
      · rcases List.mem_cons.1 h with h | h
        · exact .inl h
        · exact .inr (List.mem_cons_of_mem _ h)
      · rcases List.mem_cons.1 h with h | h
        · exact .inr (by simp [h])
        · rcases ih h with h | h
          · exact .inl h
          · exact .inr (List.mem_cons_of_mem _ h)

/-- The cells after writing a list lie at the addresses of the list or come from before. -/
theorem Memory.mem_writeList (m : Memory) (a : Nat) (bs : List Byte) (c : Host.Cell) (h : c ∈ m.writeList a bs) :
    (a ≤ c.1 ∧ c.1 < a + bs.length) ∨ c ∈ m := by
  induction bs generalizing m a with
  | nil => exact .inr h
  | cons x xs ih =>
    rcases ih _ _ h with h | h
    · simp only [List.length_cons]; left; omega
    · rcases Memory.mem_write m a x c h with h | h
      · left; simp [h]
      · exact .inr h

/-- Storage after reset is canonical. -/
theorem reset_mem_wf : State.reset.mem.wf = true := rfl

end Sys2Proof.Machine
end

