-- ==== Sys2Proof/Laws/Ops.lean ====
section
/-! SUPPORT. What each shared operation can do, said once: the value and the state it answers where it is done, the record
where it raises, and a way to carry a relation between states through a sequence of operations. -/

namespace Sys2Proof.Machine

/-! ### Sequences -/

@[simp] theorem Res.andThen_done {α β : Type} (a : α) (s : State) (f : α → State → Res β) :
    (Res.done a s).andThen f = f a s := rfl

@[simp] theorem Res.andThen_raised {α β : Type} (s : State) (f : α → State → Res β) :
    (Res.raised s : Res α).andThen f = .raised s := rfl

@[simp] theorem Res.outcome_done {α : Type} (a : α) (s : State) : (Res.done a s).outcome = .next s := rfl

@[simp] theorem Res.outcome_raised {α : Type} (s : State) : (Res.raised s : Res α).outcome = .next s := rfl

/-- A sequence that is done was done in both parts. -/
theorem Res.andThen_eq_done {α β : Type} {x : Res α} {f : α → State → Res β} {b : β} {t : State}
    (h : x.andThen f = .done b t) : ∃ a u, x = .done a u ∧ f a u = .done b t := by
  cases x with
  | done a u => exact ⟨a, u, rfl, h⟩
  | raised u => cases h

/-- A sequence that raises did so in its first part or, that part done, in its second. -/
theorem Res.andThen_eq_raised {α β : Type} {x : Res α} {f : α → State → Res β} {t : State}
    (h : x.andThen f = .raised t) : x = .raised t ∨ ∃ a u, x = .done a u ∧ f a u = .raised t := by
  cases x with
  | done a u => exact .inr ⟨a, u, rfl, h⟩
  | raised u => exact .inl (by cases h; rfl)

/-- The state an operation leaves, done or raised, stands in the relation `R` to `s`. -/
def Res.Rel {α : Type} (R : State → State → Prop) (s : State) : Res α → Prop
  | .done _ t => R s t
  | .raised t => R s t

/-- A transitive relation goes through a sequence. -/
theorem Res.andThen_rel {α β : Type} {R : State → State → Prop} (trans : ∀ a b c, R a b → R b c → R a c)
    {s : State} {x : Res α} {f : α → State → Res β} (hx : x.Rel R s) (hf : ∀ a t, (f a t).Rel R t) :
    (x.andThen f).Rel R s := by
  cases x with
  | raised t => exact hx
  | done a t =>
    have h := hf a t
    simp only [Res.andThen_done]
    cases hfa : f a t with
    | done b u => rw [hfa] at h; exact trans _ _ _ hx h
    | raised u => rw [hfa] at h; exact trans _ _ _ hx h

/-- The next state of an instruction is the state its operations leave. -/
theorem Res.rel_of_outcome {α : Type} {R : State → State → Prop} {s t : State} {x : Res α} (hx : x.Rel R s)
    (h : x.outcome = .next t) : R s t := by
  cases x with
  | done a u => cases h; exact hx
  | raised u => cases h; exact hx

/-! ### Registers and flags -/

theorem readReg_done {r : Reg} {s : State} (h : s.canRead r) : readReg r s = .done (s.regVal r) s := by
  simp only [State.canRead] at h
  simp [readReg, h]

/-- A register that cannot be read raises UndefinedRead, naming the register. -/
theorem readReg_trap {r : Reg} {s : State} (h : ¬ s.canRead r) :
    readReg r s = .raised { s with fault := some { kind := .undefinedRead, ip := s.pc0, value := .register r } } := by
  simp only [State.canRead] at h
  simp [readReg, raise, h]

/-- If reading a register is done, it could be read, it gave its byte and changed nothing. -/
theorem readReg_inv {r : Reg} {s t : State} {v : Byte} (h : readReg r s = .done v t) :
    s.canRead r ∧ v = s.regVal r ∧ t = s := by
  by_cases hr : s.canRead r
  · rw [readReg_done hr] at h; cases h; exact ⟨hr, rfl, rfl⟩
  · rw [readReg_trap hr] at h; cases h

theorem readFlag_done {f : Flag} {s : State} (h : s.canReadFlag f) : readFlag f s = .done (s.flagCell f).val s := by
  simp only [State.canReadFlag] at h
  simp [readFlag, h]

/-- A flag that cannot be read raises UndefinedRead, naming the flag. -/
theorem readFlag_trap {f : Flag} {s : State} (h : ¬ s.canReadFlag f) :
    readFlag f s = .raised { s with fault := some { kind := .undefinedRead, ip := s.pc0, value := .flag f } } := by
  simp only [State.canReadFlag] at h
  simp [readFlag, raise, h]

theorem readPair_done {rl rh : Reg} {s : State} (hl : s.canRead rl) (hh : s.canRead rh) :
    readPair rl rh s = .done (s.pairVal rl rh) s := by
  simp [readPair, readReg_done hl, readReg_done hh, State.pairVal]

/-- If reading a pair is done, both cells could be read, it gave their word and changed nothing. -/
theorem readPair_inv {rl rh : Reg} {s t : State} {w : Word} (h : readPair rl rh s = .done w t) :
    s.canRead rl ∧ s.canRead rh ∧ w = s.pairVal rl rh ∧ t = s := by
  obtain ⟨lo, u, h1, h2⟩ := Res.andThen_eq_done h
  obtain ⟨hl, rfl, rfl⟩ := readReg_inv h1
  obtain ⟨hi, u, h3, h4⟩ := Res.andThen_eq_done h2
  obtain ⟨hh, rfl, rfl⟩ := readReg_inv h3
  cases h4
  exact ⟨hl, hh, rfl, rfl⟩

theorem readSp_done {s : State} (h : s.canReadSp) : readSp s = .done s.sp s := readPair_done h.1 h.2

theorem readPc_done {s : State} (h : s.canReadPc) : readPc s = .done s.pc s := readPair_done h.1 h.2

theorem moveSp_done {t : Int} {s : State} (h : 0 ≤ t ∧ t ≤ 0xFFFF) :
    moveSp t s = .done () (s.setSp (BitVec.ofInt 16 t)) := by
  have h' : 0 ≤ t ∧ t.toNat ≤ 0xFFFF := by omega
  rw [moveSp, if_pos h']

/-- A new SP out of range raises, and SP is not moved. -/
theorem moveSp_trap {t : Int} {s : State} (h : ¬ (0 ≤ t ∧ t ≤ 0xFFFF)) :
    moveSp t s = .raised { s with fault := some { kind := .addressOutOfRange, ip := s.pc0, value := .address t } } := by
  have h' : ¬ (0 ≤ t ∧ t.toNat ≤ 0xFFFF) := by omega
  rw [moveSp, if_neg h']; rfl

/-! ### A write at an address -/

@[simp] theorem State.writeAt_cfg (s : State) (a : Nat) (v : Byte) : (s.writeAt a v).cfg = s.cfg := by
  unfold State.writeAt; split <;> rfl

@[simp] theorem State.writeAt_regs (s : State) (a : Nat) (v : Byte) : (s.writeAt a v).regs = s.regs := by
  unfold State.writeAt; split <;> rfl

@[simp] theorem State.writeAt_zero (s : State) (a : Nat) (v : Byte) : (s.writeAt a v).zero = s.zero := by
  unfold State.writeAt; split <;> rfl

@[simp] theorem State.writeAt_carry (s : State) (a : Nat) (v : Byte) : (s.writeAt a v).carry = s.carry := by
  unfold State.writeAt; split <;> rfl

@[simp] theorem State.writeAt_loaded (s : State) (a : Nat) (v : Byte) : (s.writeAt a v).loaded = s.loaded := by
  unfold State.writeAt; split <;> rfl

@[simp] theorem State.writeAt_halted (s : State) (a : Nat) (v : Byte) : (s.writeAt a v).halted = s.halted := by
  unfold State.writeAt; split <;> rfl

@[simp] theorem State.writeAt_fault (s : State) (a : Nat) (v : Byte) : (s.writeAt a v).fault = s.fault := by
  unfold State.writeAt; split <;> rfl

@[simp] theorem State.writeAt_pc0 (s : State) (a : Nat) (v : Byte) : (s.writeAt a v).pc0 = s.pc0 := by
  unfold State.writeAt; split <;> rfl

@[simp] theorem State.writeAt_draws (s : State) (a : Nat) (v : Byte) : (s.writeAt a v).draws = s.draws := by
  unfold State.writeAt; split <;> rfl

theorem State.writeAt_storage {s : State} {a : Nat} (v : Byte) (h : s.isIo a = false) : s.writeAt a v = s.store a v := by
  simp [State.writeAt, h]

theorem State.writeAt_window {s : State} {a : Nat} (v : Byte) (h : s.isIo a = true) :
    s.writeAt a v = s.ioSet (s.ioOffset a) v := by
  simp [State.writeAt, h]

/-- Storage after a write: the byte written, unless the address is in the window, and every other byte as before. -/
theorem State.writeAt_read (s : State) (a b : Nat) (v : Byte) :
    (s.writeAt a v).mem.read b = if b = a ∧ s.isIo a = false then some v else s.mem.read b := by
  by_cases h : s.isIo a = true
  · simp [State.writeAt_window v h, h]
  · simp only [Bool.not_eq_true] at h
    simp [State.writeAt_storage v h, Memory.read_write, h]

/-- The record of I/O calls after a write: one event for an address in the window, none for storage. -/
theorem State.writeAt_ioLog (s : State) (a : Nat) (v : Byte) :
    (s.writeAt a v).ioLog = s.ioLog ++ (if s.isIo a then [IoEvent.set (s.ioOffset a) v] else []) := by
  by_cases h : s.isIo a = true
  · simp [State.writeAt_window v h, h]
  · simp only [Bool.not_eq_true] at h
    simp [State.writeAt_storage v h, h]

/-- The window is the 4096 bytes from `IO_BASE` on (20_memory.md R38). -/
theorem State.isIo_iff (s : State) (a : Nat) :
    s.isIo a = true ↔ s.cfg.ioBase.toNat ≤ a ∧ a ≤ s.cfg.ioBase.toNat + 4095 := by
  unfold State.isIo
  rw [decide_eq_true_iff]
  rfl

theorem State.isIo_eq_false (s : State) (a : Nat) :
    s.isIo a = false ↔ a < s.cfg.ioBase.toNat ∨ s.cfg.ioBase.toNat + 4095 < a := by
  rw [← Bool.not_eq_true, State.isIo_iff]
  omega

/-- The I/O decoder depends on the parameters alone. -/
theorem State.isIo_congr {s t : State} (h : t.cfg = s.cfg) (a : Nat) : t.isIo a = s.isIo a := by
  simp [State.isIo, h]

theorem State.ioOffset_congr {s t : State} (h : t.cfg = s.cfg) (a : Nat) : t.ioOffset a = s.ioOffset a := by
  simp [State.ioOffset, h]

/-! ### Memory accesses -/

/-- What reading a byte at an address in range does. -/
theorem memRead_nat {a : Nat} {s : State} (h : a < 65536) :
    memRead (a : Int) s =
      if s.isIo a then .done (Config.ioByte s.draws (s.ioOffset a)) (s.afterGet (s.ioOffset a))
      else
        match s.mem.read a with
        | none => .raised { s with fault := some { kind := .undefinedRead, ip := s.pc0, value := .address a } }
        | some b => .done b s := by
  have h1 : ¬ ((a : Int) < 0 ∨ (a : Int).toNat > 65535) := by omega
  rw [memRead, if_neg h1]
  rfl

theorem memRead_storage {a : Nat} {b : Byte} {s : State} (h : s.holdsByte a b) : memRead (a : Int) s = .done b s := by
  obtain ⟨h1, h2, h3⟩ := h
  rw [memRead_nat h1]
  simp [h2, h3]

theorem memRead_window {a : Nat} {s : State} (h : a < 65536) (hio : s.isIo a = true) :
    memRead (a : Int) s = .done (Config.ioByte s.draws (s.ioOffset a)) (s.afterGet (s.ioOffset a)) := by
  rw [memRead_nat h]
  simp [hio]

theorem memRead_trap {a : Int} {s : State} (h : a < 0 ∨ a > 65535) :
    memRead a s = .raised { s with fault := some { kind := .addressOutOfRange, ip := s.pc0, value := .address a } } := by
  have h1 : a < 0 ∨ a.toNat > 65535 := by omega
  rw [memRead, if_pos h1]; rfl

theorem memWrite_nat {a : Nat} {s : State} (v : Byte) (h : a < 65536) :
    memWrite (a : Int) v s = .done () (s.writeAt a v) := by
  have h1 : ¬ ((a : Int) < 0 ∨ (a : Int).toNat > 65535) := by omega
  rw [memWrite, if_neg h1]
  rfl

theorem memWrite_trap {a : Int} {s : State} (v : Byte) (h : a < 0 ∨ a > 65535) :
    memWrite a v s = .raised { s with fault := some { kind := .addressOutOfRange, ip := s.pc0, value := .address a } } := by
  have h1 : a < 0 ∨ a.toNat > 65535 := by omega
  rw [memWrite, if_pos h1]; rfl

/-! ### The stack -/

@[simp] theorem State.writeAt_sp (s : State) (a : Nat) (v : Byte) : (s.writeAt a v).sp = s.sp := by
  simp [State.sp, State.pairVal, State.regVal]

@[simp] theorem State.writeAt_pc (s : State) (a : Nat) (v : Byte) : (s.writeAt a v).pc = s.pc := by
  simp [State.pc, State.pairVal, State.regVal]

/-- A word moved up by an amount that stays in range. -/
theorem ofInt_add (w : Word) (n : Nat) : BitVec.ofInt 16 ((w.toNat : Int) + (n : Int)) = w + BitVec.ofNat 16 n := by
  rw [BitVec.ofInt_add, BitVec.ofInt_natCast, BitVec.ofInt_natCast, BitVec.ofNat_toNat, BitVec.setWidth_eq]

/-- A word moved down by an amount. -/
theorem ofInt_sub (w : Word) (n : Nat) : BitVec.ofInt 16 ((w.toNat : Int) - (n : Int)) = w - BitVec.ofNat 16 n := by
  rw [Int.sub_eq_add_neg, BitVec.ofInt_add, BitVec.ofInt_neg, BitVec.ofInt_natCast, BitVec.ofInt_natCast,
    BitVec.ofNat_toNat, BitVec.setWidth_eq, BitVec.sub_eq_add_neg]

/-- A push below the top of memory. -/
theorem push_done {v : Byte} {s : State} (hr : s.canReadSp) (h : s.sp.toNat < 65535) :
    push v s = .done () ((s.writeAt s.sp.toNat v).setSp (s.sp + 1)) := by
  have h0 : s.sp.toNat < 65536 := by omega
  have h1 : (0 : Int) ≤ (s.sp.toNat : Int) + 1 ∧ (s.sp.toNat : Int) + 1 ≤ 0xFFFF := by omega
  rw [push, readSp_done hr, Res.andThen_done, memWrite_nat v h0, Res.andThen_done, moveSp_done h1]
  exact congrArg (fun w => Res.done () ((s.writeAt s.sp.toNat v).setSp w)) (ofInt_add s.sp 1)

/-- A push at the top of memory: the byte is written, and then the new SP is out of range. -/
theorem push_trap {v : Byte} {s : State} (hr : s.canReadSp) (h : s.sp.toNat = 65535) :
    push v s = .raised { s.writeAt 65535 v with
      fault := some { kind := .addressOutOfRange, ip := s.pc0, value := .address 65536 } } := by
  have h0 : s.sp.toNat < 65536 := by omega
  have h1 : ¬ ((0 : Int) ≤ (s.sp.toNat : Int) + 1 ∧ (s.sp.toNat : Int) + 1 ≤ 0xFFFF) := by omega
  rw [push, readSp_done hr, Res.andThen_done, memWrite_nat v h0, Res.andThen_done, moveSp_trap h1, h]
  simp only [State.writeAt_pc0]
  rfl

/-- A pop above the bottom of memory: SP moves, then the byte there is read. -/
theorem pop_done {s : State} (hr : s.canReadSp) (h : 0 < s.sp.toNat) :
    pop s = memRead ((s.sp.toNat - 1 : Nat) : Int) (s.setSp (s.sp - 1)) := by
  have h0 := s.sp.isLt
  have h1 : (0 : Int) ≤ (s.sp.toNat : Int) - 1 ∧ (s.sp.toNat : Int) - 1 ≤ 0xFFFF := by omega
  have e : ((s.sp.toNat : Int) - 1) = ((s.sp.toNat - 1 : Nat) : Int) := by omega
  rw [pop, readSp_done hr, Res.andThen_done, moveSp_done h1, Res.andThen_done, ← e]
  exact congrArg (fun w => memRead ((s.sp.toNat : Int) - 1) (s.setSp w)) (ofInt_sub s.sp 1)

/-- A pop at the bottom of memory. -/
theorem pop_trap {s : State} (hr : s.canReadSp) (h : s.sp.toNat = 0) :
    pop s = .raised { s with
      fault := some { kind := .addressOutOfRange, ip := s.pc0, value := .address (-1) } } := by
  have h1 : ¬ ((0 : Int) ≤ (s.sp.toNat : Int) - 1 ∧ (s.sp.toNat : Int) - 1 ≤ 0xFFFF) := by omega
  rw [pop, readSp_done hr, Res.andThen_done, moveSp_trap h1, h]
  rfl

/-! ### Fetch -/

@[simp] theorem State.setPc_canReadPc (s : State) (w : Word) : (s.setPc w).canReadPc := by
  simp [State.canReadPc, State.canRead, State.readable, Regs.get_set]

/-- Fetching a storage byte below the top of memory moves IP past it. -/
theorem fetchByte_storage {s : State} {b : Byte} (h : s.holdsByte s.pc.toNat b) (ht : s.pc.toNat < 65535) :
    fetchByte s = .done b (s.setPc (s.pc + 1)) := by
  have h1 : ¬ (s.pc.toNat + 1 > 65535) := by omega
  rw [fetchByte, memRead_storage h, Res.andThen_done, if_neg h1]

end Sys2Proof.Machine
end

