-- ==== Sys2Proof/Laws/PerInstr.lean ====
section
/-! SUPPORT. Facts of every instruction as syntax, one lemma per constructor. -/

namespace Sys2Proof.Laws.EncodingShape

/-- The bytes of an instruction spell a well-formed one, whatever the numbers: its operand bytes pass the checks of
WellFormed, and where no two numbers are the same the ROM finds its mnemonic at its opcode byte. -/
def Statement (i : Instr) : Prop :=
  ∀ c : Codes, (i.raw c).wellFormed c = true ∧ (c.distinct = true → romLookup c (opcodeOf c i.mnemonic) = some i.mnemonic)

theorem num (r : Reg) (i : Byte) : Statement (.num r i) := fun c =>
  ⟨by simp [Instr.raw, RawInstr.wellFormed, RawInstr.countOk, RawInstr.operandsOk, Instr.mnemonic, Mnemonic.kinds,
    Instr.operandBytes], fun h => romLookup_opcodeOf h _⟩

theorem mov (rd rs : Reg) : Statement (.mov rd rs) := fun c =>
  ⟨by simp [Instr.raw, RawInstr.wellFormed, RawInstr.countOk, RawInstr.operandsOk, Instr.mnemonic, Mnemonic.kinds,
    Instr.operandBytes], fun h => romLookup_opcodeOf h _⟩

theorem jmp (lo hi : Byte) : Statement (.jmp lo hi) := fun c =>
  ⟨by simp [Instr.raw, RawInstr.wellFormed, RawInstr.countOk, RawInstr.operandsOk, Instr.mnemonic, Mnemonic.kinds,
    Instr.operandBytes], fun h => romLookup_opcodeOf h _⟩

theorem jin (rl rh : Reg) : Statement (.jin rl rh) := fun c =>
  ⟨by simp [Instr.raw, RawInstr.wellFormed, RawInstr.countOk, RawInstr.operandsOk, Instr.mnemonic, Mnemonic.kinds,
    Instr.operandBytes], fun h => romLookup_opcodeOf h _⟩

theorem jiz (lo hi : Byte) : Statement (.jiz lo hi) := fun c =>
  ⟨by simp [Instr.raw, RawInstr.wellFormed, RawInstr.countOk, RawInstr.operandsOk, Instr.mnemonic, Mnemonic.kinds,
    Instr.operandBytes], fun h => romLookup_opcodeOf h _⟩

theorem jnz (lo hi : Byte) : Statement (.jnz lo hi) := fun c =>
  ⟨by simp [Instr.raw, RawInstr.wellFormed, RawInstr.countOk, RawInstr.operandsOk, Instr.mnemonic, Mnemonic.kinds,
    Instr.operandBytes], fun h => romLookup_opcodeOf h _⟩

theorem jic (lo hi : Byte) : Statement (.jic lo hi) := fun c =>
  ⟨by simp [Instr.raw, RawInstr.wellFormed, RawInstr.countOk, RawInstr.operandsOk, Instr.mnemonic, Mnemonic.kinds,
    Instr.operandBytes], fun h => romLookup_opcodeOf h _⟩

theorem jnc (lo hi : Byte) : Statement (.jnc lo hi) := fun c =>
  ⟨by simp [Instr.raw, RawInstr.wellFormed, RawInstr.countOk, RawInstr.operandsOk, Instr.mnemonic, Mnemonic.kinds,
    Instr.operandBytes], fun h => romLookup_opcodeOf h _⟩

theorem clc (lo hi : Byte) : Statement (.clc lo hi) := fun c =>
  ⟨by simp [Instr.raw, RawInstr.wellFormed, RawInstr.countOk, RawInstr.operandsOk, Instr.mnemonic, Mnemonic.kinds,
    Instr.operandBytes], fun h => romLookup_opcodeOf h _⟩

theorem clr (rl rh : Reg) : Statement (.clr rl rh) := fun c =>
  ⟨by simp [Instr.raw, RawInstr.wellFormed, RawInstr.countOk, RawInstr.operandsOk, Instr.mnemonic, Mnemonic.kinds,
    Instr.operandBytes], fun h => romLookup_opcodeOf h _⟩

theorem ret : Statement (.ret) := fun c =>
  ⟨by simp [Instr.raw, RawInstr.wellFormed, RawInstr.countOk, RawInstr.operandsOk, Instr.mnemonic, Mnemonic.kinds,
    Instr.operandBytes], fun h => romLookup_opcodeOf h _⟩

theorem alc (n : Byte) : Statement (.alc n) := fun c =>
  ⟨by simp [Instr.raw, RawInstr.wellFormed, RawInstr.countOk, RawInstr.operandsOk, Instr.mnemonic, Mnemonic.kinds,
    Instr.operandBytes], fun h => romLookup_opcodeOf h _⟩

theorem eat (n : Byte) : Statement (.eat n) := fun c =>
  ⟨by simp [Instr.raw, RawInstr.wellFormed, RawInstr.countOk, RawInstr.operandsOk, Instr.mnemonic, Mnemonic.kinds,
    Instr.operandBytes], fun h => romLookup_opcodeOf h _⟩

theorem ofg (r : Reg) (off : Byte) : Statement (.ofg r off) := fun c =>
  ⟨by simp [Instr.raw, RawInstr.wellFormed, RawInstr.countOk, RawInstr.operandsOk, Instr.mnemonic, Mnemonic.kinds,
    Instr.operandBytes], fun h => romLookup_opcodeOf h _⟩

theorem ofs (r : Reg) (off : Byte) : Statement (.ofs r off) := fun c =>
  ⟨by simp [Instr.raw, RawInstr.wellFormed, RawInstr.countOk, RawInstr.operandsOk, Instr.mnemonic, Mnemonic.kinds,
    Instr.operandBytes], fun h => romLookup_opcodeOf h _⟩

theorem pop (r : Reg) : Statement (.pop r) := fun c =>
  ⟨by simp [Instr.raw, RawInstr.wellFormed, RawInstr.countOk, RawInstr.operandsOk, Instr.mnemonic, Mnemonic.kinds,
    Instr.operandBytes], fun h => romLookup_opcodeOf h _⟩

theorem psh (r : Reg) : Statement (.psh r) := fun c =>
  ⟨by simp [Instr.raw, RawInstr.wellFormed, RawInstr.countOk, RawInstr.operandsOk, Instr.mnemonic, Mnemonic.kinds,
    Instr.operandBytes], fun h => romLookup_opcodeOf h _⟩

theorem gec (lo hi : Byte) : Statement (.gec lo hi) := fun c =>
  ⟨by simp [Instr.raw, RawInstr.wellFormed, RawInstr.countOk, RawInstr.operandsOk, Instr.mnemonic, Mnemonic.kinds,
    Instr.operandBytes], fun h => romLookup_opcodeOf h _⟩

theorem sec (lo hi : Byte) : Statement (.sec lo hi) := fun c =>
  ⟨by simp [Instr.raw, RawInstr.wellFormed, RawInstr.countOk, RawInstr.operandsOk, Instr.mnemonic, Mnemonic.kinds,
    Instr.operandBytes], fun h => romLookup_opcodeOf h _⟩

theorem ger (rl rh : Reg) : Statement (.ger rl rh) := fun c =>
  ⟨by simp [Instr.raw, RawInstr.wellFormed, RawInstr.countOk, RawInstr.operandsOk, Instr.mnemonic, Mnemonic.kinds,
    Instr.operandBytes], fun h => romLookup_opcodeOf h _⟩

theorem ser (rl rh : Reg) : Statement (.ser rl rh) := fun c =>
  ⟨by simp [Instr.raw, RawInstr.wellFormed, RawInstr.countOk, RawInstr.operandsOk, Instr.mnemonic, Mnemonic.kinds,
    Instr.operandBytes], fun h => romLookup_opcodeOf h _⟩

theorem inc (r : Reg) : Statement (.inc r) := fun c =>
  ⟨by simp [Instr.raw, RawInstr.wellFormed, RawInstr.countOk, RawInstr.operandsOk, Instr.mnemonic, Mnemonic.kinds,
    Instr.operandBytes], fun h => romLookup_opcodeOf h _⟩

theorem dec (r : Reg) : Statement (.dec r) := fun c =>
  ⟨by simp [Instr.raw, RawInstr.wellFormed, RawInstr.countOk, RawInstr.operandsOk, Instr.mnemonic, Mnemonic.kinds,
    Instr.operandBytes], fun h => romLookup_opcodeOf h _⟩

theorem add (rd rs : Reg) : Statement (.add rd rs) := fun c =>
  ⟨by simp [Instr.raw, RawInstr.wellFormed, RawInstr.countOk, RawInstr.operandsOk, Instr.mnemonic, Mnemonic.kinds,
    Instr.operandBytes], fun h => romLookup_opcodeOf h _⟩

theorem sub (rd rs : Reg) : Statement (.sub rd rs) := fun c =>
  ⟨by simp [Instr.raw, RawInstr.wellFormed, RawInstr.countOk, RawInstr.operandsOk, Instr.mnemonic, Mnemonic.kinds,
    Instr.operandBytes], fun h => romLookup_opcodeOf h _⟩

theorem mul (rd rs : Reg) : Statement (.mul rd rs) := fun c =>
  ⟨by simp [Instr.raw, RawInstr.wellFormed, RawInstr.countOk, RawInstr.operandsOk, Instr.mnemonic, Mnemonic.kinds,
    Instr.operandBytes], fun h => romLookup_opcodeOf h _⟩

theorem shl (rd rs : Reg) : Statement (.shl rd rs) := fun c =>
  ⟨by simp [Instr.raw, RawInstr.wellFormed, RawInstr.countOk, RawInstr.operandsOk, Instr.mnemonic, Mnemonic.kinds,
    Instr.operandBytes], fun h => romLookup_opcodeOf h _⟩

theorem shr (rd rs : Reg) : Statement (.shr rd rs) := fun c =>
  ⟨by simp [Instr.raw, RawInstr.wellFormed, RawInstr.countOk, RawInstr.operandsOk, Instr.mnemonic, Mnemonic.kinds,
    Instr.operandBytes], fun h => romLookup_opcodeOf h _⟩

theorem inl (rl rh : Reg) : Statement (.inl rl rh) := fun c =>
  ⟨by simp [Instr.raw, RawInstr.wellFormed, RawInstr.countOk, RawInstr.operandsOk, Instr.mnemonic, Mnemonic.kinds,
    Instr.operandBytes], fun h => romLookup_opcodeOf h _⟩

theorem del (rl rh : Reg) : Statement (.del rl rh) := fun c =>
  ⟨by simp [Instr.raw, RawInstr.wellFormed, RawInstr.countOk, RawInstr.operandsOk, Instr.mnemonic, Mnemonic.kinds,
    Instr.operandBytes], fun h => romLookup_opcodeOf h _⟩

theorem hlt : Statement (.hlt) := fun c =>
  ⟨by simp [Instr.raw, RawInstr.wellFormed, RawInstr.countOk, RawInstr.operandsOk, Instr.mnemonic, Mnemonic.kinds,
    Instr.operandBytes], fun h => romLookup_opcodeOf h _⟩

end Sys2Proof.Laws.EncodingShape
end

