-- ==== Sys2Proof/Laws/Step.lean ====
section
/-! SUPPORT. What a step can do, said once: it is a sequence of the primitive updates below. A relation between states
that is reflexive, transitive and holds of each primitive update an instruction may make holds between the state before
and the state after, whether the instruction completes or raises. -/

namespace Sys2Proof.Machine

/-- A relation that moves and loads stand in. -/
structure CarriesLoads (R : State → State → Prop) : Prop where
  refl : ∀ s, R s s
  trans : ∀ a b c, R a b → R b c → R a c
  raise : ∀ (s : State) (k : ErrorKind) (v : ErrorValue), R s { s with fault := some ⟨k, s.pc0, v⟩ }
  setReg : ∀ (s : State) (r : Reg) (v : Byte), R s (s.setReg r v)
  afterGet : ∀ (s : State) (a : Nat), a < 65536 → s.isIo a = true → R s (s.afterGet (s.ioOffset a))

/-- A relation that stores stand in, too. -/
structure CarriesStores (R : State → State → Prop) : Prop extends CarriesLoads R where
  ioSet : ∀ (s : State) (a : Nat) (v : Byte), a < 65536 → s.isIo a = true → R s (s.ioSet (s.ioOffset a) v)
  store : ∀ (s : State) (a : Nat) (v : Byte), a < 65536 → s.isIo a = false → R s (s.store a v)

/-- A relation that the arithmetic family stands in, too. -/
structure CarriesArith (R : State → State → Prop) : Prop extends CarriesLoads R where
  undefReg : ∀ (s : State) (r : Reg), R s (s.undefReg r)
  setFlags : ∀ (s : State) (t : Int), R s (s.setFlags t)
  undefFlags : ∀ s : State, R s s.undefFlags

/-- A relation that every step stands in. -/
structure CarriesAll (R : State → State → Prop) : Prop extends CarriesStores R, CarriesArith R where
  halt : ∀ s : State, R s { s with halted := true }
  latch : ∀ (s : State) (w : Word), R s { s with pc0 := w }

variable {R : State → State → Prop}

/-! ### Operations -/

theorem done_rel {α : Type} {a : α} {s t : State} (h : R s t) : (Res.done a t).Rel R s := h

theorem raise_rel {α : Type} (c : CarriesLoads R) (k : ErrorKind) (v : ErrorValue) (s : State) :
    (raise k v s : Res α).Rel R s := c.raise s k v

theorem readReg_rel (c : CarriesLoads R) (r : Reg) (s : State) : (readReg r s).Rel R s := by
  unfold readReg; split
  · exact c.refl s
  · exact raise_rel c _ _ s

theorem readFlag_rel (c : CarriesLoads R) (f : Flag) (s : State) : (readFlag f s).Rel R s := by
  unfold readFlag; split
  · exact c.refl s
  · exact raise_rel c _ _ s

theorem readPair_rel (c : CarriesLoads R) (rl rh : Reg) (s : State) : (readPair rl rh s).Rel R s :=
  Res.andThen_rel c.trans (readReg_rel c rl s) fun _ t =>
    Res.andThen_rel c.trans (readReg_rel c rh t) fun _ u => c.refl u

theorem setPair_rel (c : CarriesLoads R) (s : State) (rl rh : Reg) (w : Word) : R s (s.setPair rl rh w) :=
  c.trans _ _ _ (c.setReg s rl _) (c.setReg _ rh _)

theorem moveSp_rel (c : CarriesLoads R) (t : Int) (s : State) : (moveSp t s).Rel R s := by
  unfold moveSp; split
  · exact setPair_rel c s _ _ _
  · exact raise_rel c _ _ s

theorem memRead_rel (c : CarriesLoads R) (a : Int) (s : State) : (memRead a s).Rel R s := by
  unfold memRead
  split
  · exact raise_rel c _ _ s
  · split
    · next h1 h2 => exact c.afterGet s a.toNat (by omega) h2
    · split
      · exact raise_rel c _ _ s
      · exact c.refl s

theorem writeAt_rel (c : CarriesStores R) (s : State) (a : Nat) (v : Byte) (h : a < 65536) : R s (s.writeAt a v) := by
  unfold State.writeAt
  split
  · next h2 => exact c.ioSet s a v h h2
  · next h2 => exact c.store s a v h (by simpa using h2)

theorem memWrite_rel (c : CarriesStores R) (a : Int) (v : Byte) (s : State) : (memWrite a v s).Rel R s := by
  unfold memWrite
  split
  · exact raise_rel c.toCarriesLoads _ _ s
  · next h => exact writeAt_rel c s a.toNat v (by omega)

theorem push_rel (c : CarriesStores R) (v : Byte) (s : State) : (push v s).Rel R s :=
  Res.andThen_rel c.trans (readPair_rel c.toCarriesLoads _ _ s) fun _ t =>
    Res.andThen_rel c.trans (memWrite_rel c _ v t) fun _ u => moveSp_rel c.toCarriesLoads _ u

theorem pop_rel (c : CarriesLoads R) (s : State) : (pop s).Rel R s :=
  Res.andThen_rel c.trans (readPair_rel c _ _ s) fun _ t =>
    Res.andThen_rel c.trans (moveSp_rel c _ t) fun _ u => memRead_rel c _ u

theorem loadInto_rel (c : CarriesLoads R) (r : Reg) (a : Int) (s : State) : (loadInto r a s).Rel R s :=
  Res.andThen_rel c.trans (memRead_rel c a s) fun v t => c.setReg t r v

theorem storeFrom_rel (c : CarriesStores R) (r : Reg) (a : Int) (s : State) : (storeFrom r a s).Rel R s :=
  Res.andThen_rel c.trans (readReg_rel c.toCarriesLoads r s) fun v t => memWrite_rel c a v t

theorem slotOperand_rel (c : CarriesLoads R) (off : Byte) (s : State) : (slotOperand off s).Rel R s :=
  Res.andThen_rel c.trans (readPair_rel c _ _ s) fun _ t => c.refl t

theorem readTwo_rel (c : CarriesLoads R) (rd rs : Reg) (s : State) : (readTwo rd rs s).Rel R s :=
  Res.andThen_rel c.trans (readReg_rel c rd s) fun _ t =>
    Res.andThen_rel c.trans (readReg_rel c rs t) fun _ u => c.refl u

theorem jumpIf_rel (c : CarriesLoads R) (f : Flag) (b : Bool) (w : Word) (s : State) : (jumpIf f b w s).Rel R s :=
  Res.andThen_rel c.trans (readFlag_rel c f s) fun v t => by
    show R t (if v == b then t.setPc w else t)
    split
    · exact setPair_rel c t _ _ w
    · exact c.refl t

theorem call_rel (c : CarriesStores R) (w : Word) (s : State) : (call w s).Rel R s :=
  Res.andThen_rel c.trans (readPair_rel c.toCarriesLoads _ _ s) fun _ t =>
    Res.andThen_rel c.trans (push_rel c _ t) fun _ u =>
      Res.andThen_rel c.trans (push_rel c _ u) fun _ x => setPair_rel c.toCarriesLoads x _ _ w

theorem setResult_rel (c : CarriesArith R) (s : State) (r : Reg) (t : Int) : R s (s.setResult r t) :=
  c.trans _ _ _ (c.setReg s r _) (c.setFlags _ t)

theorem alu1_rel (c : CarriesArith R) (f : Int → Int) (r : Reg) (s : State) : (alu1 f r s).Rel R s :=
  Res.andThen_rel c.trans (readReg_rel c.toCarriesLoads r s) fun _ t => setResult_rel c t r _

theorem alu2_rel (c : CarriesArith R) (f : Int → Int → Int) (rd rs : Reg) (s : State) : (alu2 f rd rs s).Rel R s :=
  Res.andThen_rel c.trans (readTwo_rel c.toCarriesLoads rd rs s) fun _ t => setResult_rel c t rd _

theorem shift_rel (c : CarriesArith R) (f : Nat → Nat → Nat) (rd rs : Reg) (s : State) : (shift f rd rs s).Rel R s :=
  Res.andThen_rel c.trans (readTwo_rel c.toCarriesLoads rd rs s) fun xy t => by
    refine c.trans t _ _ ?_ (c.undefFlags _)
    split
    · exact c.setReg t rd _
    · exact c.undefReg t rd

theorem counter_rel (c : CarriesArith R) (f : Word → Word) (rl rh : Reg) (s : State) : (counter f rl rh s).Rel R s :=
  Res.andThen_rel c.trans (readPair_rel c.toCarriesLoads rl rh s) fun w t => by
    refine c.trans t _ _ ?_ (c.undefFlags _)
    split
    · exact c.undefReg t rl
    · exact setPair_rel c.toCarriesLoads t rl rh _

/-! ### Instructions -/

/-- The mnemonics that store (20_memory.md R47). -/
def storing : List Mnemonic := [.sec, .ser, .psh, .ofs, .clc, .clr]

/-- The mnemonics of the arithmetic family (44_arithmetic.md). -/
def arithmetic : List Mnemonic := [.inc, .dec, .add, .sub, .mul, .shl, .shr, .inl, .del]

/-- An instruction that is no store, no arithmetic and not `hlt` makes only moves and loads. -/
theorem exec_loads_rel (c : CarriesLoads R) (i : Instr) (s t : State) (h : exec i s = .next t)
    (hs : i.mnemonic ∉ storing) (ha : i.mnemonic ∉ arithmetic) (hh : i ≠ .hlt) : R s t := by
  cases i <;> simp only [Instr.mnemonic, storing, arithmetic, List.mem_cons, List.not_mem_nil, not_or, ne_eq,
    reduceCtorEq, not_true_eq_false, not_false_eq_true, or_false, and_false] at hs ha hh
  case num r i => cases h; exact c.setReg s r i
  case mov rd rs => exact Res.rel_of_outcome (Res.andThen_rel c.trans (readReg_rel c rs s) fun v t => done_rel (c.setReg t rd v)) h
  case jmp lo hi => cases h; exact setPair_rel c s _ _ _
  case jin rl rh =>
    exact Res.rel_of_outcome (Res.andThen_rel c.trans (readPair_rel c rl rh s) fun w t => done_rel (setPair_rel c t _ _ w)) h
  case jiz lo hi => exact Res.rel_of_outcome (jumpIf_rel c _ _ _ s) h
  case jnz lo hi => exact Res.rel_of_outcome (jumpIf_rel c _ _ _ s) h
  case jic lo hi => exact Res.rel_of_outcome (jumpIf_rel c _ _ _ s) h
  case jnc lo hi => exact Res.rel_of_outcome (jumpIf_rel c _ _ _ s) h
  case ret =>
    exact Res.rel_of_outcome (Res.andThen_rel c.trans (pop_rel c s) fun _ t =>
      Res.andThen_rel c.trans (pop_rel c t) fun _ u => done_rel (setPair_rel c u _ _ _)) h
  case alc n =>
    exact Res.rel_of_outcome (Res.andThen_rel c.trans (readPair_rel c _ _ s) fun _ t => moveSp_rel c _ t) h
  case eat n =>
    exact Res.rel_of_outcome (Res.andThen_rel c.trans (readPair_rel c _ _ s) fun _ t => moveSp_rel c _ t) h
  case ofg r off =>
    exact Res.rel_of_outcome (Res.andThen_rel c.trans (slotOperand_rel c off s) fun a t => loadInto_rel c r a t) h
  case pop r => exact Res.rel_of_outcome (Res.andThen_rel c.trans (pop_rel c s) fun v t => done_rel (c.setReg t r v)) h
  case gec lo hi => exact Res.rel_of_outcome (loadInto_rel c _ _ s) h
  case ger rl rh =>
    exact Res.rel_of_outcome (Res.andThen_rel c.trans (readPair_rel c rl rh s) fun _ t => loadInto_rel c _ _ t) h

/-- A storing instruction. -/
theorem exec_stores_rel (c : CarriesStores R) (i : Instr) (s t : State) (h : exec i s = .next t)
    (ha : i.mnemonic ∉ arithmetic) (hh : i ≠ .hlt) : R s t := by
  by_cases hs : i.mnemonic ∈ storing
  · cases i <;> simp [Instr.mnemonic, storing] at hs
    case sec lo hi => exact Res.rel_of_outcome (storeFrom_rel c _ _ s) h
    case ser rl rh =>
      exact Res.rel_of_outcome (Res.andThen_rel c.trans (readPair_rel c.toCarriesLoads rl rh s) fun _ t =>
        storeFrom_rel c _ _ t) h
    case psh r =>
      exact Res.rel_of_outcome (Res.andThen_rel c.trans (readReg_rel c.toCarriesLoads r s) fun v t => push_rel c v t) h
    case ofs r off =>
      exact Res.rel_of_outcome (Res.andThen_rel c.trans (slotOperand_rel c.toCarriesLoads off s) fun a t =>
        storeFrom_rel c r a t) h
    case clc lo hi => exact Res.rel_of_outcome (call_rel c _ s) h
    case clr rl rh =>
      exact Res.rel_of_outcome (Res.andThen_rel c.trans (readPair_rel c.toCarriesLoads rl rh s) fun _ t =>
        call_rel c _ t) h
  · exact exec_loads_rel c.toCarriesLoads i s t h hs ha hh

/-- An instruction that stores nothing and is not `hlt`. -/
theorem exec_arith_rel (c : CarriesArith R) (i : Instr) (s t : State) (h : exec i s = .next t)
    (hs : i.mnemonic ∉ storing) (hh : i ≠ .hlt) : R s t := by
  by_cases ha : i.mnemonic ∈ arithmetic
  · cases i <;> simp [Instr.mnemonic, arithmetic] at ha
    case inc r => exact Res.rel_of_outcome (alu1_rel c _ r s) h
    case dec r => exact Res.rel_of_outcome (alu1_rel c _ r s) h
    case add rd rs => exact Res.rel_of_outcome (alu2_rel c _ rd rs s) h
    case sub rd rs => exact Res.rel_of_outcome (alu2_rel c _ rd rs s) h
    case mul rd rs => exact Res.rel_of_outcome (alu2_rel c _ rd rs s) h
    case shl rd rs => exact Res.rel_of_outcome (shift_rel c _ rd rs s) h
    case shr rd rs => exact Res.rel_of_outcome (shift_rel c _ rd rs s) h
    case inl rl rh => exact Res.rel_of_outcome (counter_rel c _ rl rh s) h
    case del rl rh => exact Res.rel_of_outcome (counter_rel c _ rl rh s) h
  · exact exec_loads_rel c.toCarriesLoads i s t h hs ha hh

/-- Every instruction answers a next state: none stops the machine with a fault or a refusal. -/
theorem exec_answers_next (i : Instr) (s : State) : ∃ t, exec i s = .next t := by
  have key : ∀ {α : Type} (x : Res α), ∃ t, x.outcome = .next t := fun x => by
    cases x with
    | done _ t => exact ⟨t, rfl⟩
    | raised t => exact ⟨t, rfl⟩
  cases i <;> first | exact ⟨_, rfl⟩ | exact key _

/-- Every instruction. -/
theorem exec_rel (c : CarriesAll R) (i : Instr) (s t : State) (h : exec i s = .next t) : R s t := by
  by_cases hh : i = .hlt
  · subst hh; cases h; exact c.halt s
  · by_cases ha : i.mnemonic ∈ arithmetic
    · refine exec_arith_rel c.toCarriesArith i s t h ?_ hh
      intro hs
      revert ha hs
      cases i <;> simp [Instr.mnemonic, arithmetic, storing]
    · exact exec_stores_rel c.toCarriesStores i s t h ha hh

/-! ### Fetch and step -/

theorem fetchByte_rel (c : CarriesLoads R) (s : State) : (fetchByte s).Rel R s :=
  Res.andThen_rel c.trans (memRead_rel c _ s) fun _ t => by
    split
    · exact raise_rel c _ _ t
    · exact setPair_rel c t _ _ _

theorem fetchBytes_rel (c : CarriesLoads R) (n : Nat) (s : State) : (fetchBytes n s).Rel R s := by
  induction n generalizing s with
  | zero => exact c.refl s
  | succ n ih =>
    exact Res.andThen_rel c.trans (fetchByte_rel c s) fun _ t =>
      Res.andThen_rel c.trans (ih t) fun _ u => c.refl u

theorem fetch_rel (c : CarriesAll R) (s : State) : (fetch s).Rel R s := by
  have hl : (latchPc s).Rel R s := by
    have h := readPair_rel c.toCarriesLoads .ipl .iph { s with pc0 := s.pc }
    unfold latchPc readPc
    cases hr : readPair .ipl .iph { s with pc0 := s.pc } with
    | done w t => rw [hr] at h; exact c.trans _ _ _ (c.latch s s.pc) h
    | raised t => rw [hr] at h; exact c.trans _ _ _ (c.latch s s.pc) h
  refine Res.andThen_rel c.trans hl fun _ t => Res.andThen_rel c.trans (fetchByte_rel c.toCarriesLoads t) fun op u => ?_
  split
  · exact raise_rel c.toCarriesLoads _ _ u
  · refine Res.andThen_rel c.trans (fetchBytes_rel c.toCarriesLoads _ u) fun bs x => ?_
    split
    · exact raise_rel c.toCarriesLoads _ _ x
    · exact c.refl x

/-- A step that answers a next state ran: the machine was running, and either its fetch raised, or it fetched an
instruction and executed it. -/
theorem step_inv {s t : State} (h : step s = .next t) :
    s.running = true ∧ (fetch s = .raised t ∨ ∃ i u, fetch s = .done i u ∧ exec i u = .next t) := by
  unfold step at h
  split at h
  · cases h
  · next hl =>
    split at h
    · cases h
    · next hf =>
      split at h
      · cases h
      · next hh =>
        refine ⟨by simp [State.running, hf, hh]; simpa using hl, ?_⟩
        cases hfe : fetch s with
        | done i u => rw [hfe] at h; exact .inr ⟨i, u, rfl, h⟩
        | raised u => rw [hfe] at h; cases h; exact .inl rfl

/-- A running machine fetches and executes. -/
theorem step_running {s : State} (h : s.running = true) : step s = runFetched (fetch s) := by
  simp only [State.running, Bool.and_eq_true, Bool.not_eq_true', Option.isNone_iff_eq_none] at h
  obtain ⟨⟨h1, h2⟩, h3⟩ := h
  simp [step, h1, h2, h3]

/-- Every step. -/
theorem step_rel (c : CarriesAll R) (s t : State) (h : step s = .next t) : R s t := by
  have hf := fetch_rel c s
  rcases (step_inv h).2 with h1 | ⟨i, u, h1, h2⟩
  · rw [h1] at hf; exact hf
  · rw [h1] at hf; exact c.trans _ _ _ hf (exec_rel c i u t h2)

end Sys2Proof.Machine
end

