-- ==== Sys2Proof/Tests/Slice0.lean ====
section
/-! SUPPORT. Tests. Words are written out from the encodings of 30_encoding.md and the examples of the rules R85 to R117;
expected results are those of the rules' own examples and corner cases and of 95_test_vectors.md, never the model's own
answers. Each `witness_` theorem shows states and operands that meet the hypotheses of the statement it names. -/

namespace Sys2Proof.Tests

open Sys2Proof Sys2Proof.Machine

/-! ### Well-formed spellings (30_encoding.md R60, R62, R68) -/

theorem test_wf_num : RawInstr.wellFormed Codes.decided ⟨.num, [1#8, 10#8]⟩ = true := by decide
theorem test_wf_immediate_of_any_byte : RawInstr.wellFormed Codes.decided ⟨.jmp, [255#8, 255#8]⟩ = true := by decide
theorem test_wf_last_register : RawInstr.wellFormed Codes.decided ⟨.mov, [8#8, 0#8]⟩ = true := by decide
theorem test_wf_too_few : RawInstr.countOk ⟨.num, [1#8]⟩ = false := by decide
theorem test_wf_too_many : RawInstr.countOk ⟨.hlt, [0#8]⟩ = false := by decide
theorem test_wf_too_few_refused : RawInstr.wellFormed Codes.decided ⟨.num, [1#8]⟩ = false := by decide
theorem test_wf_bad_first_register : RawInstr.operandsOk Codes.decided ⟨.inc, [9#8]⟩ = false := by decide
theorem test_wf_bad_second_register : RawInstr.operandsOk Codes.decided ⟨.mov, [0#8, 255#8]⟩ = false := by decide
theorem test_wf_bad_register_refused : RawInstr.wellFormed Codes.decided ⟨.mov, [0#8, 9#8]⟩ = false := by decide

/-! ### Every constructor's word, written out from its rule's `Encoding` line or example -/

theorem test_decode_num : decode Codes.decided [0x00#8, 0x01#8, 0x0A#8] = .ok (.num .b 10#8, []) := by decide
theorem test_decode_mov : decode Codes.decided [0x01#8, 0x04#8, 0x00#8] = .ok (.mov .m .a, []) := by decide
theorem test_decode_jmp : decode Codes.decided [0x02#8, 0x1C#8, 0x00#8] = .ok (.jmp 0x1C#8 0x00#8, []) := by decide
theorem test_decode_jin : decode Codes.decided [0x03#8, 0x02#8, 0x03#8] = .ok (.jin .c .d, []) := by decide
theorem test_decode_jiz : decode Codes.decided [0x04#8, 0x2C#8, 0x00#8] = .ok (.jiz 0x2C#8 0x00#8, []) := by decide
theorem test_decode_jnz : decode Codes.decided [0x05#8, 0x06#8, 0x00#8] = .ok (.jnz 0x06#8 0x00#8, []) := by decide
theorem test_decode_jic : decode Codes.decided [0x06#8, 0x00#8, 0x02#8] = .ok (.jic 0x00#8 0x02#8, []) := by decide
theorem test_decode_jnc : decode Codes.decided [0x07#8, 0x22#8, 0x00#8] = .ok (.jnc 0x22#8 0x00#8, []) := by decide
theorem test_decode_clc : decode Codes.decided [0x08#8, 0x21#8, 0x00#8] = .ok (.clc 0x21#8 0x00#8, []) := by decide
theorem test_decode_clr : decode Codes.decided [0x09#8, 0x02#8, 0x03#8] = .ok (.clr .c .d, []) := by decide
theorem test_decode_ret : decode Codes.decided [0x0A#8, 0x55#8] = .ok (.ret, [0x55#8]) := by decide
theorem test_decode_alc : decode Codes.decided [0x0B#8, 0x04#8] = .ok (.alc 4#8, []) := by decide
theorem test_decode_eat : decode Codes.decided [0x0C#8, 0x01#8] = .ok (.eat 1#8, []) := by decide
theorem test_decode_ofg : decode Codes.decided [0x0D#8, 0x00#8, 0x02#8] = .ok (.ofg .a 2#8, []) := by decide
theorem test_decode_ofs : decode Codes.decided [0x0E#8, 0x01#8, 0x02#8] = .ok (.ofs .b 2#8, []) := by decide
theorem test_decode_pop : decode Codes.decided [0x0F#8, 0x01#8] = .ok (.pop .b, []) := by decide
theorem test_decode_psh : decode Codes.decided [0x10#8, 0x00#8] = .ok (.psh .a, []) := by decide
theorem test_decode_gec : decode Codes.decided [0x11#8, 0x00#8, 0x03#8] = .ok (.gec 0x00#8 0x03#8, []) := by decide
theorem test_decode_sec : decode Codes.decided [0x12#8, 0x00#8, 0x03#8] = .ok (.sec 0x00#8 0x03#8, []) := by decide
theorem test_decode_ger : decode Codes.decided [0x13#8, 0x02#8, 0x03#8] = .ok (.ger .c .d, []) := by decide
theorem test_decode_ser : decode Codes.decided [0x14#8, 0x02#8, 0x03#8] = .ok (.ser .c .d, []) := by decide
theorem test_decode_inc : decode Codes.decided [0x15#8, 0x05#8] = .ok (.inc .ipl, []) := by decide
theorem test_decode_dec : decode Codes.decided [0x16#8, 0x01#8] = .ok (.dec .b, []) := by decide
theorem test_decode_add : decode Codes.decided [0x17#8, 0x07#8, 0x08#8] = .ok (.add .spl .sph, []) := by decide
theorem test_decode_sub : decode Codes.decided [0x18#8, 0x03#8, 0x01#8] = .ok (.sub .d .b, []) := by decide
theorem test_decode_mul : decode Codes.decided [0x19#8, 0x02#8, 0x06#8] = .ok (.mul .c .iph, []) := by decide
theorem test_decode_shl : decode Codes.decided [0x1A#8, 0x00#8, 0x01#8] = .ok (.shl .a .b, []) := by decide
theorem test_decode_shr : decode Codes.decided [0x1B#8, 0x04#8, 0x01#8] = .ok (.shr .m .b, []) := by decide
theorem test_decode_inl : decode Codes.decided [0x1C#8, 0x02#8, 0x03#8] = .ok (.inl .c .d, []) := by decide
theorem test_decode_del : decode Codes.decided [0x1D#8, 0x02#8, 0x03#8] = .ok (.del .c .d, []) := by decide
theorem test_decode_hlt : decode Codes.decided [0x1E#8] = .ok (.hlt, []) := by decide

/-- The first bad REGISTER byte is the one named (30_encoding.md R68). -/
theorem test_decode_first_bad_register : decode Codes.decided [0x01#8, 0x09#8, 0xFF#8] = .error (.invalidRegister 0x09#8) := by decide
theorem test_decode_second_bad_register : decode Codes.decided [0x01#8, 0x08#8, 0xFF#8] = .error (.invalidRegister 0xFF#8) := by decide
theorem test_decode_illegal : decode Codes.decided [0x1F#8] = .error (.invalidOpcode 0x1F#8) := by decide
theorem test_decode_truncated : decode Codes.decided [0x00#8, 0x09#8] = .error .truncated := by decide
theorem test_table_word : decodeTableWord 24 0x0A0100 = some (.num .b 10#8) := by decide

/-- Numbers in which `num` and `hlt` have each other's opcode byte and A and SPH each other's index (00_scope.md R5: the
numbers are parameters). -/
def swapped : Codes where
  opcodes := { decidedOpcodes with num := 0x1E#8, hlt := 0x00#8 }
  registers := { decidedRegisters with a := 8#8, sph := 0#8 }

theorem test_other_codes_distinct : swapped.distinct = true := by decide
theorem test_equal_codes_are_no_table :
    Codes.distinct { swapped with registers := { decidedRegisters with a := 1#8 } } = false := by decide
theorem test_other_codes_decode : decode swapped [0x1E#8, 0x00#8, 0x0A#8] = .ok (.num .sph 10#8, []) := by decide
theorem test_other_codes_encode : encode swapped (.mov .a .b) = [0x01#8, 0x08#8, 0x01#8] := by decide
theorem test_other_codes_well_formed :
    RawInstr.wellFormed { swapped with registers := { decidedRegisters with a := 200#8 } } ⟨.inc, [200#8]⟩ = true ∧
    RawInstr.wellFormed { swapped with registers := { decidedRegisters with a := 200#8 } } ⟨.inc, [0#8]⟩ = false := by
  decide

/-! ### Small states -/

/-- A running CPU under the spec's reading of `undef`, with IP, SP, A to D and M defined, both flags defined and false,
and the given storage; the window is at 0xF000. -/
def cpu (ip sp : Word) (a b c d m : Byte) (mem : Memory) : State :=
  { State.reset with
    cfg := { codes := Codes.decided, ioBase := 0xF000#16, trapUndef := true }
    regs := { a := ⟨a, true⟩, b := ⟨b, true⟩, c := ⟨c, true⟩, d := ⟨d, true⟩, m := ⟨m, true⟩,
              ipl := ⟨loByte ip, true⟩, iph := ⟨hiByte ip, true⟩, spl := ⟨loByte sp, true⟩, sph := ⟨hiByte sp, true⟩ }
    zero := ⟨false, true⟩
    carry := ⟨false, true⟩
    mem := mem
    loaded := true }

/-- The state one step leads to, if it answers one. -/
def after (s : State) : Option State :=
  match step s with
  | .next t => some t
  | _ => none

/-- An answer that is a next state. -/
def accepted (o : Host.Outcome State Fault Refusal) : Bool :=
  match o with
  | .next _ => true
  | _ => false

/-- The flags, Z then C, of a state. -/
def flagsOf (s : State) : Held Bool × Held Bool := (s.zero, s.carry)

/-- A defined byte. -/
def d8 (b : Byte) : Held Byte := ⟨b, true⟩

/-- Two defined flags. -/
def zc (z c : Bool) : Held Bool × Held Bool := (⟨z, true⟩, ⟨c, true⟩)

/-! ### One step of every instruction: the examples and corner cases of its rule -/

theorem test_num : (after (cpu 0x10 0 0 0 0 0 0 [(0x10, 0x00#8), (0x11, 0x01#8), (0x12, 0x0A#8)])).map
    (fun t => (t.regs.b, t.pc, flagsOf t)) = some (d8 10, 0x13, zc false false) := by decide
/-- R85: `num IPL` replaces the low byte of the next-instruction address. -/
theorem test_num_ipl : (after (cpu 0x0110 0 0 0 0 0 0 [(0x110, 0x00#8), (0x111, 0x05#8), (0x112, 0x80#8)])).map State.pc
    = some 0x0180 := by decide
theorem test_mov : (after (cpu 0x10 0 7 0 0 0 0 [(0x10, 0x01#8), (0x11, 0x04#8), (0x12, 0x00#8)])).map
    (fun t => (t.regs.m, t.regs.a)) = some (d8 7, d8 7) := by decide
/-- R86: `mov A IPL` gives the low byte of `pc0 + 3`. -/
theorem test_mov_ipl : (after (cpu 0x10 0 7 0 0 0 0 [(0x10, 0x01#8), (0x11, 0x00#8), (0x12, 0x05#8)])).map
    (fun t => t.regs.a) = some (d8 0x13) := by decide
theorem test_jmp : (after (cpu 0x10 0 0 0 0 0 0 [(0x10, 0x02#8), (0x11, 0x1C#8), (0x12, 0x00#8)])).map State.pc
    = some 0x001C := by decide
theorem test_jin : (after (cpu 0x10 0 0 0 0x34 0x12 0 [(0x10, 0x03#8), (0x11, 0x02#8), (0x12, 0x03#8)])).map State.pc
    = some 0x1234 := by decide
theorem test_jiz_taken : (after { cpu 0x10 0 0 0 0 0 0 [(0x10, 0x04#8), (0x11, 0x2C#8), (0x12, 0x00#8)] with
    zero := ⟨true, true⟩ }).map State.pc = some 0x002C := by decide
theorem test_jiz_not_taken : (after (cpu 0x10 0 0 0 0 0 0 [(0x10, 0x04#8), (0x11, 0x2C#8), (0x12, 0x00#8)])).map State.pc
    = some 0x0013 := by decide
theorem test_jnz_taken : (after (cpu 0x10 0 0 0 0 0 0 [(0x10, 0x05#8), (0x11, 0x06#8), (0x12, 0x00#8)])).map State.pc
    = some 0x0006 := by decide
theorem test_jnz_not_taken : (after { cpu 0x10 0 0 0 0 0 0 [(0x10, 0x05#8), (0x11, 0x06#8), (0x12, 0x00#8)] with
    zero := ⟨true, true⟩ }).map State.pc = some 0x0013 := by decide
theorem test_jic_taken : (after { cpu 0x10 0 0 0 0 0 0 [(0x10, 0x06#8), (0x11, 0x00#8), (0x12, 0x02#8)] with
    carry := ⟨true, true⟩ }).map State.pc = some 0x0200 := by decide
theorem test_jic_reads_carry : (after { cpu 0x10 0 0 0 0 0 0 [(0x10, 0x06#8), (0x11, 0x00#8), (0x12, 0x02#8)] with
    zero := ⟨true, true⟩ }).map State.pc = some 0x0013 := by decide
theorem test_jnc_not_taken : (after { cpu 0x19 0 0 0 0 0 0 [(0x19, 0x07#8), (0x1A, 0x22#8), (0x1B, 0x00#8)] with
    carry := ⟨true, true⟩ }).map State.pc = some 0x001C := by decide
theorem test_jnc_taken : (after { cpu 0x19 0 0 0 0 0 0 [(0x19, 0x07#8), (0x1A, 0x22#8), (0x1B, 0x00#8)] with
    zero := ⟨true, true⟩ }).map State.pc = some 0x0022 := by decide
theorem test_clc : (after (cpu 0x1B 0x0201 0 0 0 0 0 [(0x1B, 0x08#8), (0x1C, 0x21#8), (0x1D, 0x00#8)])).map
    (fun t => (t.mem.read 0x201, t.mem.read 0x202, t.sp, t.pc)) = some (some 0x1E, some 0x00, 0x0203, 0x0021) := by decide
theorem test_clr : (after (cpu 0x10 0x0300 0 0 0x40 0 0 [(0x10, 0x09#8), (0x11, 0x02#8), (0x12, 0x03#8)])).map
    (fun t => (t.mem.read 0x300, t.mem.read 0x301, t.sp, t.pc)) = some (some 0x13, some 0x00, 0x0302, 0x0040) := by decide
/-- R94: `clr SPL SPH` calls the address SP held before the call. -/
theorem test_clr_sp : (after (cpu 0x10 0x0300 0 0 0 0 0 [(0x10, 0x09#8), (0x11, 0x07#8), (0x12, 0x08#8)])).map
    (fun t => (t.sp, t.pc)) = some (0x0302, 0x0300) := by decide
theorem test_ret : (after (cpu 0x10 0x0203 0 0 0 0 0 [(0x10, 0x0A#8), (0x201, 0x1E#8), (0x202, 0x05#8)])).map
    (fun t => (t.sp, t.pc)) = some (0x0201, 0x051E) := by decide
theorem test_alc : (after (cpu 0x10 0x0200 0 0 0 0 0 [(0x10, 0x0B#8), (0x11, 0x04#8)])).map State.sp = some 0x0204 := by
  decide
/-- R97, R24: SP + n above 0xFFFF raises with the sum. -/
theorem test_alc_past_top : (after (cpu 0x10 0xFFFF 0 0 0 0 0 [(0x10, 0x0B#8), (0x11, 0x02#8)])).map
    (fun t => (t.fault, t.sp)) = some (some ⟨.addressOutOfRange, 0x10, .address 0x10001⟩, 0xFFFF) := by decide
theorem test_eat : (after (cpu 0x10 0x0201 0 0 0 0 0 [(0x10, 0x0C#8), (0x11, 0x01#8)])).map State.sp = some 0x0200 := by
  decide
theorem test_eat_below_zero : (after (cpu 0x10 0x0002 0 0 0 0 0 [(0x10, 0x0C#8), (0x11, 0x03#8)])).map
    (fun t => t.fault) = some (some ⟨.addressOutOfRange, 0x10, .address (-1)⟩) := by decide
theorem test_ofg : (after (cpu 0x10 0x0203 0 0 0 0 0 [(0x10, 0x0D#8), (0x11, 0x00#8), (0x12, 0x02#8), (0x200, 0x05#8)])).map
    (fun t => (t.regs.a, t.sp)) = some (d8 5, 0x0203) := by decide
/-- R99: off >= SP raises with the negative address. -/
theorem test_ofg_below_zero : (after (cpu 0x10 0x0002 0 0 0 0 0 [(0x10, 0x0D#8), (0x11, 0x00#8), (0x12, 0x02#8)])).map
    (fun t => t.fault) = some (some ⟨.addressOutOfRange, 0x10, .address (-1)⟩) := by decide
theorem test_ofs : (after (cpu 0x10 0x0203 0 9 0 0 0 [(0x10, 0x0E#8), (0x11, 0x01#8), (0x12, 0x02#8)])).map
    (fun t => (t.mem.read 0x200, t.sp)) = some (some 9, 0x0203) := by decide
theorem test_pop : (after (cpu 0x10 0x0201 0 0 0 0 0 [(0x10, 0x0F#8), (0x11, 0x01#8), (0x200, 0x05#8)])).map
    (fun t => (t.regs.b, t.sp)) = some (d8 5, 0x0200) := by decide
/-- R101: `pop SPL` with SP = 0x0201 and 0x77 on top leaves SP = 0x0277. -/
theorem test_pop_spl : (after (cpu 0x10 0x0201 0 0 0 0 0 [(0x10, 0x0F#8), (0x11, 0x07#8), (0x200, 0x77#8)])).map State.sp
    = some 0x0277 := by decide
theorem test_psh : (after (cpu 0x10 0x0200 5 0 0 0 0 [(0x10, 0x10#8), (0x11, 0x00#8)])).map
    (fun t => (t.mem.read 0x200, t.sp)) = some (some 5, 0x0201) := by decide
/-- R102: at SP = 0xFFFF the byte is written before the error; 0xFFFF lies in the window here (20_memory.md R45). -/
theorem test_psh_top : (after (cpu 0x10 0xFFFF 5 0 0 0 0 [(0x10, 0x10#8), (0x11, 0x00#8)])).map
    (fun t => (t.fault, t.ioLog)) = some (some ⟨.addressOutOfRange, 0x10, .address 0x10000⟩, [.set 0xFFF 5]) := by decide
theorem test_gec : (after (cpu 0x10 0 0 0 0 0 0 [(0x10, 0x11#8), (0x11, 0x00#8), (0x12, 0x03#8), (0x300, 0x2C#8)])).map
    (fun t => t.regs.m) = some (d8 44) := by decide
theorem test_gec_unwritten : (after (cpu 0x10 0 0 0 0 0 0 [(0x10, 0x11#8), (0x11, 0x00#8), (0x12, 0x03#8)])).map
    (fun t => t.fault) = some (some ⟨.undefinedRead, 0x10, .address 0x300⟩) := by decide
theorem test_sec : (after (cpu 0x10 0 0 0 0 0 44 [(0x10, 0x12#8), (0x11, 0x00#8), (0x12, 0x03#8)])).map
    (fun t => t.mem.read 0x300) = some (some 44) := by decide
/-- 20_memory.md R45: a store into the window is an `ioSet` of the offset and leaves storage as it was. -/
theorem test_sec_window : (after (cpu 0x10 0 0 0 0 0 44 [(0x10, 0x12#8), (0x11, 0x34#8), (0x12, 0xF2#8)])).map
    (fun t => (t.mem.read 0xF234, t.ioLog)) = some (none, [.set 0x234 44]) := by decide
theorem test_ger : (after (cpu 0x10 0 0 0 0x05 0x01 0 [(0x10, 0x13#8), (0x11, 0x02#8), (0x12, 0x03#8), (0x105, 0x05#8)])).map
    (fun t => t.regs.m) = some (d8 5) := by decide
/-- R105: `ger M D` uses M's old value as the low byte. -/
theorem test_ger_m : (after (cpu 0x10 0 0 0 0 0x01 0x06 [(0x10, 0x13#8), (0x11, 0x04#8), (0x12, 0x03#8), (0x106, 0x08#8)])).map
    (fun t => t.regs.m) = some (d8 8) := by decide
theorem test_ser : (after (cpu 0x10 0 0 0 0 0x01 0 [(0x10, 0x14#8), (0x11, 0x02#8), (0x12, 0x03#8)])).map
    (fun t => t.mem.read 0x100) = some (some 0) := by decide
theorem test_inc : (after (cpu 0x10 0 9 0 0 0 0 [(0x10, 0x15#8), (0x11, 0x00#8)])).map
    (fun t => (t.regs.a, flagsOf t)) = some (d8 10, zc false false) := by decide
theorem test_inc_wraps : (after (cpu 0x10 0x02FF 0 0 0 0 0 [(0x10, 0x15#8), (0x11, 0x07#8)])).map
    (fun t => (t.sp, flagsOf t)) = some (0x0200, zc true true) := by decide
theorem test_dec_to_zero : (after (cpu 0x10 0 0 1 0 0 0 [(0x10, 0x16#8), (0x11, 0x01#8)])).map
    (fun t => (t.regs.b, flagsOf t)) = some (d8 0, zc true false) := by decide
theorem test_dec_wraps : (after (cpu 0x10 0 0 0 0 0 0 [(0x10, 0x16#8), (0x11, 0x01#8)])).map
    (fun t => (t.regs.b, flagsOf t)) = some (d8 255, zc false true) := by decide
theorem test_add : (after (cpu 0x10 0 200 100 0 0 0 [(0x10, 0x17#8), (0x11, 0x00#8), (0x12, 0x01#8)])).map
    (fun t => (t.regs.a, t.regs.b, flagsOf t)) = some (d8 44, d8 100, zc false true) := by decide
theorem test_add_wraps : (after (cpu 0x10 0 128 0 0 0 0 [(0x10, 0x17#8), (0x11, 0x00#8), (0x12, 0x00#8)])).map
    (fun t => (t.regs.a, flagsOf t)) = some (d8 0, zc true true) := by decide
theorem test_sub_borrow : (after (cpu 0x10 0 0 100 0 3 0 [(0x10, 0x18#8), (0x11, 0x03#8), (0x12, 0x01#8)])).map
    (fun t => (t.regs.d, flagsOf t)) = some (d8 159, zc false true) := by decide
theorem test_sub_equal : (after (cpu 0x10 0 5 5 0 0 0 [(0x10, 0x18#8), (0x11, 0x00#8), (0x12, 0x01#8)])).map
    (fun t => (t.regs.a, flagsOf t)) = some (d8 0, zc true false) := by decide
theorem test_mul : (after (cpu 0x10 0 0 0 16 0 0 [(0x10, 0x19#8), (0x11, 0x02#8), (0x12, 0x02#8)])).map
    (fun t => (t.regs.c, flagsOf t)) = some (d8 0, zc true true) := by decide
theorem test_mul_no_carry : (after (cpu 0x10 0 15 17 0 0 0 [(0x10, 0x19#8), (0x11, 0x00#8), (0x12, 0x01#8)])).map
    (fun t => (t.regs.a, flagsOf t)) = some (d8 255, zc false false) := by decide
theorem test_shl : (after (cpu 0x10 0 0x81 1 0 0 0 [(0x10, 0x1A#8), (0x11, 0x00#8), (0x12, 0x01#8)])).map
    (fun t => (t.regs.a, t.zero.isDef, t.carry.isDef)) = some (d8 0x02, false, false) := by decide
/-- R113: a count of 8 leaves the destination `undef`, and the machine goes on. -/
theorem test_shl_by_eight : (after (cpu 0x10 0 0x81 8 0 0 0 [(0x10, 0x1A#8), (0x11, 0x00#8), (0x12, 0x01#8)])).map
    (fun t => (t.regs.a.isDef, t.regs.b, t.fault, t.pc)) = some (false, d8 8, none, 0x13) := by decide
theorem test_shr : (after (cpu 0x10 0 0 2 0 0 44 [(0x10, 0x1B#8), (0x11, 0x04#8), (0x12, 0x01#8)])).map
    (fun t => (t.regs.m, t.zero.isDef)) = some (d8 11, false) := by decide
/-- R114: no sign bit is copied; n = 7 gives bit 7 of the old value. -/
theorem test_shr_is_logical : (after (cpu 0x10 0 0x80 7 0 0 0 [(0x10, 0x1B#8), (0x11, 0x00#8), (0x12, 0x01#8)])).map
    (fun t => t.regs.a) = some (d8 1) := by decide
theorem test_inl_carries : (after (cpu 0x10 0 0 0 0xFF 0x00 0 [(0x10, 0x1C#8), (0x11, 0x02#8), (0x12, 0x03#8)])).map
    (fun t => (t.regs.c, t.regs.d, t.zero.isDef)) = some (d8 0x00, d8 0x01, false) := by decide
/-- R115: `inl IPL IPH` makes IP = pc0 + 4. -/
theorem test_inl_ip : (after (cpu 0x10 0 0 0 0 0 0 [(0x10, 0x1C#8), (0x11, 0x05#8), (0x12, 0x06#8)])).map State.pc
    = some 0x14 := by decide
theorem test_del_borrows : (after (cpu 0x10 0 0 0 0x00 0x01 0 [(0x10, 0x1D#8), (0x11, 0x02#8), (0x12, 0x03#8)])).map
    (fun t => (t.regs.c, t.regs.d)) = some (d8 0xFF, d8 0x00) := by decide
theorem test_del_wraps_sp : (after (cpu 0x10 0 0 0 0 0 0 [(0x10, 0x1D#8), (0x11, 0x07#8), (0x12, 0x08#8)])).map
    (fun t => (t.sp, t.fault)) = some (0xFFFF, none) := by decide
/-- The decode ROM of the machine is what its step looks up. -/
theorem test_other_codes_step : (after { cpu 0x2C 0 0 0 0 0 0 [(0x2C, 0x00#8)] with
    cfg := { codes := swapped, ioBase := 0xF000#16, trapUndef := true } }).map (fun t => t.halted) = some true := by decide
theorem test_hlt : (after (cpu 0x2C 0 0 0 0 0 0 [(0x2C, 0x1E#8)])).map (fun t => (t.halted, t.pc)) = some (true, 0x2D) := by
  decide

/-! ### Witnesses: the hypotheses of the statements are met -/

/-- A CPU about to run `clc 0x0300`, with room on the stack. -/
def caller : State := cpu 0x10 0x0200 1 2 3 4 5 [(0x10, 0x08#8), (0x11, 0x00#8), (0x12, 0x03#8)]

/-- A CPU with one cell that reads as `undef` under the spec's reading. -/
def undefCell (r : Reg) : State := caller.setCell r ⟨0, false⟩

/-- A CPU whose IP lies in the I/O window. -/
def windowed : State := cpu 0xF010 0x0200 1 2 3 4 5 []

/-- The same CPU with the window at 0x1000 and the given storage. -/
def lowWindow (mem : Memory) : State := { caller with cfg := { caller.cfg with ioBase := 0x1000#16 }, mem := mem }

theorem witness_DecodeInvertsEncode : Codes.decided.distinct = true := by decide

theorem witness_EncodeInvertsDecode : decode Codes.decided [0x1E#8, 0x07#8] = .ok (.hlt, [0x07#8]) := by decide

theorem witness_OpcodeAloneFixesLength :
    decode Codes.decided [0x00#8, 0x08#8, 0xFF#8, 0x1F#8] = .ok (.num .sph 0xFF#8, [0x1F#8]) ∧
    decode Codes.decided [0x00#8, 0x08#8] = .error .truncated ∧ romLookup Codes.decided 0x00#8 = some .num := by decide

theorem witness_OpcodesAboveHltAreIllegal :
    decode Codes.decided [0x1F#8] = .error (.invalidOpcode 0x1F#8) ∧ 0x1F ≤ (0x1F#8).toNat ∧ ¬ 0x1F ≤ (0x1E#8).toNat ∧
    0x1F#8 ∉ Codes.decided.opcodeBytes ∧ 0x1E#8 ∈ Codes.decided.opcodeBytes ∧ 9#8 ∉ Codes.decided.registerBytes ∧
    8#8 ∈ Codes.decided.registerBytes := by decide

/-- One address for each clause and each end of its range: outside on both sides, the window's ends, the ends of the
storage below the window and above it, unwritten and written. -/
theorem witness_MemoryAccessFollowsDecoder :
    ((-1 : Int) < 0 ∨ (-1 : Int) > 0xFFFF) ∧ ((0x10000 : Int) < 0 ∨ (0x10000 : Int) > 0xFFFF) ∧
    (caller.cfg.ioBase.toNat ≤ 0xF000 ∧ 0xF000 ≤ caller.cfg.ioBase.toNat + 4095) ∧
    (caller.cfg.ioBase.toNat ≤ 0xFFFF ∧ 0xFFFF ≤ caller.cfg.ioBase.toNat + 4095) ∧
    (0xEFFF < caller.cfg.ioBase.toNat ∧ caller.mem.read 0xEFFF = none) ∧
    (0x10 < caller.cfg.ioBase.toNat ∧ caller.mem.read 0x10 = some 0x08#8) ∧ 0 < caller.cfg.ioBase.toNat ∧
    ((lowWindow []).cfg.ioBase.toNat + 4095 < 0x2000 ∧ (lowWindow []).mem.read 0x2000 = none) ∧
    ((lowWindow [(0xFFFF, 1#8)]).cfg.ioBase.toNat + 4095 < 0xFFFF ∧
      (lowWindow [(0xFFFF, 1#8)]).mem.read 0xFFFF = some 1#8) := by decide

theorem witness_AccessErrorsChangeNothingElse :
    (∃ t, memRead (-1) caller = .raised t) ∧ (∃ t, memWrite (-1) 7#8 caller = .raised t) ∧
    (∃ t, memRead 0x10 caller = .done 0x08#8 t) ∧ ∃ v t, memRead 0xF000 caller = .done v t :=
  ⟨⟨_, rfl⟩, ⟨_, rfl⟩, ⟨_, rfl⟩, ⟨_, _, rfl⟩⟩

theorem witness_StoreIsSeenByFetch :
    (0x0300#16).toNat < 0xFFFF ∧ caller.isIo (0x0300#16).toNat = false ∧
    memWrite (0x0300#16).toNat 7#8 caller = .done () (caller.store 0x0300 7#8) := by decide

theorem caller_inv : caller.Inv :=
  ⟨⟨by decide, by decide⟩, ⟨by decide, by decide⟩, (by decide : caller.cfg.codes.distinct = true), by decide, by decide⟩

theorem witness_StepKeepsInvariant : caller.Inv ∧ ∃ t, step caller = .next t :=
  ⟨caller_inv, _, rfl⟩

theorem witness_HostCallsKeepInvariant :
    caller.Inv ∧ accepted (loadProgram 2 [0x1E] caller) = true ∧ accepted (loadProgram 0xEFFF [0x1E] caller) = true :=
  ⟨caller_inv, by decide, by decide⟩

/-- At the last IP a three-byte instruction can have, too. -/
theorem witness_StepRunsDecodedInstruction :
    (caller.running = true ∧ caller.canReadPc ∧ decode Codes.decided [0x08#8, 0x00#8, 0x03#8] = .ok (.clc 0 3, []) ∧
      caller.pc.toNat + 3 ≤ 0xFFFF ∧ caller.holdsByte 0x10 0x08#8 ∧ caller.holdsByte 0x11 0x00#8 ∧
      caller.holdsByte 0x12 0x03#8) ∧
    (let s := { lowWindow [(0xFFFC, 0x00#8), (0xFFFD, 0x01#8), (0xFFFE, 0x02#8)] with regs := (caller.setPc 0xFFFC).regs }
     s.running = true ∧ s.canReadPc ∧ decode Codes.decided [0x00#8, 0x01#8, 0x02#8] = .ok (.num .b 2, []) ∧
      s.pc.toNat + 3 ≤ 0xFFFF ∧ s.holdsByte 0xFFFC 0x00#8 ∧ s.holdsByte 0xFFFD 0x01#8 ∧ s.holdsByte 0xFFFE 0x02#8) :=
  ⟨⟨rfl, ⟨rfl, rfl⟩, by decide, by decide, ⟨by decide, rfl, rfl⟩, ⟨by decide, rfl, rfl⟩, ⟨by decide, rfl, rfl⟩⟩,
   ⟨rfl, ⟨rfl, rfl⟩, by decide, by decide, ⟨by decide, rfl, rfl⟩, ⟨by decide, rfl, rfl⟩, ⟨by decide, rfl, rfl⟩⟩⟩

theorem witness_FetchWordRunsItsInstruction :
    decodeWord State.reset.cfg.codes 24 0x0A0100 = some (.num .b 10#8) ∧
    decodeTableWord 24 0x0A0100 = decodeWord State.reset.cfg.codes 24 0x0A0100 := by decide

/-- `withFetchWord` from reset: the very next step runs the word (log 10). -/
theorem test_withFetchWord : (after (State.reset.withFetchWord 24 0x0A0100)).map (fun t => (t.regs.b, t.fault)) =
    some (d8 10, none) := by decide

/-- `hlt` at 0xFFFF; and a three-byte instruction at 0xFFFD, with its bytes there or with only two of them in memory. -/
theorem witness_FetchPastTopRaises :
    (let s := { lowWindow [(0xFFFF, 0x1E#8)] with regs := (caller.setPc 0xFFFF).regs }
     s.running = true ∧ s.canReadPc ∧ s.pc.toNat = 0xFFFF ∧ s.holdsByte 0xFFFF 0x1E#8) ∧
    (let s := { lowWindow [(0xFFFD, 0x00#8), (0xFFFE, 0x01#8), (0xFFFF, 0x02#8)] with regs := (caller.setPc 0xFFFD).regs }
     s.running = true ∧ s.canReadPc ∧ decode Codes.decided [0x00#8, 0x01#8, 0x02#8] = .ok (.num .b 2, []) ∧
      s.pc.toNat + 3 > 0xFFFF ∧ s.holdsByte 0xFFFD 0x00#8 ∧ s.holdsByte 0xFFFE 0x01#8 ∧ s.holdsByte 0xFFFF 0x02#8) :=
  ⟨⟨rfl, ⟨rfl, rfl⟩, by decide, ⟨by decide, rfl, rfl⟩⟩,
   ⟨rfl, ⟨rfl, rfl⟩, by decide, by decide, ⟨by decide, rfl, rfl⟩, ⟨by decide, rfl, rfl⟩, ⟨by decide, rfl, rfl⟩⟩⟩

theorem witness_BadOpcodeByteRaises :
    (let s := { caller with mem := [(0x10, 0x1F#8)] }
     s.running = true ∧ s.canReadPc ∧ s.holdsByte s.pc.toNat 0x1F#8 ∧ s.pc.toNat < 0xFFFF ∧
      0x1F#8 ∉ s.cfg.codes.opcodeBytes) ∧
    (let s := { caller with mem := [] }
     s.running = true ∧ s.canReadPc ∧ s.unwritten s.pc.toNat) :=
  ⟨⟨rfl, ⟨rfl, rfl⟩, ⟨by decide, rfl, rfl⟩, by decide, by decide⟩, ⟨rfl, ⟨rfl, rfl⟩, ⟨by decide, rfl, rfl⟩⟩⟩

/-- A bad first byte beside a bad second one, and a bad second byte after a good first one. -/
theorem witness_BadRegisterByteRaises :
    (let s := { caller with mem := [(0x10, 0x01#8), (0x11, 0x09#8), (0x12, 0xFF#8)] }
     s.running = true ∧ s.canReadPc ∧ romLookup s.cfg.codes 0x01#8 = some .mov ∧
      [0x09#8, 0xFF#8].length = Mnemonic.mov.kinds.length ∧ s.pc.toNat + 1 + 2 ≤ 0xFFFF ∧ s.holdsByte 0x10 0x01#8 ∧
      s.holdsByte 0x11 0x09#8 ∧ s.holdsByte 0x12 0xFF#8 ∧ Mnemonic.mov.kinds[0]? = some .register ∧
      0x09#8 ∉ s.cfg.codes.registerBytes) ∧
    (let s := { caller with mem := [(0x10, 0x01#8), (0x11, 0x08#8), (0x12, 0x09#8)] }
     s.running = true ∧ s.canReadPc ∧ romLookup s.cfg.codes 0x01#8 = some .mov ∧
      [0x08#8, 0x09#8].length = Mnemonic.mov.kinds.length ∧ s.pc.toNat + 1 + 2 ≤ 0xFFFF ∧ s.holdsByte 0x10 0x01#8 ∧
      s.holdsByte 0x11 0x08#8 ∧ s.holdsByte 0x12 0x09#8 ∧ Mnemonic.mov.kinds[1]? = some .register ∧
      0x09#8 ∉ s.cfg.codes.registerBytes ∧ 0x08#8 ∈ s.cfg.codes.registerBytes) :=
  ⟨⟨rfl, ⟨rfl, rfl⟩, by decide, by decide, by decide, ⟨by decide, rfl, rfl⟩, ⟨by decide, rfl, rfl⟩,
    ⟨by decide, rfl, rfl⟩, by decide, by decide⟩,
   ⟨rfl, ⟨rfl, rfl⟩, by decide, by decide, by decide, ⟨by decide, rfl, rfl⟩, ⟨by decide, rfl, rfl⟩,
    ⟨by decide, rfl, rfl⟩, by decide, by decide, by decide⟩⟩

/-- A step that records an error, for every kind; the last under the spec's reading of `undef`. -/
theorem witness_ErrorsArePrecise :
    (after { caller with mem := [(0x10, 0x0C#8), (0x11, 0xFF#8)], regs := (caller.setSp 0).regs }).map (fun t => t.fault) =
      some (some ⟨.addressOutOfRange, 0x10, .address (-255)⟩) ∧
    (after { caller with mem := [(0x10, 0xFF#8)] }).map (fun t => t.fault) =
      some (some ⟨.invalidOpcode, 0x10, .byte 0xFF#8⟩) ∧
    (after { caller with mem := [(0x10, 0x15#8), (0x11, 0x09#8)] }).map (fun t => t.fault) =
      some (some ⟨.invalidRegister, 0x10, .byte 0x09#8⟩) ∧
    (after { caller with mem := [] }).map (fun t => t.fault) = some (some ⟨.undefinedRead, 0x10, .address 0x10⟩) ∧
    (after { undefCell .a with mem := [(0x10, 0x15#8), (0x11, 0x00#8)] }).map (fun t => t.fault) =
      some (some ⟨.undefinedRead, 0x10, .register .a⟩) := by decide

theorem witness_ErrorRecordFitsItsKind :
    (after { caller with mem := [], fault := none }).map (fun t => t.fault) =
      some (some ⟨.undefinedRead, 0x10, .address 0x10⟩) := by decide

theorem witness_StoppedMachineTakesNoStep :
    State.reset.loaded = false ∧
    (let s := { caller with fault := some ⟨.invalidOpcode, 0x10, .byte 0xFF#8⟩, halted := true }
     s.loaded = true ∧ s.fault = some ⟨.invalidOpcode, 0x10, .byte 0xFF#8⟩) ∧
    (let s := { caller with halted := true }
     s.loaded = true ∧ s.fault = none ∧ s.halted = true) := by decide

theorem witness_OnlyHltHalts :
    (∃ t, Instr.inc .a ≠ .hlt ∧ exec (.inc .a) caller = .next t) ∧
    (after { caller with mem := [(0x10, 0x1E#8)] }).map (fun t => t.halted) = some true :=
  ⟨⟨_, by decide, rfl⟩, by decide⟩

theorem witness_OnlyArithmeticChangesFlags :
    (∃ t, exec (.pop .a) caller = .next t) ∧
    (Instr.pop .a).mnemonic ∉ [Mnemonic.inc, .dec, .add, .sub, .mul, .shl, .shr, .inl, .del] :=
  ⟨⟨_, rfl⟩, by decide⟩

theorem witness_OnlyStoringInstructionsChangeStorage :
    (∃ t, exec (.add .a .b) caller = .next t) ∧
    (Instr.add .a .b).mnemonic ∉ [Mnemonic.sec, .ser, .psh, .ofs, .clc, .clr] :=
  ⟨⟨_, rfl⟩, by decide⟩

theorem witness_StepKeepsParameters : ∃ t, step caller = .next t := ⟨_, rfl⟩

/-- A step with I/O calls: a `psh` into the window. -/
theorem witness_IoCallsAreNeverUndone :
    (after (cpu 0x10 0xF000 5 0 0 0 0 [(0x10, 0x10#8), (0x11, 0x00#8)])).map (fun t => t.ioLog) = some [.set 0 5#8] := by
  decide

theorem witness_FetchInWindowAsksDevice :
    windowed.running = true ∧ windowed.canReadPc ∧ windowed.isIo windowed.pc.toNat = true :=
  ⟨rfl, ⟨rfl, rfl⟩, by decide⟩

theorem witness_StrictStepIsLenientStep : ∃ t, step caller.strict = .next t ∧ t.fault = none := ⟨_, rfl, rfl⟩

theorem witness_MovesFillRegister : caller.canRead .ipl ∧ caller.lenient.canRead .ipl ∧ (undefCell .a).lenient.canRead .a :=
  ⟨rfl, rfl, rfl⟩

theorem witness_JumpsSetIp : caller.canRead .c ∧ caller.canRead .d ∧ caller.canRead .spl := ⟨rfl, rfl, rfl⟩

theorem witness_ZeroJumpsFollowFlag :
    caller.canReadFlag .zero ∧ caller.zero.val = false ∧
    (let s := { caller with zero := ⟨true, true⟩ }; s.canReadFlag .zero ∧ s.zero.val = true) :=
  ⟨rfl, rfl, rfl, rfl⟩

theorem witness_CarryJumpsFollowFlag :
    caller.canReadFlag .carry ∧ caller.carry.val = false ∧
    (let s := { caller with carry := ⟨true, true⟩ }; s.canReadFlag .carry ∧ s.carry.val = true) :=
  ⟨rfl, rfl, rfl, rfl⟩

/-- Both sides of the bound on SP. -/
theorem witness_ClcCallsTarget :
    caller.canReadPc ∧ caller.canReadSp ∧ caller.sp.toNat ≤ 0xFFFD ∧
    ((caller.setSp 0xFFFD).canReadPc ∧ (caller.setSp 0xFFFD).canReadSp ∧ (caller.setSp 0xFFFD).sp.toNat ≤ 0xFFFD) ∧
    ((caller.setSp 0xFFFE).canReadPc ∧ (caller.setSp 0xFFFE).canReadSp ∧ ¬ (caller.setSp 0xFFFE).sp.toNat ≤ 0xFFFD) ∧
    ((caller.setSp 0xFFFF).canReadPc ∧ (caller.setSp 0xFFFF).canReadSp ∧ ¬ (caller.setSp 0xFFFF).sp.toNat ≤ 0xFFFD) :=
  ⟨⟨rfl, rfl⟩, ⟨rfl, rfl⟩, by decide, ⟨⟨rfl, rfl⟩, ⟨rfl, rfl⟩, by decide⟩, ⟨⟨rfl, rfl⟩, ⟨rfl, rfl⟩, by decide⟩,
   ⟨⟨rfl, rfl⟩, ⟨rfl, rfl⟩, by decide⟩⟩

theorem witness_ClrCallsOldPair :
    caller.canRead .spl ∧ caller.canRead .sph ∧ caller.canReadPc ∧ caller.canReadSp ∧ caller.sp.toNat ≤ 0xFFFD ∧
    (let s := caller.setSp 0xFFFE
     s.canRead .c ∧ s.canRead .d ∧ s.canReadPc ∧ s.canReadSp ∧ ¬ s.sp.toNat ≤ 0xFFFD) :=
  ⟨rfl, rfl, ⟨rfl, rfl⟩, ⟨rfl, rfl⟩, by decide, rfl, rfl, ⟨rfl, rfl⟩, ⟨rfl, rfl⟩, by decide⟩

/-- A return from two stored bytes, one that reads the device at 0xF000 and storage below it, and each error. -/
theorem witness_RetPopsAddress :
    (let s := { caller.setSp 2 with mem := [(0, 0x34#8), (1, 0x12#8)] }
     s.canReadSp ∧ 2 ≤ s.sp.toNat ∧ s.readGives (s.sp.toNat - 1) 0x12#8 ∧
      (s.afterRead (s.sp.toNat - 1)).readGives (s.sp.toNat - 2) 0x34#8) ∧
    (let s := { caller.setSp 0xF001 with mem := [(0xEFFF, 0x34#8)] }
     s.canReadSp ∧ 2 ≤ s.sp.toNat ∧ s.readGives (s.sp.toNat - 1) (Config.ioByte 0 0) ∧
      (s.afterRead (s.sp.toNat - 1)).readGives (s.sp.toNat - 2) 0x34#8) ∧
    (caller.setSp 0).sp.toNat = 0 ∧
    (let s := { caller.setSp 1 with mem := [(0, 0x34#8)] }
     s.sp.toNat = 1 ∧ s.holdsByte 0 0x34#8) ∧
    (0 < caller.sp.toNat ∧ caller.unwritten (caller.sp.toNat - 1)) ∧
    (let s := { caller.setSp 2 with mem := [(1, 0x12#8)] }
     s.canReadSp ∧ 2 ≤ s.sp.toNat ∧ s.readGives (s.sp.toNat - 1) 0x12#8 ∧ s.unwritten (s.sp.toNat - 2)) ∧
    (let s := caller.setSp 0xF001
     s.canReadSp ∧ 2 ≤ s.sp.toNat ∧ s.readGives (s.sp.toNat - 1) (Config.ioByte 0 0) ∧ s.unwritten (s.sp.toNat - 2)) :=
  ⟨⟨⟨rfl, rfl⟩, by decide, ⟨by decide, rfl⟩, ⟨by decide, rfl⟩⟩,
   ⟨⟨rfl, rfl⟩, by decide, ⟨by decide, rfl⟩, ⟨by decide, rfl⟩⟩, by decide,
   ⟨by decide, by decide, rfl, rfl⟩, ⟨by decide, by decide, rfl, rfl⟩,
   ⟨⟨rfl, rfl⟩, by decide, ⟨by decide, rfl⟩, ⟨by decide, rfl, rfl⟩⟩,
   ⟨⟨rfl, rfl⟩, by decide, ⟨by decide, rfl⟩, ⟨by decide, rfl, rfl⟩⟩⟩

theorem witness_CallThenReturnComesBack :
    caller.canReadPc ∧ caller.canReadSp ∧ caller.sp.toNat ≤ 0xFFFD ∧ caller.isIo caller.sp.toNat = false ∧
    caller.isIo (caller.sp.toNat + 1) = false ∧ (∃ t, exec (.clc 0x00#8 0x03#8) caller = .next t) ∧
    caller.canRead .c ∧ caller.canRead .sph ∧ ∃ t, exec (.clr .c .sph) caller = .next t :=
  ⟨⟨rfl, rfl⟩, ⟨rfl, rfl⟩, by decide, by decide, by decide, ⟨_, rfl⟩, rfl, rfl, _, rfl⟩

/-- SP at both ends of the range, with an operand that reaches the bound and one that passes it. -/
theorem witness_AlcEatMoveSp :
    (caller.setSp 0xFFFF).canReadSp ∧ (caller.setSp 0xFFFF).sp.toNat + (0#8).toNat ≤ 0xFFFF ∧
    ¬ (caller.setSp 0xFFFF).sp.toNat + (1#8).toNat ≤ 0xFFFF ∧
    (caller.setSp 0).canReadSp ∧ (0#8).toNat ≤ (caller.setSp 0).sp.toNat ∧ ¬ (1#8).toNat ≤ (caller.setSp 0).sp.toNat :=
  ⟨⟨rfl, rfl⟩, by decide, by decide, ⟨rfl, rfl⟩, by decide, by decide⟩

theorem witness_OfgReadsSlot :
    caller.canReadSp ∧
    (let s := { caller with mem := [(0x1FF, 7#8)] }; s.canReadSp ∧ (0#8).toNat < s.sp.toNat ∧
      s.readGives (s.sp.toNat - (0#8).toNat - 1) 7#8) ∧
    (caller.setSp 3).sp.toNat ≤ (3#8).toNat ∧
    ((2#8).toNat < (caller.setSp 3).sp.toNat ∧ (caller.setSp 3).unwritten ((caller.setSp 3).sp.toNat - (2#8).toNat - 1)) :=
  ⟨⟨rfl, rfl⟩, ⟨⟨rfl, rfl⟩, by decide, ⟨by decide, rfl⟩⟩, by decide, by decide, ⟨by decide, rfl, rfl⟩⟩

theorem witness_OfsWritesSlot :
    caller.canReadSp ∧ caller.canRead .spl ∧ (255#8).toNat < caller.sp.toNat ∧
    ((caller.setSp 3).canReadSp ∧ (caller.setSp 3).canRead .a ∧ (2#8).toNat < (caller.setSp 3).sp.toNat ∧
      ¬ (3#8).toNat < (caller.setSp 3).sp.toNat) :=
  ⟨⟨rfl, rfl⟩, rfl, by decide, ⟨rfl, rfl⟩, rfl, by decide, by decide⟩

theorem witness_PopReadsTop :
    (let s := { caller.setSp 1 with mem := [(0, 7#8)] }
     s.canReadSp ∧ 0 < s.sp.toNat ∧ s.readGives (s.sp.toNat - 1) 7#8) ∧
    (let s := caller.setSp 0xFFFF
     s.canReadSp ∧ 0 < s.sp.toNat ∧ s.readGives (s.sp.toNat - 1) (Config.ioByte 0 0xFFE)) ∧
    (caller.setSp 0).sp.toNat = 0 ∧ (0 < caller.sp.toNat ∧ caller.unwritten (caller.sp.toNat - 1)) :=
  ⟨⟨⟨rfl, rfl⟩, by decide, ⟨by decide, rfl⟩⟩, ⟨⟨rfl, rfl⟩, by decide, ⟨by decide, rfl⟩⟩, by decide, by decide,
   ⟨by decide, rfl, rfl⟩⟩

theorem witness_PshWritesTop :
    (caller.canRead .spl ∧ caller.canReadSp ∧ caller.sp.toNat < 0xFFFF) ∧
    (let s := caller.setSp 0xFFFE; s.canRead .a ∧ s.canReadSp ∧ s.sp.toNat < 0xFFFF) ∧
    (let s := caller.setSp 0xFFFF; s.canRead .a ∧ s.canReadSp ∧ ¬ s.sp.toNat < 0xFFFF) :=
  ⟨⟨rfl, ⟨rfl, rfl⟩, by decide⟩, ⟨rfl, ⟨rfl, rfl⟩, by decide⟩, ⟨rfl, ⟨rfl, rfl⟩, by decide⟩⟩

theorem witness_LoadsFillM :
    caller.readGives (256 * (0x00#8).toNat + (0x10#8).toNat) 0x08#8 ∧
    caller.readGives (256 * (0xFF#8).toNat + (0xFF#8).toNat) (Config.ioByte 0 0xFFF) ∧
    caller.unwritten (256 * (0x00#8).toNat + (0x0F#8).toNat) ∧
    (caller.canRead .ipl ∧ caller.canRead .iph ∧
      caller.readGives (256 * (caller.regVal .iph).toNat + (caller.regVal .ipl).toNat) 0x08#8) ∧
    (caller.canRead .spl ∧ caller.canRead .sph ∧
      caller.unwritten (256 * (caller.regVal .sph).toNat + (caller.regVal .spl).toNat)) :=
  ⟨⟨by decide, rfl⟩, ⟨by decide, rfl⟩, ⟨by decide, rfl, rfl⟩, ⟨rfl, rfl, by decide, rfl⟩, ⟨rfl, rfl, by decide, rfl, rfl⟩⟩

theorem witness_StoresWriteM : caller.canRead .m ∧ caller.canRead .c ∧ caller.canRead .d := ⟨rfl, rfl, rfl⟩

theorem witness_IncAddsOne : caller.canRead .a ∧ caller.canRead .ipl := ⟨rfl, rfl⟩

theorem witness_DecTakesOne : caller.canRead .b ∧ caller.canRead .sph := ⟨rfl, rfl⟩

theorem witness_AddStoresSum : caller.canRead .a ∧ caller.canRead .b := ⟨rfl, rfl⟩

theorem witness_SubStoresDifference : caller.canRead .spl ∧ caller.canRead .b := ⟨rfl, rfl⟩

theorem witness_MulStoresLowProduct : caller.canRead .c ∧ caller.canRead .c := ⟨rfl, rfl⟩

/-- Counts of 7 and of 8. -/
theorem witness_ShiftsMoveBits :
    (let s := caller.setReg .b 7; s.canRead .a ∧ s.canRead .b ∧ (s.regVal .b).toNat ≤ 7) ∧
    (let s := caller.setReg .b 8; s.canRead .a ∧ s.canRead .b ∧ ¬ (s.regVal .b).toNat ≤ 7) :=
  ⟨⟨rfl, rfl, by decide⟩, ⟨rfl, rfl, by decide⟩⟩

theorem witness_InlCountsUp : caller.canRead .ipl ∧ caller.canRead .iph ∧ Reg.ipl ≠ Reg.iph := ⟨rfl, rfl, by decide⟩

theorem witness_DelCountsDown : caller.canRead .m ∧ caller.canRead .m := ⟨rfl, rfl⟩

theorem witness_HltHalts :
    (let s := { caller with mem := [(0x10, 0x1E#8)] }
     s.running = true ∧ s.canReadPc ∧ s.cfg.codes.distinct = true ∧
      s.holdsByte s.pc.toNat (opcodeOf s.cfg.codes .hlt) ∧ s.pc.toNat < 0xFFFF) :=
  ⟨rfl, ⟨rfl, rfl⟩, by decide, ⟨by decide, rfl, rfl⟩, by decide⟩

theorem witness_UndefinedRegisterReadRaises :
    (¬ (undefCell .a).canRead .a ∧ (undefCell .a).canRead .b ∧ (undefCell .a).canReadSp) ∧
    (¬ (undefCell .m).canRead .m ∧ (undefCell .m).canRead .c ∧ (undefCell .m).canRead .d) :=
  ⟨⟨Bool.false_ne_true, rfl, rfl, rfl⟩, Bool.false_ne_true, rfl, rfl⟩

theorem witness_UndefinedFlagReadRaises :
    ¬ State.canReadFlag { caller with zero := undefFlag } .zero ∧
    ¬ State.canReadFlag { caller with carry := undefFlag } .carry :=
  ⟨Bool.false_ne_true, Bool.false_ne_true⟩

theorem witness_UndefinedSpReadRaises :
    (¬ (undefCell .spl).canRead .spl ∧ (undefCell .spl).canRead .a ∧ (undefCell .spl).canReadPc ∧
      (undefCell .spl).canRead .c ∧ (undefCell .spl).canRead .d) ∧
    ((undefCell .sph).canRead .spl ∧ ¬ (undefCell .sph).canRead .sph ∧ (undefCell .sph).canRead .a ∧
      (undefCell .sph).canReadPc ∧ (undefCell .sph).canRead .c ∧ (undefCell .sph).canRead .d) :=
  ⟨⟨Bool.false_ne_true, rfl, ⟨rfl, rfl⟩, rfl, rfl⟩, rfl, Bool.false_ne_true, rfl, ⟨rfl, rfl⟩, rfl, rfl⟩

/-- A load at the lowest start address, one that ends at the window, one that begins after it and ends at the top, and
one of no bytes inside it. -/
theorem witness_LoadProgramPlacesProgram :
    (2 ≤ (2#16).toNat ∧ (2#16).toNat + [0x1E].length ≤ State.reset.cfg.ioBase.toNat) ∧
    (0xEFFE#16).toNat + [0x0F, 0x01].length ≤ State.reset.cfg.ioBase.toNat ∧
    ((lowWindow []).cfg.ioBase.toNat + 4096 ≤ (0xFFFF#16).toNat ∧ (0xFFFF#16).toNat + [0x1E].length ≤ 0x10000) ∧
    (2 ≤ (0xF000#16).toNat ∧ (0xF000#16).toNat + ([] : List Nat).length ≤ 0x10000) := by decide

/-- The last address refused, a load one byte too long, and loads that meet the first and the last byte of the window. -/
theorem witness_LoadProgramRefusals :
    (1#16).toNat < 2 ∧ (2 ≤ (0xFFFF#16).toNat ∧ (0xFFFF#16).toNat + [0x1E, 0x1E].length > 0x10000) ∧
    ((0xEFFF#16).toNat < State.reset.cfg.ioBase.toNat + 4096 ∧
      State.reset.cfg.ioBase.toNat < (0xEFFF#16).toNat + [0x1E, 0x1E].length) ∧
    ((0xFFFF#16).toNat < State.reset.cfg.ioBase.toNat + 4096 ∧
      State.reset.cfg.ioBase.toNat < (0xFFFF#16).toNat + [0x1E].length) := by decide

theorem witness_RestartSeedsIp :
    (let s := { caller with mem := [(0, 0x34#8), (1, 0x12#8)], halted := true }
     s.mem.read 0 = some 0x34#8 ∧ s.mem.read 1 = some 0x12#8) := by decide

/-- A run that pauses by its budget, and one that ends. -/
theorem witness_RunBudgetSplits :
    (∃ t, run 1 caller = .returned false t) ∧ (run 1 { caller with mem := [(0x10, 0x1E#8)] }).ended = true :=
  ⟨⟨_, rfl⟩, by decide⟩

theorem witness_RunFollowsStep :
    (caller.running = true ∧ (after caller).map (fun t => (t.fault, t.halted)) = some (none, false)) ∧
    (let s := { caller with mem := [(0x10, 0x1E#8)] }
     s.running = true ∧ (after s).map (fun t => (t.fault, t.halted)) = some (none, true)) ∧
    (let s := { caller with mem := [] }
     s.running = true ∧ (after s).map (fun t => t.fault.isSome) = some true) := by decide

end Sys2Proof.Tests
end

/-! # State: the two readings of `undef`

`State.strict` and `State.lenient` differ in one parameter, `trapUndef`, which only the reading of a register cell or a
flag looks at. So an operation either does the same under both readings, or it stops under the strict one with its error
recorded (10_state.md R19, R27; log 2). That is said of each shared operation once and carried through sequences. -/

namespace Sys2Proof.Machine

@[simp] theorem State.lenient_mem (s : State) : s.lenient.mem = s.mem := rfl

@[simp] theorem State.lenient_pc (s : State) : s.lenient.pc = s.pc := rfl

@[simp] theorem State.lenient_isIo (s : State) (a : Nat) : s.lenient.isIo a = s.isIo a := rfl

@[simp] theorem State.lenient_codes (s : State) : s.lenient.cfg.codes = s.cfg.codes := rfl

theorem State.lenient_canRead (s : State) (r : Reg) : s.lenient.canRead r := Bool.or_true _

theorem State.lenient_canReadFlag (s : State) (f : Flag) : s.lenient.canReadFlag f := Bool.or_true _

theorem State.lenient_writeAt (s : State) (a : Nat) (v : Byte) : s.lenient.writeAt a v = (s.writeAt a v).lenient := by
  unfold State.writeAt
  rw [State.lenient_isIo]
  split <;> rfl

/-- The answer of an operation with the state it leaves read leniently. -/
def Res.lenient {α : Type} : Res α → Res α
  | .done a s => .done a s.lenient
  | .raised s => .raised s.lenient

@[simp] theorem Res.lenient_done {α : Type} (a : α) (s : State) : (Res.done a s).lenient = .done a s.lenient := rfl

@[simp] theorem Res.lenient_raised {α : Type} (s : State) : (Res.raised s : Res α).lenient = .raised s.lenient := rfl

/-- From every state the operation does the same under the lenient reading, or it ends with an error recorded. -/
def LenientUnlessTrapped {α : Type} (op : State → Res α) : Prop :=
  ∀ s, op s.lenient = (op s).lenient ∨ ∃ t, op s = .raised t ∧ t.fault ≠ none

/-- An error ends a sequence, so the two readings agree on a sequence as far as they agree on its parts. -/
theorem LenientUnlessTrapped.andThen {α β : Type} {op : State → Res α} {f : α → State → Res β}
    (hop : LenientUnlessTrapped op) (hf : ∀ a, LenientUnlessTrapped (f a)) :
    LenientUnlessTrapped fun s => (op s).andThen (f ·) := by
  intro s
  rcases hop s with heq | ⟨t, htrap, hfault⟩
  · cases hs : op s with
    | raised t => left; simp only [heq, hs, Res.lenient_raised, Res.andThen_raised]
    | done a t => simpa only [heq, hs, Res.lenient_done, Res.andThen_done] using hf a t
  · exact .inr ⟨t, by simp only [htrap, Res.andThen_raised], hfault⟩

/-- An instruction whose operation agrees leniently and that completes does so with the same state, read leniently. -/
theorem LenientUnlessTrapped.outcome {α : Type} {op : State → Res α} (hop : LenientUnlessTrapped op) {s t : State}
    (h : (op s).outcome = .next t) (ht : t.fault = none) : (op s.lenient).outcome = .next t.lenient := by
  rcases hop s with heq | ⟨u, htrap, hfault⟩
  · rw [heq]
    cases hs : op s <;> rw [hs] at h <;> cases h <;> rfl
  · rw [htrap] at h
    cases h
    exact absurd ht hfault

/-! ### The shared operations under both readings -/

/-- An update of the state, with a value, that does not look at `trapUndef`. -/
theorem done_lenient {α : Type} (a : α) (f : State → State) (h : ∀ s, f s.lenient = (f s).lenient) :
    LenientUnlessTrapped fun s => .done a (f s) :=
  fun s => .inl (congrArg (Res.done a) (h s))

theorem raise_lenient {α : Type} (k : ErrorKind) (v : ErrorValue) :
    LenientUnlessTrapped (raise k v : State → Res α) := fun _ => .inl rfl

theorem readReg_lenient (r : Reg) : LenientUnlessTrapped (readReg r) := by
  intro s
  by_cases h : s.canRead r
  · left; rw [readReg_done (s.lenient_canRead r), readReg_done h]; rfl
  · exact .inr ⟨_, readReg_trap h, Option.some_ne_none _⟩

theorem readFlag_lenient (f : Flag) : LenientUnlessTrapped (readFlag f) := by
  intro s
  by_cases h : s.canReadFlag f
  · left; rw [readFlag_done (s.lenient_canReadFlag f), readFlag_done h]; cases f <;> rfl
  · exact .inr ⟨_, readFlag_trap h, Option.some_ne_none _⟩

theorem readPair_lenient (rl rh : Reg) : LenientUnlessTrapped (readPair rl rh) :=
  (readReg_lenient rl).andThen fun _ => (readReg_lenient rh).andThen fun _ => done_lenient _ id fun _ => rfl

theorem readTwo_lenient (rd rs : Reg) : LenientUnlessTrapped (readTwo rd rs) :=
  (readReg_lenient rd).andThen fun _ => (readReg_lenient rs).andThen fun _ => done_lenient _ id fun _ => rfl

theorem moveSp_lenient (t : Int) : LenientUnlessTrapped (moveSp t) := by
  intro s
  left
  unfold moveSp
  split <;> rfl

theorem memRead_lenient (a : Int) : LenientUnlessTrapped (memRead a) := by
  intro s
  left
  unfold memRead
  rw [State.lenient_isIo, State.lenient_mem]
  split
  · rfl
  · split
    · rfl
    · split <;> rfl

theorem memWrite_lenient (a : Int) (v : Byte) : LenientUnlessTrapped (memWrite a v) := by
  intro s
  left
  unfold memWrite
  split
  · rfl
  · rw [State.lenient_writeAt]; rfl

theorem push_lenient (v : Byte) : LenientUnlessTrapped (push v) :=
  (readPair_lenient _ _).andThen fun _ => (memWrite_lenient _ v).andThen fun _ => moveSp_lenient _

theorem pop_lenient : LenientUnlessTrapped pop :=
  (readPair_lenient _ _).andThen fun _ => (moveSp_lenient _).andThen fun _ => memRead_lenient _

theorem loadInto_lenient (r : Reg) (a : Int) : LenientUnlessTrapped (loadInto r a) :=
  (memRead_lenient a).andThen fun v => done_lenient _ (·.setReg r v) fun _ => rfl

theorem storeFrom_lenient (r : Reg) (a : Int) : LenientUnlessTrapped (storeFrom r a) :=
  (readReg_lenient r).andThen fun v => memWrite_lenient a v

theorem slotOperand_lenient (off : Byte) : LenientUnlessTrapped (slotOperand off) :=
  (readPair_lenient _ _).andThen fun _ => done_lenient _ id fun _ => rfl

theorem jumpIf_lenient (f : Flag) (wanted : Bool) (w : Word) : LenientUnlessTrapped (jumpIf f wanted w) :=
  (readFlag_lenient f).andThen fun v s => .inl <| by
    split <;> rfl

theorem call_lenient (w : Word) : LenientUnlessTrapped (call w) :=
  (readPair_lenient _ _).andThen fun _ => (push_lenient _).andThen fun _ => (push_lenient _).andThen fun _ =>
    done_lenient _ (·.setPc w) fun _ => rfl

theorem alu1_lenient (f : Int → Int) (r : Reg) : LenientUnlessTrapped (alu1 f r) :=
  (readReg_lenient r).andThen fun x => done_lenient _ (·.setResult r (f (x.toNat : Int))) fun _ => rfl

theorem alu2_lenient (f : Int → Int → Int) (rd rs : Reg) : LenientUnlessTrapped (alu2 f rd rs) :=
  (readTwo_lenient rd rs).andThen fun xy =>
    done_lenient _ (·.setResult rd (f (xy.1.toNat : Int) (xy.2.toNat : Int))) fun _ => rfl

theorem shift_lenient (f : Nat → Nat → Nat) (rd rs : Reg) : LenientUnlessTrapped (shift f rd rs) :=
  (readTwo_lenient rd rs).andThen fun xy s => .inl <| by
    split <;> rfl

theorem counter_lenient (f : Word → Word) (rl rh : Reg) : LenientUnlessTrapped (counter f rl rh) :=
  (readPair_lenient rl rh).andThen fun w s => .inl <| by
    split <;> rfl

/-! ### Fetch, execution and the step under both readings -/

theorem fetchByte_lenient : LenientUnlessTrapped fetchByte := by
  have hread : LenientUnlessTrapped fun s => memRead (s.pc.toNat : Int) s := fun s => memRead_lenient s.pc.toNat s
  refine hread.andThen fun b s => .inl ?_
  rw [State.lenient_pc]
  split <;> rfl

theorem fetchBytes_lenient (n : Nat) : LenientUnlessTrapped (fetchBytes n) := by
  induction n with
  | zero => exact done_lenient _ id fun _ => rfl
  | succ n ih => exact fetchByte_lenient.andThen fun _ => ih.andThen fun _ => done_lenient _ id fun _ => rfl

theorem fetchOperands_lenient (m : Mnemonic) : LenientUnlessTrapped (fetchOperands m) :=
  (fetchBytes_lenient _).andThen fun bs s => by
    rw [State.lenient_codes]
    split <;> exact .inl rfl

theorem fetch_lenient : LenientUnlessTrapped fetch := by
  have hlatch : LenientUnlessTrapped latchPc := fun s => readPair_lenient _ _ { s with pc0 := s.pc }
  refine hlatch.andThen fun _ => fetchByte_lenient.andThen fun op s => ?_
  rw [State.lenient_codes]
  split
  · exact raise_lenient _ _ s
  · exact fetchOperands_lenient _ s

/-- An instruction that completes does the same under the lenient reading. -/
theorem exec_lenient (i : Instr) {s t : State} (h : exec i s = .next t) (ht : t.fault = none) :
    exec i s.lenient = .next t.lenient := by
  cases i with
  | num r v => cases h; rfl
  | mov rd rs =>
    exact ((readReg_lenient rs).andThen fun v => done_lenient () (·.setReg rd v) fun _ => rfl).outcome h ht
  | jmp lo hi => cases h; rfl
  | jin rl rh =>
    exact ((readPair_lenient rl rh).andThen fun w => done_lenient () (·.setPc w) fun _ => rfl).outcome h ht
  | jiz lo hi => exact (jumpIf_lenient _ _ _).outcome h ht
  | jnz lo hi => exact (jumpIf_lenient _ _ _).outcome h ht
  | jic lo hi => exact (jumpIf_lenient _ _ _).outcome h ht
  | jnc lo hi => exact (jumpIf_lenient _ _ _).outcome h ht
  | clc lo hi => exact (call_lenient _).outcome h ht
  | clr rl rh => exact ((readPair_lenient rl rh).andThen call_lenient).outcome h ht
  | ret =>
    exact (pop_lenient.andThen fun hi => pop_lenient.andThen fun lo =>
      done_lenient () (·.setPc (cat hi lo)) fun _ => rfl).outcome h ht
  | alc n => exact ((readPair_lenient _ _).andThen fun _ => moveSp_lenient _).outcome h ht
  | eat n => exact ((readPair_lenient _ _).andThen fun _ => moveSp_lenient _).outcome h ht
  | ofg r off => exact ((slotOperand_lenient off).andThen (loadInto_lenient r)).outcome h ht
  | ofs r off => exact ((slotOperand_lenient off).andThen (storeFrom_lenient r)).outcome h ht
  | pop r => exact (pop_lenient.andThen fun v => done_lenient () (·.setReg r v) fun _ => rfl).outcome h ht
  | psh r => exact ((readReg_lenient r).andThen push_lenient).outcome h ht
  | gec lo hi => exact (loadInto_lenient _ _).outcome h ht
  | sec lo hi => exact (storeFrom_lenient _ _).outcome h ht
  | ger rl rh => exact ((readPair_lenient rl rh).andThen fun _ => loadInto_lenient _ _).outcome h ht
  | ser rl rh => exact ((readPair_lenient rl rh).andThen fun _ => storeFrom_lenient _ _).outcome h ht
  | inc r => exact (alu1_lenient _ r).outcome h ht
  | dec r => exact (alu1_lenient _ r).outcome h ht
  | add rd rs => exact (alu2_lenient _ rd rs).outcome h ht
  | sub rd rs => exact (alu2_lenient _ rd rs).outcome h ht
  | mul rd rs => exact (alu2_lenient _ rd rs).outcome h ht
  | shl rd rs => exact (shift_lenient _ rd rs).outcome h ht
  | shr rd rs => exact (shift_lenient _ rd rs).outcome h ht
  | inl rl rh => exact (counter_lenient _ rl rh).outcome h ht
  | del rl rh => exact (counter_lenient _ rl rh).outcome h ht
  | hlt => cases h; rfl

/-- A step that completes does the same under the lenient reading. -/
theorem step_lenient {s t : State} (h : step s = .next t) (ht : t.fault = none) :
    step s.lenient = .next t.lenient := by
  obtain ⟨hrun, hfetch⟩ := step_inv h
  have hrun' : s.lenient.running = true := hrun
  rw [step_running hrun']
  rcases fetch_lenient s with heq | ⟨u, htrap, hfault⟩
  · rcases hfetch with hraised | ⟨i, u, hdone, hexec⟩
    · rw [heq, hraised]; rfl
    · rw [heq, hdone]; exact exec_lenient i hexec ht
  · rcases hfetch with hraised | ⟨i, v, hdone, -⟩
    · rw [htrap] at hraised; cases hraised; exact absurd ht hfault
    · rw [htrap] at hdone; cases hdone

/-- Settles O27: a step that completes does not depend on `trapUndef`, and `s.strict.lenient` is `s.lenient`. -/
theorem strictStepIsLenientStep : Obligations.StrictStepIsLenientStep :=
  fun s _ h ht => step_lenient (s := s.strict) h ht

end Sys2Proof.Machine

/-! # State: what no instruction does

`exec_rel` and `fetch_rel` of the laws carry a relation that every update keeps. That the halted latch, or the flags,
are kept is no such relation, since one family of instructions breaks it: here it is said without that family. -/

namespace Sys2Proof.Machine

/-- The halted latch is as it was. -/
def KeepsHalted (s t : State) : Prop := t.halted = s.halted

theorem keepsHalted_loads : CarriesLoads KeepsHalted where
  refl _ := rfl
  trans _ _ _ hab hbc := hbc.trans hab
  raise _ _ _ := rfl
  setReg _ _ _ := rfl
  afterGet _ _ _ _ := rfl

theorem keepsHalted_stores : CarriesStores KeepsHalted where
  toCarriesLoads := keepsHalted_loads
  ioSet _ _ _ _ _ := rfl
  store _ _ _ _ _ := rfl

theorem keepsHalted_arith : CarriesArith KeepsHalted where
  toCarriesLoads := keepsHalted_loads
  undefReg _ _ := rfl
  setFlags _ _ := rfl
  undefFlags _ := rfl

theorem keepsFlags_stores : CarriesStores KeepsFlags where
  refl _ := ⟨rfl, rfl⟩
  trans _ _ _ hab hbc := ⟨hbc.1.trans hab.1, hbc.2.trans hab.2⟩
  raise _ _ _ := ⟨rfl, rfl⟩
  setReg _ _ _ := ⟨rfl, rfl⟩
  afterGet _ _ _ _ := ⟨rfl, rfl⟩
  ioSet _ _ _ _ _ := ⟨rfl, rfl⟩
  store _ _ _ _ _ := ⟨rfl, rfl⟩

theorem arithmetic_not_storing : ∀ m ∈ arithmetic, m ∉ storing := by decide

/-- Every instruction but `hlt`. -/
theorem exec_rel_of_ne_hlt {R : State → State → Prop} (cs : CarriesStores R) (ca : CarriesArith R) {i : Instr}
    {s t : State} (hi : i ≠ .hlt) (h : exec i s = .next t) : R s t := by
  by_cases ha : i.mnemonic ∈ arithmetic
  · exact exec_arith_rel ca i s t h (arithmetic_not_storing _ ha) hi
  · exact exec_stores_rel cs i s t h ha hi

/-- Fetch and decode make only reads, moves of IP and the latching of `pc0`. -/
theorem fetch_rel_of_loads {R : State → State → Prop} (c : CarriesLoads R)
    (latch : ∀ (s : State) (w : Word), R s { s with pc0 := w }) (s : State) : (fetch s).Rel R s := by
  have hlatch : (latchPc s).Rel R s :=
    Res.andThen_rel c.trans (x := .done () { s with pc0 := s.pc }) (f := fun _ => readPc) (latch s s.pc)
      fun _ t => readPair_rel c _ _ t
  refine Res.andThen_rel c.trans hlatch fun _ t => Res.andThen_rel c.trans (fetchByte_rel c t) fun op u => ?_
  split
  · exact raise_rel c _ _ u
  · refine Res.andThen_rel c.trans (fetchBytes_rel c _ u) fun bs x => ?_
    split
    · exact raise_rel c _ _ x
    · exact c.refl x

theorem fetch_keepsHalted (s : State) : (fetch s).Rel KeepsHalted s :=
  fetch_rel_of_loads keepsHalted_loads (fun _ _ => rfl) s

theorem State.running_iff (s : State) : s.running = true ↔ s.loaded = true ∧ s.halted = false ∧ s.fault = none := by
  simp [State.running, and_assoc]

/-- Settles O21: the latch is kept by the fetch and by every instruction but `hlt`, and a machine that steps was not
halted. -/
theorem onlyHltHalts : Obligations.OnlyHltHalts := by
  refine ⟨fun i s t hi h => exec_rel_of_ne_hlt keepsHalted_stores keepsHalted_arith hi h, fun s t h ht => ?_⟩
  obtain ⟨hrun, hfetch⟩ := step_inv h
  obtain ⟨-, hhalted, -⟩ := s.running_iff.1 hrun
  have hkept := fetch_keepsHalted s
  rcases hfetch with hraised | ⟨i, u, hdone, hexec⟩
  · have hts : t.halted = s.halted := by rwa [hraised] at hkept
    simp [hts, hhalted] at ht
  · have hus : u.halted = s.halted := by rwa [hdone] at hkept
    by_cases hi : i = .hlt
    · exact ⟨u, hi ▸ hdone⟩
    · have htu : t.halted = u.halted := exec_rel_of_ne_hlt keepsHalted_stores keepsHalted_arith hi hexec
      simp [htu, hus, hhalted] at ht

/-- Settles O22: outside the arithmetic family only moves, loads, stores and the halted latch are left. -/
theorem onlyArithmeticChangesFlags : Obligations.OnlyArithmeticChangesFlags := by
  intro i s t h ha
  by_cases hi : i = .hlt
  · subst hi; cases h; exact ⟨rfl, rfl⟩
  · exact exec_stores_rel keepsFlags_stores i s t h ha hi

/-- Settles O20: `step` and `run` make the same three tests in the same order. -/
theorem stoppedMachineTakesNoStep : Obligations.StoppedMachineTakesNoStep := by
  intro s n
  refine ⟨fun hl => ⟨?_, ?_⟩, fun r hl hf => ⟨?_, ?_⟩, fun hl hf hh => ⟨?_, ?_⟩⟩
  · simp [step, hl]
  · simp [run, runRefusal, hl]
  · simp [step, hl, hf]
  · simp [run, runRefusal, hl, hf]
  · simp [step, hl, hf, hh]
  · simp [run, runRefusal, hl, hf, hh]

end Sys2Proof.Machine

/-! # State: register cells and pointers -/

namespace Sys2Proof.Machine

/-- The byte stored for an unbounded integer is that integer modulo 256 (44_arithmetic.md R107(3)). -/
theorem toNat_storedResult (t : Int) : ((storedResult t).toNat : Int) = t % 256 := by
  rw [storedResult, BitVec.toNat_ofInt]
  omega

theorem State.setReg_canRead (s : State) (r : Reg) (v : Byte) : (s.setReg r v).canRead r := by
  simp [State.canRead, State.readable]

@[simp] theorem State.setReg_regVal_self (s : State) (r : Reg) (v : Byte) : (s.setReg r v).regVal r = v := by
  simp [State.regVal]

theorem State.setReg_regVal_ne (s : State) {r q : Reg} (v : Byte) (h : q ≠ r) :
    (s.setReg r v).regVal q = s.regVal q := by
  simp [State.regVal, Regs.get_set_ne _ _ _ _ h]

theorem State.toNat_pairVal (s : State) (rl rh : Reg) :
    (s.pairVal rl rh).toNat = 256 * (s.regVal rh).toNat + (s.regVal rl).toNat := by
  rw [State.pairVal, toNat_cat, Nat.mul_comm]

/-- The low half of a pair is the low byte of its word. -/
theorem State.regVal_lo (s : State) (rl rh : Reg) : (s.regVal rl).toNat = (s.pairVal rl rh).toNat % 256 := by
  rw [← toNat_loByte, State.pairVal, loByte_cat]

/-- The high half of a pair is the high byte of its word. -/
theorem State.regVal_hi (s : State) (rl rh : Reg) : (s.regVal rh).toNat = (s.pairVal rl rh).toNat / 256 := by
  rw [← toNat_hiByte, State.pairVal, hiByte_cat]

/-- A write of the low half of a pair keeps the high byte of its word. -/
theorem State.pairVal_setReg_lo (s : State) {rl rh : Reg} (v : Byte) (h : rh ≠ rl) :
    ((s.setReg rl v).pairVal rl rh).toNat = 256 * ((s.pairVal rl rh).toNat / 256) + v.toNat := by
  rw [State.toNat_pairVal, State.setReg_regVal_ne _ _ h, State.setReg_regVal_self, ← State.regVal_hi]

/-- A write of the high half of a pair keeps the low byte of its word. -/
theorem State.pairVal_setReg_hi (s : State) {rl rh : Reg} (v : Byte) (h : rl ≠ rh) :
    ((s.setReg rh v).pairVal rl rh).toNat = 256 * v.toNat + (s.pairVal rl rh).toNat % 256 := by
  rw [State.toNat_pairVal, State.setReg_regVal_ne _ _ h, State.setReg_regVal_self, ← State.regVal_lo]

/-- A write of a register that is no half of a pair keeps its word. -/
theorem State.pairVal_setReg_ne (s : State) {r rl rh : Reg} (v : Byte) (hl : rl ≠ r) (hh : rh ≠ r) :
    (s.setReg r v).pairVal rl rh = s.pairVal rl rh := by
  rw [State.pairVal, State.setReg_regVal_ne _ _ hl, State.setReg_regVal_ne _ _ hh, State.pairVal]

/-- Settles O6: `Regs.get_set` for the cell written and for the others, and the stored byte of an integer. -/
theorem registerCellsReadBack : Obligations.RegisterCellsReadBack := by
  intro s r v t
  refine ⟨by simp, ?_, by simp, fun q hq => ⟨?_, ?_⟩, toNat_storedResult t⟩
  · rw [readReg_done (s.setReg_canRead r v), State.setReg_regVal_self]
  · exact Regs.get_set_ne _ r q _ hq
  · exact Regs.get_set_ne _ r q _ hq

/-- Settles O7: IP and SP are pairs of cells that share none, so the laws of a pair say what a write of a half does. -/
theorem pointersAliasRegisterHalves : Obligations.PointersAliasRegisterHalves := by
  intro s v
  have hword (rl rh : Reg) := And.intro (s.toNat_pairVal rl rh) (And.intro (s.regVal_lo rl rh) (s.regVal_hi rl rh))
  exact ⟨hword .ipl .iph, hword .spl .sph,
    ⟨s.pairVal_setReg_lo v (by decide), s.pairVal_setReg_ne v (by decide) (by decide)⟩,
    ⟨s.pairVal_setReg_hi v (by decide), s.pairVal_setReg_ne v (by decide) (by decide)⟩,
    ⟨s.pairVal_setReg_lo v (by decide), s.pairVal_setReg_ne v (by decide) (by decide)⟩,
    ⟨s.pairVal_setReg_hi v (by decide), s.pairVal_setReg_ne v (by decide) (by decide)⟩⟩

end Sys2Proof.Machine

/-! # State: reading a cell that is `undef` -/

namespace Sys2Proof.Machine

/-- An error ends the sequence it is raised in (60_exceptions.md R122). -/
theorem RaisesIn.andThen {α β : Type} {x : Res α} {s : State} {k : ErrorKind} {v : ErrorValue} (h : RaisesIn x s k v)
    (f : α → State → Res β) : RaisesIn (x.andThen f) s k v := by
  obtain ⟨t, rfl, hfault, hio⟩ := h
  exact ⟨t, rfl, hfault, hio⟩

/-- An instruction whose operation raises answers the state with the record. -/
theorem RaisesIn.outcome {α : Type} {x : Res α} {s : State} {k : ErrorKind} {v : ErrorValue} (h : RaisesIn x s k v) :
    Raises x.outcome s k v := by
  obtain ⟨t, rfl, hfault, hio⟩ := h
  exact ⟨t, rfl, hfault, hio⟩

theorem readReg_raises {r : Reg} {s : State} (h : ¬ s.canRead r) :
    RaisesIn (readReg r s) s .undefinedRead (.register r) :=
  ⟨_, readReg_trap h, rfl, rfl⟩

theorem readFlag_raises {f : Flag} {s : State} (h : ¬ s.canReadFlag f) :
    RaisesIn (readFlag f s) s .undefinedRead (.flag f) :=
  ⟨_, readFlag_trap h, rfl, rfl⟩

/-- The cell that a read of the cells `r1`, then `r2` names: the first that cannot be read. -/
def State.FirstUnreadable (s : State) (r1 r2 q : Reg) : Prop :=
  (q = r1 ∧ ¬ s.canRead r1) ∨ (q = r2 ∧ s.canRead r1 ∧ ¬ s.canRead r2)

theorem State.FirstUnreadable.fst {s : State} {r : Reg} (h : ¬ s.canRead r) (q : Reg) : s.FirstUnreadable r q r :=
  .inl ⟨rfl, h⟩

theorem State.FirstUnreadable.snd {s : State} {q r : Reg} (hq : s.canRead q) (h : ¬ s.canRead r) :
    s.FirstUnreadable q r r :=
  .inr ⟨rfl, hq, h⟩

/-- A sequence that reads one cell and then another. -/
theorem readReg_readReg_raises {α : Type} {r1 r2 q : Reg} {s : State} (h : s.FirstUnreadable r1 r2 q)
    (f : Byte → Byte → State → Res α) :
    RaisesIn ((readReg r1 s).andThen fun x s => (readReg r2 s).andThen (f x)) s .undefinedRead (.register q) := by
  rcases h with ⟨rfl, h1⟩ | ⟨rfl, h1, h2⟩
  · exact (readReg_raises h1).andThen _
  · rw [readReg_done h1]
    exact (readReg_raises h2).andThen _

theorem readPair_raises {rl rh q : Reg} {s : State} (h : s.FirstUnreadable rl rh q) :
    RaisesIn (readPair rl rh s) s .undefinedRead (.register q) :=
  readReg_readReg_raises h _

theorem readTwo_raises {rd rs q : Reg} {s : State} (h : s.FirstUnreadable rd rs q) :
    RaisesIn (readTwo rd rs s) s .undefinedRead (.register q) :=
  readReg_readReg_raises h _

/-- The instructions that read two register operands, the first one first. -/
def readsTwo (r1 r2 : Reg) : List Instr :=
  [.add r1 r2, .sub r1 r2, .mul r1 r2, .shl r1 r2, .shr r1 r2, .jin r1 r2, .clr r1 r2, .ger r1 r2, .ser r1 r2,
    .inl r1 r2, .del r1 r2]

/-- Each of them raises for the first operand that cannot be read, before anything else. -/
theorem readsTwo_raises {r1 r2 q : Reg} {s : State} (h : s.FirstUnreadable r1 r2 q) :
    ∀ i ∈ readsTwo r1 r2, Raises (exec i s) s .undefinedRead (.register q) := by
  have hpair := readPair_raises h
  have htwo := readTwo_raises h
  simp only [readsTwo, List.forall_mem_cons]
  exact ⟨(htwo.andThen _).outcome, (htwo.andThen _).outcome, (htwo.andThen _).outcome, (htwo.andThen _).outcome,
    (htwo.andThen _).outcome, (hpair.andThen _).outcome, (hpair.andThen _).outcome, (hpair.andThen _).outcome,
    (hpair.andThen _).outcome, (hpair.andThen _).outcome, (hpair.andThen _).outcome, by simp⟩

theorem storeFrom_raises {r : Reg} {s : State} (h : ¬ s.canRead r) (a : Int) :
    RaisesIn (storeFrom r a s) s .undefinedRead (.register r) :=
  (readReg_raises h).andThen _

theorem slotOperand_done {s : State} (h : s.canReadSp) (off : Byte) :
    slotOperand off s = .done (stackSlot s.sp off) s := by
  rw [slotOperand, readSp_done h, Res.andThen_done]

/-- Settles O52: the reads of an instruction come before its effects, in the order of its operands. -/
theorem undefinedRegisterReadRaises : Obligations.UndefinedRegisterReadRaises := by
  intro r q s hr
  have hreg := readReg_raises hr
  refine ⟨?_, fun hq => readsTwo_raises (.snd hq hr), fun hsp off => ?_, ?_⟩
  · change ∀ i ∈ Instr.mov q r :: .psh r :: .inc r :: .dec r :: readsTwo r q, _
    simp only [List.forall_mem_cons]
    exact ⟨(hreg.andThen _).outcome, (hreg.andThen _).outcome, (hreg.andThen _).outcome, (hreg.andThen _).outcome,
      readsTwo_raises (.fst hr q)⟩
  · change Raises ((slotOperand off s).andThen _).outcome s _ _
    rw [slotOperand_done hsp]
    exact (storeFrom_raises hr _).outcome
  · rintro rfl
    refine ⟨fun lo hi => (storeFrom_raises hr _).outcome, fun rl rh hl hh => ?_⟩
    change Raises ((readPair rl rh s).andThen _).outcome s _ _
    rw [readPair_done hl hh]
    exact (storeFrom_raises hr _).outcome

/-- Settles O53: a conditional jump reads its flag first. -/
theorem undefinedFlagReadRaises : Obligations.UndefinedFlagReadRaises := by
  intro lo hi s
  have hjump : ∀ {f : Flag} (wanted : Bool), ¬ s.canReadFlag f →
      Raises (jumpIf f wanted (immAddress lo hi) s).outcome s .undefinedRead (.flag f) :=
    fun wanted h => ((readFlag_raises h).andThen _).outcome
  exact ⟨fun hz => ⟨hjump true hz, hjump false hz⟩, fun hc => ⟨hjump true hc, hjump false hc⟩⟩

theorem push_raises {q : Reg} {s : State} (h : s.FirstUnreadable .spl .sph q) (v : Byte) :
    RaisesIn (push v s) s .undefinedRead (.register q) :=
  (readPair_raises h).andThen _

theorem pop_raises {q : Reg} {s : State} (h : s.FirstUnreadable .spl .sph q) :
    RaisesIn (pop s) s .undefinedRead (.register q) :=
  (readPair_raises h).andThen _

theorem slotOperand_raises {q : Reg} {s : State} (h : s.FirstUnreadable .spl .sph q) (off : Byte) :
    RaisesIn (slotOperand off s) s .undefinedRead (.register q) :=
  (readPair_raises h).andThen _

/-- A call that can read IP raises for SP at its first push. -/
theorem call_raises {q : Reg} {s : State} (hpc : s.canReadPc) (h : s.FirstUnreadable .spl .sph q) (w : Word) :
    RaisesIn (call w s) s .undefinedRead (.register q) := by
  rw [call, readPc_done hpc]
  exact (push_raises h _).andThen _

/-- Settles O54: every stack instruction reads SP, low half first, after its register operands and IP and before its
effects. -/
theorem undefinedSpReadRaises : Obligations.UndefinedSpReadRaises := by
  intro r n lo hi rl rh s q (h : s.FirstUnreadable .spl .sph q)
  refine ⟨?_, fun hr => ?_, fun hpc => (call_raises hpc h _).outcome, fun hpc hl hh => ?_⟩
  · simp only [List.forall_mem_cons]
    exact ⟨((readPair_raises h).andThen _).outcome, ((readPair_raises h).andThen _).outcome,
      ((slotOperand_raises h n).andThen _).outcome, ((slotOperand_raises h n).andThen _).outcome,
      ((pop_raises h).andThen _).outcome, ((pop_raises h).andThen _).outcome, by simp⟩
  · change Raises ((readReg r s).andThen _).outcome s _ _
    rw [readReg_done hr]
    exact (push_raises h _).outcome
  · change Raises ((readPair rl rh s).andThen _).outcome s _ _
    rw [readPair_done hl hh]
    exact (call_raises hpc h _).outcome

end Sys2Proof.Machine

/-! # State: a fetch at the top of memory -/

namespace Sys2Proof.Machine

/-- A record written after IP moved is the record of the operation that moved it: IP is not named in it. -/
theorem RaisesIn.of_setPc {α : Type} {x : Res α} {s : State} {w : Word} {k : ErrorKind} {v : ErrorValue}
    (h : RaisesIn x (s.setPc w) k v) : RaisesIn x s k v := h

/-- From IP on, as far as the address space goes, storage holds `n` bytes. -/
def State.HoldsFromPc (s : State) (n : Nat) : Prop :=
  ∀ k < n, s.pc.toNat + k ≤ 0xFFFF → ∃ b, s.holdsByte (s.pc.toNat + k) b

/-- Fetching the byte at 0xFFFF raises, whatever it is (10_state.md R22; the spec's decision D7). -/
theorem fetchByte_top {s : State} {b : Byte} (h : s.pc.toNat = 0xFFFF) (hb : s.holdsByte 0xFFFF b) :
    RaisesIn (fetchByte s) s .addressOutOfRange (.address 0x10000) := by
  have hread : memRead (s.pc.toNat : Int) s = .done b s := memRead_storage (h ▸ hb)
  rw [fetchByte, hread, Res.andThen_done, if_pos (by omega), h]
  exact ⟨_, rfl, rfl, rfl⟩

theorem toNat_add_one {w : Word} (h : w.toNat < 0xFFFF) : (w + 1).toNat = w.toNat + 1 := by
  rw [BitVec.toNat_add]
  exact Nat.mod_eq_of_lt (Nat.add_lt_add_right h 1)

theorem State.HoldsFromPc.succ {s : State} {n : Nat} (h : s.HoldsFromPc (n + 1)) (hpc : s.pc.toNat < 0xFFFF) :
    (s.setPc (s.pc + 1)).HoldsFromPc n := by
  intro k hk hle
  rw [State.setPc_pc, toNat_add_one hpc, Nat.add_assoc, Nat.add_comm 1 k] at hle ⊢
  exact h (k + 1) (by omega) hle

/-- Fetching stored bytes that reach 0xFFFF raises there. -/
theorem fetchBytes_pastTop {n : Nat} {s : State} (hend : s.pc.toNat + n > 0xFFFF) (hb : s.HoldsFromPc n) :
    RaisesIn (fetchBytes n s) s .addressOutOfRange (.address 0x10000) := by
  induction n generalizing s with
  | zero => have := s.pc.isLt; omega
  | succ n ih =>
    have hle : s.pc.toNat ≤ 0xFFFF := by have := s.pc.isLt; omega
    obtain ⟨b, hb0⟩ := hb 0 (by omega) hle
    rw [Nat.add_zero] at hb0
    by_cases hpc : s.pc.toNat = 0xFFFF
    · exact (fetchByte_top hpc (hpc ▸ hb0)).andThen _
    · have hlt : s.pc.toNat < 0xFFFF := by omega
      rw [fetchBytes, fetchByte_storage hb0 hlt, Res.andThen_done]
      refine ((ih ?_ (hb.succ hlt)).andThen _).of_setPc
      rw [State.setPc_pc, toNat_add_one hlt]
      omega

/-- A fetch that can read IP latches it in `pc0` and goes on with the opcode byte. -/
theorem latchPc_done {s : State} (h : s.canReadPc) : latchPc s = .done s.pc { s with pc0 := s.pc } :=
  readPc_done (s := { s with pc0 := s.pc }) h

/-- A running machine whose fetch raises records the error at IP. -/
theorem step_of_fetch_raises {s : State} {k : ErrorKind} {v : ErrorValue} (hrun : s.running = true)
    (h : RaisesIn (fetch s) { s with pc0 := s.pc } k v) :
    ∃ t, step s = .next t ∧ t.ioLog = s.ioLog ∧ t.fault = some { kind := k, ip := s.pc, value := v } := by
  obtain ⟨t, hfetch, hfault, hio⟩ := h
  exact ⟨t, by rw [step_running hrun, hfetch]; rfl, hio, hfault⟩

/-- Fetching an instruction whose stored bytes reach 0xFFFF raises, at the opcode byte or at an operand byte. -/
theorem fetch_pastTop {s : State} {bs : List Byte} {op : Byte} {m : Mnemonic} (hread : s.canReadPc)
    (hop : romLookup s.cfg.codes op = some m) (hlen : bs.length = m.kinds.length)
    (hend : s.pc.toNat + (op :: bs).length > 0xFFFF)
    (hb : ∀ k (h : k < (op :: bs).length), s.pc.toNat + k ≤ 0xFFFF → s.holdsByte (s.pc.toNat + k) (op :: bs)[k]) :
    RaisesIn (fetch s) { s with pc0 := s.pc } .addressOutOfRange (.address 0x10000) := by
  rw [List.length_cons] at hend
  have hle : s.pc.toNat ≤ 0xFFFF := by have := s.pc.isLt; omega
  have hb0 : s.holdsByte s.pc.toNat op := hb 0 (Nat.succ_pos _) hle
  rw [fetch, latchPc_done hread, Res.andThen_done]
  by_cases hpc : s.pc.toNat = 0xFFFF
  · exact (fetchByte_top (s := { s with pc0 := s.pc }) hpc (hpc ▸ hb0)).andThen _
  · have hlt : s.pc.toNat < 0xFFFF := by omega
    have hholds : State.HoldsFromPc { s with pc0 := s.pc } (bs.length + 1) := fun k hk hk' => ⟨_, hb k hk hk'⟩
    rw [fetchByte_storage (s := { s with pc0 := s.pc }) hb0 hlt, Res.andThen_done]
    simp only [State.setPc_cfg, hop]
    refine RaisesIn.of_setPc (RaisesIn.andThen (fetchBytes_pastTop ?_ (hlen ▸ hholds.succ hlt)) _)
    rw [State.setPc_pc, ← hlen]
    change (s.pc + 1).toNat + _ > _
    rw [toNat_add_one hlt]
    omega

/-- The bytes of one instruction: its opcode byte, found in the decode ROM, and an operand byte for each operand kind. -/
theorem decode_ok_nil {c : Codes} {bs : List Byte} {i : Instr} (h : decode c bs = .ok (i, [])) :
    ∃ op rest m, bs = op :: rest ∧ romLookup c op = some m ∧ rest.length = m.kinds.length := by
  cases bs with
  | nil => cases h
  | cons op rest =>
    simp only [decode] at h
    split at h
    · cases h
    · next m hop =>
      split at h
      · cases h
      · next hlen =>
        split at h
        · cases h
        · obtain ⟨-, hdrop⟩ := Prod.mk.inj (Except.ok.inj h)
          have hle : rest.length ≤ m.kinds.length := List.drop_eq_nil_iff.1 hdrop
          exact ⟨op, rest, m, rfl, hop, by omega⟩

/-- Settles O15: the byte at 0xFFFF raises whatever it is, and a fetch of more bytes raises when it comes there. -/
theorem fetchPastTopRaises : Obligations.FetchPastTopRaises := by
  intro s hrun hread
  refine ⟨fun b hpc hb => step_of_fetch_raises hrun ?_, fun bs i hdec hend hb => step_of_fetch_raises hrun ?_⟩
  · rw [fetch, latchPc_done hread, Res.andThen_done]
    exact (fetchByte_top (s := { s with pc0 := s.pc }) hpc hb).andThen _
  · obtain ⟨op, rest, m, rfl, hop, hlen⟩ := decode_ok_nil hdec
    exact fetch_pastTop hread hop hlen hend hb

end Sys2Proof.Machine

/-! # Memory: the accesses -/

namespace Sys2Proof.Machine

/-- Settles O8: the range check comes first, then the I/O decoder, then the check for an unwritten byte. -/
theorem memoryAccessFollowsDecoder : Obligations.MemoryAccessFollowsDecoder := by
  intro s v
  refine ⟨fun a ha => ?_, fun a ha hlo hhi => ?_, fun a ha hout => ?_⟩
  · exact ⟨⟨_, memRead_trap ha, rfl, rfl⟩, ⟨_, memWrite_trap v ha, rfl, rfl⟩⟩
  · have hlt : a < 65536 := by omega
    have hio : s.isIo a = true := (s.isIo_iff a).2 ⟨hlo, hhi⟩
    refine ⟨⟨_, _, memRead_window hlt hio⟩, ?_⟩
    rw [memWrite_nat v hlt, State.writeAt_window v hio]
    rfl
  · have hlt : a < 65536 := by omega
    have hio : s.isIo a = false := (s.isIo_eq_false a).2 hout
    refine ⟨fun hnone => ?_, fun b hb => memRead_storage ⟨hlt, hio, hb⟩, s.mem.write a v, ?_, ?_, fun b hb => ?_⟩
    · rw [memRead_nat hlt]
      simp only [hio, hnone]
      exact ⟨_, rfl, rfl, rfl⟩
    · rw [memWrite_nat v hlt, State.writeAt_storage v hio]
      rfl
    · exact s.mem.read_write_self a v
    · exact s.mem.read_write_ne a b v hb

/-- Settles O9: the store lists the byte at `a`, which moving IP there does not change. -/
theorem storeIsSeenByFetch : Obligations.StoreIsSeenByFetch := by
  intro s t a v ha hio h
  rw [memWrite_nat v a.isLt, State.writeAt_storage v hio] at h
  cases h
  have hbyte : ((s.store a.toNat v).setPc a).holdsByte a.toNat v :=
    ⟨a.isLt, hio, s.mem.read_write_self a.toNat v⟩
  have hfetch := fetchByte_storage (s := (s.store a.toNat v).setPc a) (b := v)
  rw [State.setPc_pc] at hfetch
  exact hfetch hbyte ha

/-- Taking a runtime error replaces the error record. -/
theorem raise_inv {α : Type} {k : ErrorKind} {v : ErrorValue} {s t : State} (h : (raise k v s : Res α) = .raised t) :
    t = { s with fault := t.fault } := by
  cases h; rfl

/-- What reading a byte does where it is done: the address is in range, and the device or storage gave the byte. -/
theorem memRead_inv {a : Int} {s t : State} {v : Byte} (h : memRead a s = .done v t) :
    t = s.afterRead a.toNat ∧ s.readGives a.toNat v := by
  unfold memRead at h
  unfold State.afterRead State.readGives Config.memBytes
  split at h
  · cases h
  · next hrange =>
    split at h
    · next hio => cases h; exact ⟨(if_pos hio).symm, by omega, by rw [if_pos hio]⟩
    · next hio =>
      split at h
      · cases h
      · next b hb => cases h; exact ⟨(if_neg hio).symm, by omega, by rwa [if_neg hio]⟩

/-- An access that reads raises only through `raise`. -/
theorem memRead_raised_inv {a : Int} {s t : State} (h : memRead a s = .raised t) : t = { s with fault := t.fault } := by
  unfold memRead at h
  split at h
  · exact raise_inv h
  · split at h
    · cases h
    · split at h
      · exact raise_inv h
      · cases h

/-- An access that writes raises only through `raise`. -/
theorem memWrite_raised_inv {a : Int} {v : Byte} {s t : State} (h : memWrite a v s = .raised t) :
    t = { s with fault := t.fault } := by
  unfold memWrite at h
  split at h
  · exact raise_inv h
  · cases h

/-- Settles O60: an access raises only through `raise`, and only a call of the device draws. -/
theorem accessErrorsChangeNothingElse : Obligations.AccessErrorsChangeNothingElse := by
  refine fun s t a v => ⟨memRead_raised_inv, memWrite_raised_inv, fun h => ?_⟩
  obtain ⟨rfl, -⟩ := memRead_inv h
  unfold State.afterRead
  split <;> rfl

end Sys2Proof.Machine

/-! # Memory: what every step keeps

The parameters and the load are never touched, and storage stays where the spec lays it out: one relation that every
primitive update stands in, so that every step does (`step_rel` of the laws). -/

namespace Sys2Proof.Machine

/-- The parameters and the load are as they were, and storage is as the spec lays it out if it was. -/
def KeepsSetup (s t : State) : Prop := t.cfg = s.cfg ∧ t.loaded = s.loaded ∧ (s.storageOk → t.storageOk)

/-- A byte stored outside the window leaves storage as the spec lays it out. -/
theorem State.storageOk_store {s : State} {a : Nat} (v : Byte) (ha : a < Config.memBytes) (hio : s.isIo a = false)
    (h : s.storageOk) : (s.store a v).storageOk := by
  obtain ⟨hwf, hcells⟩ := h
  refine ⟨s.mem.write_wf a v hwf, fun c hc => ?_⟩
  rcases s.mem.mem_write a v c hc with rfl | hold
  · exact ⟨ha, hio⟩
  · exact hcells c hold

theorem keepsSetup_all : CarriesAll KeepsSetup where
  refl _ := ⟨rfl, rfl, id⟩
  trans := fun _ _ _ ⟨hcfg, hloaded, hok⟩ ⟨hcfg', hloaded', hok'⟩ =>
    ⟨hcfg'.trans hcfg, hloaded'.trans hloaded, hok' ∘ hok⟩
  raise _ _ _ := ⟨rfl, rfl, id⟩
  setReg _ _ _ := ⟨rfl, rfl, id⟩
  afterGet _ _ _ _ := ⟨rfl, rfl, id⟩
  ioSet _ _ _ _ _ := ⟨rfl, rfl, id⟩
  store _ _ v ha hio := ⟨rfl, rfl, State.storageOk_store v ha hio⟩
  undefReg _ _ := ⟨rfl, rfl, id⟩
  setFlags _ _ := ⟨rfl, rfl, id⟩
  undefFlags _ := ⟨rfl, rfl, id⟩
  halt _ := ⟨rfl, rfl, id⟩
  latch _ _ := ⟨rfl, rfl, id⟩

/-- A machine that steps was loaded, and stays so. -/
theorem step_loaded {s t : State} (h : step s = .next t) : t.loaded = true := by
  obtain ⟨-, hkept, -⟩ := step_rel keepsSetup_all s t h
  obtain ⟨hloaded, -, -⟩ := s.running_iff.1 (step_inv h).1
  exact hkept.trans hloaded

/-- Settles O24. -/
theorem stepKeepsParameters : Obligations.StepKeepsParameters :=
  fun s t h => ⟨(step_rel keepsSetup_all s t h).1, step_loaded h⟩

/-- Settles O10: the window and the numbers are parameters, storage is kept in its form by every update, and the machine
after a step is a loaded one whether it has halted or recorded an error. -/
theorem stepKeepsInvariant : Obligations.StepKeepsInvariant := by
  rintro s t ⟨hstorage, hwindow, hcodes, -, -⟩ h
  obtain ⟨hcfg, -, hok⟩ := step_rel keepsSetup_all s t h
  have hwindow' : t.windowOk := by rwa [State.windowOk, hcfg]
  have hcodes' : t.codesOk := by rwa [State.codesOk, hcfg]
  exact ⟨hok hstorage, hwindow', hcodes', fun _ => step_loaded h, fun _ => step_loaded h⟩

theorem keepsStorage_arith : CarriesArith (KeepsStorageBut · · []) where
  refl _ _ _ := rfl
  trans _ _ _ hab hbc a ha := (hbc a ha).trans (hab a ha)
  raise _ _ _ _ _ := rfl
  setReg _ _ _ _ _ := rfl
  afterGet _ _ _ _ _ _ := rfl
  undefReg _ _ _ _ := rfl
  setFlags _ _ _ _ := rfl
  undefFlags _ _ _ := rfl

/-- Settles O23: outside the storing family only moves, loads, arithmetic and the halted latch are left. -/
theorem onlyStoringInstructionsChangeStorage : Obligations.OnlyStoringInstructionsChangeStorage := by
  intro i s t h hs
  by_cases hi : i = .hlt
  · subst hi; cases h; exact fun _ _ => rfl
  · exact exec_arith_rel keepsStorage_arith i s t h hs hi

end Sys2Proof.Machine

/-! # Memory: the I/O calls of a step

How many calls at the I/O port an operation makes is no relation that goes through a sequence unchanged: the numbers
add up. So each shared operation is given its bound, and a sequence the sum of its parts'. -/

namespace Sys2Proof.Machine

/-- The record of I/O calls grew by at most `n`, and each device read among the new calls drew a free value. -/
def AddsIo (n : Nat) (s t : State) : Prop :=
  ∃ l, t.ioLog = s.ioLog ++ l ∧ l.length ≤ n ∧ s.draws + (l.filter IoEvent.isGet).length ≤ t.draws

/-- No call was made. -/
theorem AddsIo.of_eq {n : Nat} {s t : State} (hlog : t.ioLog = s.ioLog) (hdraws : s.draws ≤ t.draws) : AddsIo n s t :=
  ⟨[], by rw [hlog, List.append_nil], Nat.zero_le n, hdraws⟩

theorem AddsIo.refl {n : Nat} (s : State) : AddsIo n s s := .of_eq rfl le_rfl

theorem AddsIo.mono {n m : Nat} {s t : State} (h : AddsIo n s t) (hnm : n ≤ m) : AddsIo m s t := by
  obtain ⟨l, hlog, hlen, hdraws⟩ := h
  exact ⟨l, hlog, hlen.trans hnm, hdraws⟩

theorem AddsIo.trans {n m : Nat} {s t u : State} (hst : AddsIo n s t) (htu : AddsIo m t u) : AddsIo (n + m) s u := by
  obtain ⟨l, hlog, hlen, hdraws⟩ := hst
  obtain ⟨l', hlog', hlen', hdraws'⟩ := htu
  refine ⟨l ++ l', by rw [hlog', hlog, List.append_assoc], ?_, ?_⟩
  · rw [List.length_append]; omega
  · rw [List.filter_append, List.length_append]; omega

theorem afterGet_addsIo (s : State) (o : Nat) : AddsIo 1 s (s.afterGet o) := ⟨[_], rfl, le_rfl, le_rfl⟩

theorem writeAt_addsIo (s : State) (a : Nat) (v : Byte) : AddsIo 1 s (s.writeAt a v) := by
  refine ⟨_, s.writeAt_ioLog a v, ?_, ?_⟩ <;> split <;> simp [IoEvent.isGet]

/-- From every state the operation makes at most `n` I/O calls, whether it is done or raises. -/
def MakesIo {α : Type} (n : Nat) (op : State → Res α) : Prop := ∀ s, (op s).Rel (AddsIo n) s

theorem MakesIo.mono {α : Type} {n m : Nat} {op : State → Res α} (hop : MakesIo n op) (hnm : n ≤ m) : MakesIo m op := by
  intro s
  have h := hop s
  cases hs : op s <;> rw [hs] at h <;> exact AddsIo.mono h hnm

/-- The calls of a sequence are those of its parts. -/
theorem Res.andThen_addsIo {α β : Type} {n m : Nat} {s : State} {x : Res α} {f : α → State → Res β}
    (hx : x.Rel (AddsIo n) s) (hf : ∀ a, MakesIo m (f a)) : (x.andThen f).Rel (AddsIo (n + m)) s := by
  cases x with
  | raised t => exact hx.mono (Nat.le_add_right n m)
  | done a t =>
    have h := hf a t
    rw [Res.andThen_done]
    cases hfa : f a t <;> rw [hfa] at h <;> exact AddsIo.trans hx h

theorem MakesIo.andThen {α β : Type} {n m : Nat} {op : State → Res α} {f : α → State → Res β}
    (hop : MakesIo n op) (hf : ∀ a, MakesIo m (f a)) : MakesIo (n + m) fun s => (op s).andThen (f ·) :=
  fun s => Res.andThen_addsIo (hop s) hf

/-- A bound for an operation bounds the instruction that it is. -/
theorem MakesIo.outcome {α : Type} {n m : Nat} {op : State → Res α} (hop : MakesIo n op) (hnm : n ≤ m) {s t : State}
    (h : (op s).outcome = .next t) : AddsIo m s t :=
  (Res.rel_of_outcome (hop s) h).mono hnm

/-! ### The shared operations -/

/-- An update, with a value, that makes no call and takes back no draw. -/
theorem done_makesIo {α : Type} (a : α) (f : State → State) (hlog : ∀ s, (f s).ioLog = s.ioLog)
    (hdraws : ∀ s, s.draws ≤ (f s).draws) : MakesIo 0 fun s => .done a (f s) :=
  fun s => .of_eq (hlog s) (hdraws s)

theorem setReg_makesIo (r : Reg) (v : Byte) : MakesIo 0 fun s => .done () (s.setReg r v) :=
  done_makesIo () (·.setReg r v) (fun _ => rfl) fun _ => le_rfl

theorem setPc_makesIo (w : Word) : MakesIo 0 fun s => .done () (s.setPc w) :=
  done_makesIo () (·.setPc w) (fun _ => rfl) fun _ => le_rfl

theorem unchanged_makesIo {α : Type} (a : α) : MakesIo 0 (Res.done a) := AddsIo.refl

theorem raise_addsIo {α : Type} {n : Nat} (k : ErrorKind) (v : ErrorValue) (s : State) :
    (raise k v s : Res α).Rel (AddsIo n) s := .of_eq rfl le_rfl

theorem readReg_makesIo (r : Reg) : MakesIo 0 (readReg r) := by
  intro s
  unfold readReg; split
  · exact .refl s
  · exact raise_addsIo _ _ s

theorem readFlag_makesIo (f : Flag) : MakesIo 0 (readFlag f) := by
  intro s
  unfold readFlag; split
  · exact .refl s
  · exact raise_addsIo _ _ s

theorem readPair_makesIo (rl rh : Reg) : MakesIo 0 (readPair rl rh) :=
  (readReg_makesIo rl).andThen fun _ => (readReg_makesIo rh).andThen fun _ => unchanged_makesIo _

theorem readTwo_makesIo (rd rs : Reg) : MakesIo 0 (readTwo rd rs) :=
  (readReg_makesIo rd).andThen fun _ => (readReg_makesIo rs).andThen fun _ => unchanged_makesIo _

theorem slotOperand_makesIo (off : Byte) : MakesIo 0 (slotOperand off) :=
  (readPair_makesIo _ _).andThen fun _ => unchanged_makesIo _

theorem moveSp_makesIo (t : Int) : MakesIo 0 (moveSp t) := by
  intro s
  unfold moveSp; split
  · exact .of_eq rfl le_rfl
  · exact raise_addsIo _ _ s

theorem memRead_makesIo (a : Int) : MakesIo 1 (memRead a) := by
  intro s
  unfold memRead
  split
  · exact raise_addsIo _ _ s
  · split
    · exact afterGet_addsIo s _
    · split
      · exact raise_addsIo _ _ s
      · exact .refl s

theorem memWrite_makesIo (a : Int) (v : Byte) : MakesIo 1 (memWrite a v) := by
  intro s
  unfold memWrite; split
  · exact raise_addsIo _ _ s
  · exact writeAt_addsIo s _ v

theorem push_makesIo (v : Byte) : MakesIo 1 (push v) :=
  (readPair_makesIo _ _).andThen fun _ => (memWrite_makesIo _ v).andThen fun _ => moveSp_makesIo _

theorem pop_makesIo : MakesIo 1 pop :=
  (readPair_makesIo _ _).andThen fun _ => (moveSp_makesIo _).andThen fun _ => memRead_makesIo _

theorem loadInto_makesIo (r : Reg) (a : Int) : MakesIo 1 (loadInto r a) :=
  (memRead_makesIo a).andThen (setReg_makesIo r)

theorem storeFrom_makesIo (r : Reg) (a : Int) : MakesIo 1 (storeFrom r a) :=
  (readReg_makesIo r).andThen fun v => memWrite_makesIo a v

theorem jumpIf_makesIo (f : Flag) (wanted : Bool) (w : Word) : MakesIo 0 (jumpIf f wanted w) := by
  refine fun s => Res.andThen_addsIo (m := 0) (readFlag_makesIo f s) fun v t => ?_
  change AddsIo 0 t (if v == wanted then t.setPc w else t)
  split
  · exact .of_eq rfl le_rfl
  · exact .refl t

theorem call_makesIo (w : Word) : MakesIo 2 (call w) :=
  (readPair_makesIo _ _).andThen fun _ => (push_makesIo _).andThen fun _ => (push_makesIo _).andThen fun _ =>
    setPc_makesIo w

theorem alu1_makesIo (f : Int → Int) (r : Reg) : MakesIo 0 (alu1 f r) :=
  (readReg_makesIo r).andThen fun x => done_makesIo () (·.setResult r (f x.toNat)) (fun _ => rfl) fun _ => le_rfl

theorem alu2_makesIo (f : Int → Int → Int) (rd rs : Reg) : MakesIo 0 (alu2 f rd rs) :=
  (readTwo_makesIo rd rs).andThen fun xy =>
    done_makesIo () (·.setResult rd (f xy.1.toNat xy.2.toNat)) (fun _ => rfl) fun _ => le_rfl

theorem undefFlags_addsIo {s t : State} (h : AddsIo 0 s t) : AddsIo 0 s t.undefFlags :=
  h.trans (m := 0) (.of_eq rfl (Nat.le_add_right _ 2))

theorem undefReg_addsIo (s : State) (r : Reg) : AddsIo 0 s (s.undefReg r) := .of_eq rfl (Nat.le_add_right _ 1)

theorem shift_makesIo (f : Nat → Nat → Nat) (rd rs : Reg) : MakesIo 0 (shift f rd rs) := by
  refine fun s => Res.andThen_addsIo (m := 0) (readTwo_makesIo rd rs s) fun xy t => undefFlags_addsIo ?_
  split
  · exact .of_eq rfl le_rfl
  · exact undefReg_addsIo t rd

theorem counter_makesIo (f : Word → Word) (rl rh : Reg) : MakesIo 0 (counter f rl rh) := by
  refine fun s => Res.andThen_addsIo (m := 0) (readPair_makesIo rl rh s) fun w t => undefFlags_addsIo ?_
  split
  · exact undefReg_addsIo t rl
  · exact .of_eq rfl le_rfl

/-! ### Execution -/

/-- An instruction makes at most two I/O calls: the two pushes of a call, or the two pops of a return. -/
theorem exec_addsIo (i : Instr) {s t : State} (h : exec i s = .next t) : AddsIo 2 s t := by
  cases i with
  | num r v => exact (setReg_makesIo r v).outcome (by decide) h
  | mov rd rs => exact ((readReg_makesIo rs).andThen (setReg_makesIo rd)).outcome (by decide) h
  | jmp lo hi => exact (setPc_makesIo _).outcome (by decide) h
  | jin rl rh => exact ((readPair_makesIo rl rh).andThen setPc_makesIo).outcome (by decide) h
  | jiz lo hi => exact (jumpIf_makesIo _ _ _).outcome (by decide) h
  | jnz lo hi => exact (jumpIf_makesIo _ _ _).outcome (by decide) h
  | jic lo hi => exact (jumpIf_makesIo _ _ _).outcome (by decide) h
  | jnc lo hi => exact (jumpIf_makesIo _ _ _).outcome (by decide) h
  | clc lo hi => exact (call_makesIo _).outcome (by decide) h
  | clr rl rh => exact ((readPair_makesIo rl rh).andThen call_makesIo).outcome (by decide) h
  | ret =>
    exact (pop_makesIo.andThen fun hi => pop_makesIo.andThen fun lo =>
      setPc_makesIo (cat hi lo)).outcome (by decide) h
  | alc n => exact ((readPair_makesIo _ _).andThen fun _ => moveSp_makesIo _).outcome (by decide) h
  | eat n => exact ((readPair_makesIo _ _).andThen fun _ => moveSp_makesIo _).outcome (by decide) h
  | ofg r off => exact ((slotOperand_makesIo off).andThen (loadInto_makesIo r)).outcome (by decide) h
  | ofs r off => exact ((slotOperand_makesIo off).andThen (storeFrom_makesIo r)).outcome (by decide) h
  | pop r => exact (pop_makesIo.andThen (setReg_makesIo r)).outcome (by decide) h
  | psh r => exact ((readReg_makesIo r).andThen push_makesIo).outcome (by decide) h
  | gec lo hi => exact (loadInto_makesIo _ _).outcome (by decide) h
  | sec lo hi => exact (storeFrom_makesIo _ _).outcome (by decide) h
  | ger rl rh => exact ((readPair_makesIo rl rh).andThen fun _ => loadInto_makesIo _ _).outcome (by decide) h
  | ser rl rh => exact ((readPair_makesIo rl rh).andThen fun _ => storeFrom_makesIo _ _).outcome (by decide) h
  | inc r => exact (alu1_makesIo _ r).outcome (by decide) h
  | dec r => exact (alu1_makesIo _ r).outcome (by decide) h
  | add rd rs => exact (alu2_makesIo _ rd rs).outcome (by decide) h
  | sub rd rs => exact (alu2_makesIo _ rd rs).outcome (by decide) h
  | mul rd rs => exact (alu2_makesIo _ rd rs).outcome (by decide) h
  | shl rd rs => exact (shift_makesIo _ rd rs).outcome (by decide) h
  | shr rd rs => exact (shift_makesIo _ rd rs).outcome (by decide) h
  | inl rl rh => exact (counter_makesIo _ rl rh).outcome (by decide) h
  | del rl rh => exact (counter_makesIo _ rl rh).outcome (by decide) h
  | hlt => cases h; exact .of_eq rfl le_rfl

/-! ### Fetch and step -/

theorem fetchByte_makesIo : MakesIo 1 fetchByte := by
  refine fun s => Res.andThen_addsIo (m := 0) (memRead_makesIo s.pc.toNat s) fun b t => ?_
  split
  · exact raise_addsIo _ _ t
  · exact .of_eq rfl le_rfl

theorem fetchBytes_makesIo (n : Nat) : MakesIo n (fetchBytes n) := by
  induction n with
  | zero => exact unchanged_makesIo _
  | succ n ih =>
    have h : MakesIo (1 + n) (fetchBytes (n + 1)) :=
      fetchByte_makesIo.andThen fun _ => ih.andThen fun _ => unchanged_makesIo _
    exact h.mono (by omega)

theorem kinds_length_le (m : Mnemonic) : m.kinds.length ≤ 2 := by cases m <;> decide

theorem fetchOperands_makesIo (m : Mnemonic) : MakesIo m.kinds.length (fetchOperands m) := by
  refine fun s => Res.andThen_addsIo (m := 0) (fetchBytes_makesIo _ s) fun bs t => ?_
  split
  · exact raise_addsIo _ _ t
  · exact .refl t

/-- The fetch after its opcode byte: the mnemonic of the byte, then the operands. -/
def fetchAfterOpcode (op : Byte) (s : State) : Res Instr :=
  match romLookup s.cfg.codes op with
  | none => raise .invalidOpcode (.byte op) s
  | some m => fetchOperands m s

theorem fetch_eq (s : State) :
    fetch s = (latchPc s).andThen fun _ s => (fetchByte s).andThen fetchAfterOpcode := rfl

theorem fetchAfterOpcode_makesIo (op : Byte) : MakesIo 2 (fetchAfterOpcode op) := by
  intro s
  unfold fetchAfterOpcode
  split
  · exact raise_addsIo _ _ s
  · next m _ => exact (fetchOperands_makesIo m).mono (kinds_length_le m) s

theorem latchPc_makesIo : MakesIo 0 latchPc := fun s => readPair_makesIo .ipl .iph { s with pc0 := s.pc }

theorem fetch_makesIo : MakesIo 3 fetch :=
  latchPc_makesIo.andThen fun _ => fetchByte_makesIo.andThen fetchAfterOpcode_makesIo

/-- An instruction adds at most two calls to those of its fetch. -/
theorem runFetched_addsIo {n : Nat} {s : State} {x : Res Instr} (hx : x.Rel (AddsIo n) s) :
    ∃ t, runFetched x = .next t ∧ AddsIo (n + 2) s t := by
  cases x with
  | raised t => exact ⟨t, rfl, hx.mono (Nat.le_add_right n 2)⟩
  | done i u =>
    obtain ⟨t, ht⟩ := exec_answers_next i u
    exact ⟨t, ht, AddsIo.trans hx (exec_addsIo i ht)⟩

/-- Settles O25: three calls of the fetch and two of the instruction. -/
theorem ioCallsAreNeverUndone : Obligations.IoCallsAreNeverUndone := by
  intro s t h
  obtain ⟨u, hu, hio⟩ := runFetched_addsIo (fetch_makesIo s)
  rw [step_running (step_inv h).1, hu] at h
  cases h
  exact hio

/-- The fetch of a byte in the window makes one call of the device and no other. -/
theorem fetchByte_window {s : State} (hio : s.isIo s.pc.toNat = true) :
    (fetchByte s).Rel (AddsIo 0) (s.afterGet (s.ioOffset s.pc.toNat)) := by
  rw [fetchByte, memRead_window s.pc.isLt hio, Res.andThen_done]
  split
  · exact raise_addsIo _ _ _
  · exact .of_eq rfl le_rfl

/-- Settles O26: the fetch of the opcode byte makes the first call, and every later call is added after it. -/
theorem fetchInWindowAsksDevice : Obligations.FetchInWindowAsksDevice := by
  intro s hrun hread hio
  have hfetch : (fetch s).Rel (AddsIo 2) (State.afterGet { s with pc0 := s.pc } (s.ioOffset s.pc.toNat)) := by
    rw [fetch_eq, latchPc_done hread]
    exact Res.andThen_addsIo (fetchByte_window (s := { s with pc0 := s.pc }) hio) fetchAfterOpcode_makesIo
  obtain ⟨t, hstep, l, hlog, -, -⟩ := runFetched_addsIo hfetch
  refine ⟨t, Config.ioByte s.draws (s.ioOffset s.pc.toNat), l, (step_running hrun).trans hstep, ?_⟩
  rw [hlog, State.afterGet_ioLog, List.append_assoc]
  rfl

end Sys2Proof.Machine

/-! # Encoding: what the decoder answers

One equation per outcome of `decode`, and the operand format of every mnemonic (30_encoding.md R65), from which the
answer of `build` follows without looking at the 31 mnemonics again. -/

namespace Sys2Proof

theorem decode_of_no_entry {c : Codes} {op : Byte} (hop : romLookup c op = none) (rest : List Byte) :
    decode c (op :: rest) = .error (.invalidOpcode op) := by
  rw [decode, hop]

theorem decode_of_too_few {c : Codes} {op : Byte} {m : Mnemonic} {rest : List Byte} (hop : romLookup c op = some m)
    (hlen : rest.length < m.kinds.length) : decode c (op :: rest) = .error .truncated := by
  simp only [decode, hop, if_pos hlen]

/-- With enough bytes after the opcode byte, decoding answers what its operand bytes build. -/
theorem decode_of_enough {c : Codes} {op : Byte} {m : Mnemonic} {rest : List Byte} (hop : romLookup c op = some m)
    (hlen : m.kinds.length ≤ rest.length) :
    decode c (op :: rest) = ((buildList c m (rest.take m.kinds.length)).mapError .invalidRegister).map
      fun i => (i, rest.drop m.kinds.length) := by
  simp only [decode, hop, if_neg (Nat.not_lt.2 hlen)]
  cases buildList c m (rest.take m.kinds.length) <;> rfl

/-- The four answers of the decoder to an opcode byte and the bytes after it, with what each says of them. -/
inductive DecodeAnswer (c : Codes) (op : Byte) (rest : List Byte) : Except DecodeError (Instr × List Byte) → Prop where
  | noEntry (hop : romLookup c op = none) : DecodeAnswer c op rest (.error (.invalidOpcode op))
  | tooFew {m : Mnemonic} (hop : romLookup c op = some m) (hlt : rest.length < m.kinds.length) :
      DecodeAnswer c op rest (.error .truncated)
  | badRegister {m : Mnemonic} {b : Byte} (hop : romLookup c op = some m) (hle : m.kinds.length ≤ rest.length)
      (hbuild : buildList c m (rest.take m.kinds.length) = .error b) :
      DecodeAnswer c op rest (.error (.invalidRegister b))
  | instr {m : Mnemonic} {i : Instr} (hop : romLookup c op = some m) (hle : m.kinds.length ≤ rest.length)
      (hbuild : buildList c m (rest.take m.kinds.length) = .ok i) :
      DecodeAnswer c op rest (.ok (i, rest.drop m.kinds.length))

theorem decode_answer (c : Codes) (op : Byte) (rest : List Byte) : DecodeAnswer c op rest (decode c (op :: rest)) := by
  cases hop : romLookup c op with
  | none => rw [decode_of_no_entry hop]; exact .noEntry hop
  | some m =>
    rcases Nat.lt_or_ge rest.length m.kinds.length with hlt | hle
    · rw [decode_of_too_few hop hlt]; exact .tooFew hop hlt
    · rw [decode_of_enough hop hle]
      cases hbuild : buildList c m (rest.take m.kinds.length) with
      | error b => exact .badRegister hop hle hbuild
      | ok i => exact .instr hop hle hbuild

/-- Bytes that decode begin with an opcode byte, and the operand bytes after it build the instruction. -/
theorem decode_ok_inv {c : Codes} {op : Byte} {rest rest' : List Byte} {i : Instr}
    (h : decode c (op :: rest) = .ok (i, rest')) :
    ∃ m, romLookup c op = some m ∧ m.kinds.length ≤ rest.length ∧
      buildList c m (rest.take m.kinds.length) = .ok i ∧ rest' = rest.drop m.kinds.length := by
  have hanswer := decode_answer c op rest
  rw [h] at hanswer
  cases hanswer with
  | instr hop hle hbuild => exact ⟨_, hop, hle, hbuild, rfl⟩

/-- Decoding runs out of bytes exactly after an opcode byte that wants more of them. -/
theorem decode_truncated_iff {c : Codes} {op : Byte} {rest : List Byte} :
    decode c (op :: rest) = .error .truncated ↔ ∃ m, romLookup c op = some m ∧ rest.length < m.kinds.length := by
  refine ⟨fun h => ?_, fun ⟨m, hop, hlt⟩ => decode_of_too_few hop hlt⟩
  have hanswer := decode_answer c op rest
  rw [h] at hanswer
  cases hanswer with
  | tooFew hop hlt => exact ⟨_, hop, hlt⟩

theorem decode_invalidOpcode_iff {c : Codes} {op : Byte} {rest : List Byte} :
    decode c (op :: rest) = .error (.invalidOpcode op) ↔ op ∉ c.opcodeBytes := by
  refine ⟨fun h => ?_, fun hop => decode_of_no_entry (romLookup_eq_none.2 hop) rest⟩
  have hanswer := decode_answer c op rest
  rw [h] at hanswer
  cases hanswer with
  | noEntry hop => exact romLookup_eq_none.1 hop

/-! ### Operand formats -/

/-- How the answer `x` for the mnemonic `m` and the operand bytes `b1`, `b2` comes about, by its operand kinds
(30_encoding.md R65): only REGISTER bytes can be refused, and what is built has the mnemonic `m`. -/
inductive BuiltAs (c : Codes) (m : Mnemonic) (b1 b2 : Byte) : List OperandKind → Except Byte Instr → Prop where
  | r (mk : Reg → Instr) (hmk : ∀ r, (mk r).mnemonic = m) : BuiltAs c m b1 b2 [.register] (buildR c mk b1)
  | ri (mk : Reg → Byte → Instr) (hmk : ∀ r b, (mk r b).mnemonic = m) :
      BuiltAs c m b1 b2 [.register, .immediate] (buildRI c mk b1 b2)
  | rr (mk : Reg → Reg → Instr) (hmk : ∀ r q, (mk r q).mnemonic = m) :
      BuiltAs c m b1 b2 [.register, .register] (buildRR c mk b1 b2)
  | imm {ks : List OperandKind} (i : Instr) (hks : .register ∉ ks) (hi : i.mnemonic = m) : BuiltAs c m b1 b2 ks (.ok i)

theorem build_builtAs (c : Codes) (m : Mnemonic) (b1 b2 : Byte) : BuiltAs c m b1 b2 m.kinds (build c m b1 b2) := by
  cases m
  case pop | psh | inc | dec => exact .r _ fun _ => rfl
  case num | ofg | ofs => exact .ri _ fun _ _ => rfl
  case mov | jin | clr | ger | ser | add | sub | mul | shl | shr | inl | del => exact .rr _ fun _ _ => rfl
  case jmp | jiz | jnz | jic | jnc | clc | gec | sec | alc | eat | ret | hlt => exact .imm _ (by decide) rfl

theorem buildR_eq_ok {c : Codes} {mk : Reg → Instr} {b : Byte} {i : Instr} (h : buildR c mk b = .ok i) :
    ∃ r, i = mk r := by
  unfold buildR at h
  split at h
  · cases h
  · next r _ => cases h; exact ⟨r, rfl⟩

theorem buildRR_eq_ok {c : Codes} {mk : Reg → Reg → Instr} {b1 b2 : Byte} {i : Instr}
    (h : buildRR c mk b1 b2 = .ok i) : ∃ r q, i = mk r q := by
  unfold buildRR at h
  split at h
  · cases h
  · next r _ => exact ⟨r, buildR_eq_ok h⟩

theorem BuiltAs.mnemonic_eq {c : Codes} {m : Mnemonic} {b1 b2 : Byte} {ks : List OperandKind} {i : Instr}
    (h : BuiltAs c m b1 b2 ks (.ok i)) : i.mnemonic = m := by
  generalize hx : Except.ok i = x at h
  cases h with
  | r mk hmk => obtain ⟨r, rfl⟩ := buildR_eq_ok hx.symm; exact hmk r
  | ri mk hmk => obtain ⟨r, rfl⟩ := buildR_eq_ok hx.symm; exact hmk r b2
  | rr mk hmk => obtain ⟨r, q, rfl⟩ := buildRR_eq_ok hx.symm; exact hmk r q
  | imm j _ hj => cases hx; exact hj

/-- What a mnemonic's operand bytes build is an instruction of that mnemonic. -/
theorem mnemonic_of_buildList {c : Codes} {m : Mnemonic} {bs : List Byte} {i : Instr} (h : buildList c m bs = .ok i) :
    i.mnemonic = m := by
  have hbuilt := build_builtAs c m (bs.getD 0 0#8) (bs.getD 1 0#8)
  rw [← buildList, h] at hbuilt
  exact hbuilt.mnemonic_eq

theorem buildR_of_bad {c : Codes} (mk : Reg → Instr) {b : Byte} (h : b ∉ c.registerBytes) :
    buildR c mk b = .error b := by
  rw [buildR, regOfByte_eq_none.2 h]

theorem buildRR_of_bad_fst {c : Codes} (mk : Reg → Reg → Instr) {b1 : Byte} (b2 : Byte) (h : b1 ∉ c.registerBytes) :
    buildRR c mk b1 b2 = .error b1 := by
  rw [buildRR, regOfByte_eq_none.2 h]

theorem buildRR_of_bad_snd {c : Codes} (mk : Reg → Reg → Instr) {b1 b2 : Byte} (h1 : b1 ∈ c.registerBytes)
    (h2 : b2 ∉ c.registerBytes) : buildRR c mk b1 b2 = .error b2 := by
  cases hr : regOfByte c b1 with
  | none => exact absurd h1 (regOfByte_eq_none.1 hr)
  | some r => rw [buildRR, hr]; exact buildR_of_bad _ h2

/-- Operand byte `k` is the first REGISTER byte, in operand order, that names no register. -/
structure FirstBadRegister (c : Codes) (ks : List OperandKind) (bs : List Byte) (k : Nat) (hk : k < bs.length) :
    Prop where
  register : ks[k]? = some .register
  bad : bs[k] ∉ c.registerBytes
  good_before : ∀ j (h : j < k), ks[j]? = some .register → bs[j] ∈ c.registerBytes

theorem BuiltAs.error_of_firstBad {c : Codes} {m : Mnemonic} {bs : List Byte} {ks : List OperandKind}
    {x : Except Byte Instr} {k : Nat} {hk : k < bs.length} (h : BuiltAs c m (bs.getD 0 0#8) (bs.getD 1 0#8) ks x)
    (hfirst : FirstBadRegister c ks bs k hk) : x = .error bs[k] := by
  obtain ⟨hreg, hbad, hgood⟩ := hfirst
  have hget : bs.getD k 0#8 = bs[k] := (List.getElem_eq_getD 0#8).symm
  rw [← hget] at hbad ⊢
  cases h with
  | r mk =>
    match k with
    | 0 => exact buildR_of_bad mk hbad
    | k + 1 => cases hreg
  | ri mk =>
    match k with
    | 0 => exact buildR_of_bad _ hbad
    | 1 => cases hreg
    | k + 2 => cases hreg
  | rr mk =>
    match k with
    | 0 => exact buildRR_of_bad_fst mk _ hbad
    | 1 =>
      have h0 := hgood 0 Nat.one_pos rfl
      rw [List.getElem_eq_getD 0#8] at h0
      exact buildRR_of_bad_snd mk h0 hbad
    | k + 2 => cases hreg
  | imm i hks => exact absurd (List.mem_of_getElem? hreg) hks

/-- The decoder names the first bad REGISTER byte (30_encoding.md R68). -/
theorem buildList_of_firstBad {c : Codes} {m : Mnemonic} {bs : List Byte} {k : Nat} {hk : k < bs.length}
    (hfirst : FirstBadRegister c m.kinds bs k hk) : buildList c m bs = .error bs[k] :=
  (build_builtAs c m _ _).error_of_firstBad hfirst

/-! ### Lengths -/

theorem length_le_of_decode {c : Codes} {bs rest : List Byte} {i : Instr} (h : decode c bs = .ok (i, rest)) :
    i.length ≤ bs.length := by
  cases bs with
  | nil => cases h
  | cons op bs =>
    obtain ⟨m, -, hle, hbuild, -⟩ := decode_ok_inv h
    rw [Instr.length, mnemonic_of_buildList hbuild, List.length_cons, Nat.add_comm]
    exact Nat.add_le_add_right hle 1

/-- The bytes of the decoded instruction decode to it alone. -/
theorem decode_take_length {c : Codes} {bs rest : List Byte} {i : Instr} (h : decode c bs = .ok (i, rest)) :
    decode c (bs.take i.length) = .ok (i, []) := by
  cases bs with
  | nil => cases h
  | cons op bs =>
    obtain ⟨m, hop, hle, hbuild, -⟩ := decode_ok_inv h
    have hlen : (bs.take m.kinds.length).length = m.kinds.length := List.length_take_of_le hle
    rw [Instr.length, mnemonic_of_buildList hbuild, Nat.add_comm, List.take_succ_cons, decode_of_enough hop hlen.ge,
      List.take_take, Nat.min_self, hbuild, List.drop_eq_nil_of_le hlen.le]
    rfl

/-- Settles O3: the length is that of the ROM entry, which is the entry of the mnemonic built. -/
theorem opcodeAloneFixesLength : Obligations.OpcodeAloneFixesLength := by
  refine fun c op rest => ⟨fun i rest' h => ?_, decode_truncated_iff⟩
  obtain ⟨m, hop, hle, hbuild, hdrop⟩ := decode_ok_inv h
  rw [mnemonic_of_buildList hbuild]
  exact ⟨hop, hle, hdrop⟩

/-- The bytes of the numbers below `n`. -/
theorem mem_map_range_iff {n : Nat} {b : Byte} : b ∈ (List.range n).map (BitVec.ofNat 8) ↔ b.toNat < n := by
  rw [List.mem_map]
  constructor
  · rintro ⟨k, hk, rfl⟩
    rw [BitVec.toNat_ofNat]
    exact (Nat.mod_le _ _).trans_lt (List.mem_range.1 hk)
  · exact fun h => ⟨b.toNat, List.mem_range.2 h, by simp⟩

/-- The decided numbers leave no gap: D1 counts the mnemonics from 0 on. -/
theorem decided_opcodeBytes : Codes.decided.opcodeBytes = (List.range 31).map (BitVec.ofNat 8) := by decide

/-- D2 counts the registers from 0 on. -/
theorem decided_registerBytes : Codes.decided.registerBytes = (List.range 9).map (BitVec.ofNat 8) := by decide

/-- Settles O4: the illegal bytes are those the ROM has no entry for, and the decided numbers leave no gap. -/
theorem opcodesAboveHltAreIllegal : Obligations.OpcodesAboveHltAreIllegal := by
  refine ⟨fun c op rest => decode_invalidOpcode_iff, fun op rest => ?_, fun b => ?_⟩
  · rw [decode_invalidOpcode_iff, decided_opcodeBytes, mem_map_range_iff, Nat.not_lt]
  · rw [decided_registerBytes, mem_map_range_iff, Nat.not_lt]

end Sys2Proof

/-! # Encoding: fetching bytes that storage holds

A fetch that stays below the top of memory walks through the states `State.fetched s 1`, `State.fetched s 2`, ...; what it
answers at the end is what the decoder builds. -/

namespace Sys2Proof.Machine

theorem State.setPc_keepsRegs (s : State) (w : Word) : KeepsRegsBut s (s.setPc w) [.ipl, .iph] := by
  intro r hr
  obtain ⟨hl, hh⟩ : r ≠ .ipl ∧ r ≠ .iph := by simpa using hr
  rw [State.setPc_regs, Regs.get_set_ne _ _ _ _ hh, Regs.get_set_ne _ _ _ _ hl]

theorem toNat_add_ofNat {w : Word} {n : Nat} (h : w.toNat + n ≤ 0xFFFF) :
    (w + BitVec.ofNat 16 n).toNat = w.toNat + n := by
  rw [BitVec.toNat_add, BitVec.toNat_ofNat, Nat.add_mod_mod]
  exact Nat.mod_eq_of_lt (Nat.lt_succ_of_le h)

/-- Storage holds the bytes `bs` from address `a` on. -/
def State.HoldsAt (s : State) (a : Nat) (bs : List Byte) : Prop :=
  ∀ k (h : k < bs.length), s.holdsByte (a + k) bs[k]

theorem State.HoldsAt.head {s : State} {a : Nat} {b : Byte} {bs : List Byte} (h : s.HoldsAt a (b :: bs)) :
    s.holdsByte a b := h 0 (Nat.succ_pos _)

theorem State.HoldsAt.tail {s : State} {a : Nat} {b : Byte} {bs : List Byte} (h : s.HoldsAt a (b :: bs)) :
    s.HoldsAt (a + 1) bs := by
  intro k hk
  rw [Nat.add_right_comm]
  exact h (k + 1) (Nat.succ_lt_succ hk)

theorem State.HoldsAt.cons {s : State} {a : Nat} {b : Byte} {bs : List Byte} (hb : s.holdsByte a b)
    (h : s.HoldsAt (a + 1) bs) : s.HoldsAt a (b :: bs) := by
  intro k hk
  cases k with
  | zero => exact hb
  | succ k => rw [Nat.add_left_comm, Nat.add_comm]; exact h k (Nat.lt_of_succ_lt_succ hk)

theorem State.HoldsAt.take {s : State} {a : Nat} {bs : List Byte} (h : s.HoldsAt a bs) (n : Nat) :
    s.HoldsAt a (bs.take n) := by
  intro k hk
  rw [List.getElem_take]
  exact h k _

/-- The state in which an instruction of `n` bytes at IP is executed: `pc0` at its opcode byte, IP past its last byte
(30_encoding.md R61; 10_state.md R21). -/
def State.fetched (s : State) (n : Nat) : State := State.setPc { s with pc0 := s.pc } (s.pc + BitVec.ofNat 16 n)

/-- Everything but IP, `pc0` and the error record is as it was. -/
structure KeepsButFetch (s t : State) : Prop where
  regs : KeepsRegsBut s t [.ipl, .iph]
  flags : KeepsFlags s t
  storage : KeepsStorageBut s t []
  io : KeepsIo s t
  cfg : t.cfg = s.cfg
  loaded : t.loaded = s.loaded
  halted : t.halted = s.halted

theorem State.fetched_keeps (s : State) (n : Nat) : KeepsButFetch s (s.fetched n) where
  regs := State.setPc_keepsRegs { s with pc0 := s.pc } _
  flags := ⟨State.setPc_zero .., State.setPc_carry ..⟩
  storage _ _ := rfl
  io := ⟨State.setPc_ioLog .., State.setPc_draws ..⟩
  cfg := State.setPc_cfg ..
  loaded := State.setPc_loaded ..
  halted := State.setPc_halted ..

theorem State.fetched_pc0 (s : State) (n : Nat) : (s.fetched n).pc0 = s.pc := State.setPc_pc0 ..

theorem State.fetched_pc {s : State} {n : Nat} (h : s.pc.toNat + n ≤ 0xFFFF) :
    (s.fetched n).pc.toNat = s.pc.toNat + n := by
  rw [State.fetched, State.setPc_pc, toNat_add_ofNat h]

theorem State.fetched_succ (s : State) (n : Nat) :
    (s.fetched n).setPc ((s.fetched n).pc + 1) = s.fetched (n + 1) := by
  rw [State.fetched, State.setPc_pc, BitVec.add_assoc]
  exact congrArg (fun w => State.setPc { s with pc0 := s.pc } (s.pc + w)) (BitVec.ofNat_add n 1).symm

theorem fetchByte_fetched {s : State} {n : Nat} {b : Byte} (hb : s.holdsByte (s.pc.toNat + n) b)
    (hlt : s.pc.toNat + n < 0xFFFF) : fetchByte (s.fetched n) = .done b (s.fetched (n + 1)) := by
  have hpc := State.fetched_pc hlt.le
  have hb' : (s.fetched n).holdsByte (s.fetched n).pc.toNat b := hpc.symm ▸ hb
  rw [fetchByte_storage hb' (hpc.trans_lt hlt), State.fetched_succ]

/-- Fetching stored bytes gives them and moves IP past them. -/
theorem fetchBytes_fetched {s : State} {n : Nat} {bs : List Byte} (hb : s.HoldsAt (s.pc.toNat + n) bs)
    (hend : s.pc.toNat + n + bs.length ≤ 0xFFFF) :
    fetchBytes bs.length (s.fetched n) = .done bs (s.fetched (n + bs.length)) := by
  induction bs generalizing n with
  | nil => rfl
  | cons b bs ih =>
    rw [List.length_cons] at hend
    rw [List.length_cons, fetchBytes, fetchByte_fetched hb.head (by omega), Res.andThen_done, ih hb.tail (by omega),
      Res.andThen_done, Nat.add_right_comm, Nat.add_assoc]

/-- The end of a fetch: the instruction that the operand bytes built, or InvalidRegister. -/
def answerBuilt (x : Except Byte Instr) (s : State) : Res Instr :=
  match x with
  | .error b => raise .invalidRegister (.byte b) s
  | .ok i => .done i s

theorem fetchOperands_eq (m : Mnemonic) (s : State) :
    fetchOperands m s =
      (fetchBytes m.kinds.length s).andThen fun bs s => answerBuilt (buildList s.cfg.codes m bs) s := rfl

/-- A fetch whose opcode byte storage holds below the top of memory goes on after it. -/
theorem fetch_opcode {s : State} {op : Byte} (hread : s.canReadPc) (hb : s.holdsByte s.pc.toNat op)
    (hlt : s.pc.toNat < 0xFFFF) : fetch s = fetchAfterOpcode op (s.fetched 1) := by
  rw [fetch_eq, latchPc_done hread, Res.andThen_done, fetchByte_storage (s := { s with pc0 := s.pc }) hb hlt]
  rfl

/-- An opcode byte with no entry ends the fetch (30_encoding.md R67). -/
theorem fetch_of_no_entry {s : State} {op : Byte} (hread : s.canReadPc) (hb : s.holdsByte s.pc.toNat op)
    (hlt : s.pc.toNat < 0xFFFF) (hop : romLookup s.cfg.codes op = none) :
    fetch s = raise .invalidOpcode (.byte op) (s.fetched 1) := by
  rw [fetch_opcode hread hb hlt, fetchAfterOpcode, (s.fetched_keeps 1).cfg, hop]

theorem fetch_of_entry {s : State} {op : Byte} {m : Mnemonic} (hread : s.canReadPc) (hb : s.holdsByte s.pc.toNat op)
    (hlt : s.pc.toNat < 0xFFFF) (hop : romLookup s.cfg.codes op = some m) :
    fetch s = fetchOperands m (s.fetched 1) := by
  rw [fetch_opcode hread hb hlt, fetchAfterOpcode, (s.fetched_keeps 1).cfg, hop]

/-- A fetch of stored bytes below the top of memory answers what they build. -/
theorem fetch_stored {s : State} {op : Byte} {m : Mnemonic} {bs : List Byte} (hread : s.canReadPc)
    (hop : romLookup s.cfg.codes op = some m) (hlen : bs.length = m.kinds.length)
    (hb : s.HoldsAt s.pc.toNat (op :: bs)) (hend : s.pc.toNat + (op :: bs).length ≤ 0xFFFF) :
    fetch s = answerBuilt (buildList s.cfg.codes m bs) (s.fetched (op :: bs).length) := by
  rw [List.length_cons] at hend ⊢
  rw [fetch_of_entry hread hb.head (by omega) hop, fetchOperands_eq, ← hlen, fetchBytes_fetched hb.tail (by omega),
    Res.andThen_done, (s.fetched_keeps _).cfg, Nat.add_comm]

/-- Settles O13: the fetch answers the instruction that the bytes build. -/
theorem stepRunsDecodedInstruction : Obligations.StepRunsDecodedInstruction := by
  intro s bs i hrun hread hdec hend hb
  cases bs with
  | nil => cases hdec
  | cons op rest =>
    obtain ⟨m, hop, hle, hbuild, hdrop⟩ := decode_ok_inv hdec
    have hlen : rest.length ≤ m.kinds.length := List.drop_eq_nil_iff.1 hdrop.symm
    rw [List.take_of_length_le hlen] at hbuild
    rw [step_running hrun, fetch_stored hread hop (hlen.antisymm hle) hb hend, hbuild]
    rfl

/-- Reading storage that nothing has written raises (20_memory.md R44). -/
theorem memRead_unwritten {s : State} {a : Nat} (h : s.unwritten a) :
    RaisesIn (memRead a s) s .undefinedRead (.address a) := by
  obtain ⟨ha, hio, hnone⟩ := h
  rw [memRead_nat ha]
  simp only [hio, hnone]
  exact ⟨_, rfl, rfl, rfl⟩

/-- Settles O16: the fetch raises after the opcode byte is looked up, or before that when it is read. -/
theorem badOpcodeByteRaises : Obligations.BadOpcodeByteRaises := by
  intro s hrun hread
  refine ⟨fun op hb hlt hop => step_of_fetch_raises hrun ?_, fun hnone => step_of_fetch_raises hrun ?_⟩
  · rw [fetch_of_no_entry hread hb hlt (romLookup_eq_none.2 hop)]
    exact ⟨_, rfl, rfl, rfl⟩
  · rw [fetch_eq, latchPc_done hread, Res.andThen_done]
    exact ((memRead_unwritten (s := { s with pc0 := s.pc }) hnone).andThen _).andThen _

/-- Settles O17: the operand bytes build nothing but the first bad one, and the fetch has only moved IP and latched
`pc0` when it raises. -/
theorem badRegisterByteRaises : Obligations.BadRegisterByteRaises := by
  intro s op m bs k hk hrun hread hop hlen hend hb0 hb hreg hbad hgood
  have hbuild : buildList s.cfg.codes m bs = .error bs[k] := buildList_of_firstBad ⟨hreg, hbad, hgood⟩
  constructor
  · rw [decode_of_enough hop hlen.ge, List.take_of_length_le hlen.le, hbuild]
    rfl
  · have hend' : s.pc.toNat + (op :: bs).length ≤ 0xFFFF := by rw [List.length_cons]; omega
    rw [step_running hrun, fetch_stored hread hop hlen (.cons hb0 hb) hend', hbuild]
    obtain ⟨hregs, hflags, hstorage, hio, hcfg, hloaded, hhalted⟩ := s.fetched_keeps (op :: bs).length
    exact ⟨_, rfl, rfl, hregs, hflags, hstorage, hio, hcfg, hloaded, hhalted⟩

/-! ### The word placed for the next fetch -/

/-- Three bytes fit below the top of memory and on one side of the window. -/
theorem State.fetchable_iff (s : State) (a : Nat) :
    s.fetchable a = true ↔
      (a + 2 < s.cfg.ioBase.toNat ∨ s.cfg.ioBase.toNat + 4095 < a) ∧ a + 3 ≤ 0xFFFF := by
  simp only [State.fetchable, Bool.and_eq_true, Bool.not_eq_true', decide_eq_true_eq, State.isIo_eq_false]
  omega

/-- Wherever the window is, the bytes at 0x0010 or those at 0x2000 lie outside it. -/
theorem State.placeFor_fetchable (s : State) : s.fetchable s.placeFor = true := by
  unfold State.placeFor
  split
  · assumption
  · split
    · assumption
    · next hlow =>
      rw [State.fetchable_iff] at hlow ⊢
      omega

theorem State.withFetchWord_pc (s : State) (nbits w : Nat) : (s.withFetchWord nbits w).pc.toNat = s.placeFor := by
  obtain ⟨-, htop⟩ := (s.fetchable_iff _).1 s.placeFor_fetchable
  have hpc : (s.withFetchWord nbits w).pc = BitVec.ofNat 16 s.placeFor := State.setPc_pc s _
  rw [hpc, BitVec.toNat_ofNat]
  exact Nat.mod_eq_of_lt (by omega)

/-- IP after placing a word: its three bytes fit below the top of memory and on one side of the window. -/
theorem State.withFetchWord_pc_fits (s : State) (nbits w : Nat) :
    ((s.withFetchWord nbits w).pc.toNat + 2 < s.cfg.ioBase.toNat ∨
      s.cfg.ioBase.toNat + 4095 < (s.withFetchWord nbits w).pc.toNat) ∧
      (s.withFetchWord nbits w).pc.toNat + 3 ≤ 0xFFFF := by
  rw [State.withFetchWord_pc]
  exact (s.fetchable_iff _).1 s.placeFor_fetchable

theorem State.withFetchWord_keepsRegs (s : State) (nbits w : Nat) :
    KeepsRegsBut s (s.withFetchWord nbits w) [.ipl, .iph] := s.setPc_keepsRegs _

theorem State.withFetchWord_read (s : State) (nbits w a : Nat) :
    (s.withFetchWord nbits w).mem.read a =
      if (s.withFetchWord nbits w).pc.toNat ≤ a ∧ a < (s.withFetchWord nbits w).pc.toNat + 3 then
        (tableBytes nbits w)[a - (s.withFetchWord nbits w).pc.toNat]?
      else s.mem.read a := by
  rw [State.withFetchWord_pc]
  exact Memory.read_writeList ..

theorem State.withFetchWord_keepsStorage (s : State) (nbits w : Nat) :
    KeepsStorageBut s (s.withFetchWord nbits w) [(s.withFetchWord nbits w).pc.toNat,
      (s.withFetchWord nbits w).pc.toNat + 1, (s.withFetchWord nbits w).pc.toNat + 2] := by
  intro a ha
  simp only [List.mem_cons, List.not_mem_nil, or_false] at ha
  rw [State.withFetchWord_read, if_neg (by omega)]

/-- The bytes of the word stand in storage at IP. -/
theorem State.withFetchWord_holdsAt (s : State) (nbits w : Nat) :
    (s.withFetchWord nbits w).HoldsAt (s.withFetchWord nbits w).pc.toNat (tableBytes nbits w) := by
  intro k hk
  have hk3 : k < 3 := hk
  obtain ⟨hout, htop⟩ := s.withFetchWord_pc_fits nbits w
  refine ⟨by rw [Config.memBytes]; omega, (s.isIo_eq_false _).2 (by omega), ?_⟩
  rw [State.withFetchWord_read, if_pos (by omega), Nat.add_sub_cancel_left, List.getElem?_eq_getElem hk]

theorem decodeWord_eq_some {c : Codes} {nbits w : Nat} {i : Instr} (h : decodeWord c nbits w = some i) :
    ∃ rest, decode c (tableBytes nbits w) = .ok (i, rest) := by
  unfold decodeWord at h
  split at h
  · next rest hdec => cases h; exact ⟨rest, hdec⟩
  · cases h

/-- Settles O14: the bytes of the word that are the instruction's stand at IP, so the step runs it
(`stepRunsDecodedInstruction`), and placing them changed only IP and storage there. -/
theorem fetchWordRunsItsInstruction : Obligations.FetchWordRunsItsInstruction := by
  intro s nbits w i hword
  obtain ⟨rest, hdec⟩ := decodeWord_eq_some hword
  have hle : i.length ≤ 3 := length_le_of_decode hdec
  have hlen : ((tableBytes nbits w).take i.length).length = i.length := List.length_take_of_le hle
  have hend : (s.withFetchWord nbits w).pc.toNat + i.length ≤ 0xFFFF := by
    have := (s.withFetchWord_pc_fits nbits w).2
    omega
  have hstep := stepRunsDecodedInstruction (s.withFetchWord nbits w) _ i rfl (s.setPc_canReadPc _)
    (decode_take_length hdec) (by rwa [hlen]) ((s.withFetchWord_holdsAt nbits w).take i.length)
  rw [hlen] at hstep
  have hregs := s.withFetchWord_keepsRegs nbits w
  have hstorage := s.withFetchWord_keepsStorage nbits w
  obtain ⟨hregs', hflags, hstorage', hio, hcfg, -, -⟩ := (s.withFetchWord nbits w).fetched_keeps i.length
  have hpc0 := (s.withFetchWord nbits w).fetched_pc0 i.length
  rw [← hpc0] at hstorage
  refine ⟨_, hstep, hpc0, hpc0 ▸ State.fetched_pc hend, fun r hr => (hregs' r hr).trans (hregs r hr), hflags, hio,
    hcfg, fun a ha => (hstorage' a List.not_mem_nil).trans (hstorage a ha)⟩

end Sys2Proof.Machine

/-! # Data move -/

namespace Sys2Proof.Machine

/-- A register write changes that one cell and no other part of the state (10_state.md R16). -/
theorem State.setReg_changesOnlyRegs (s : State) (r : Reg) (v : Byte) : ChangesOnlyRegs s (s.setReg r v) [r] := by
  refine ⟨fun q hq => ?_, ⟨rfl, rfl⟩, fun _ _ => rfl, ⟨rfl, rfl, rfl, rfl, rfl⟩, rfl, rfl⟩
  rw [State.setReg_regs, Regs.get_set_ne _ _ _ _ (List.ne_of_not_mem_cons hq)]

theorem exec_num (r : Reg) (i : Byte) (s : State) : exec (.num r i) s = .next (s.setReg r i) := rfl

theorem exec_mov_of_canRead {rs : Reg} {s : State} (h : s.canRead rs) (rd : Reg) :
    exec (.mov rd rs) s = .next (s.setReg rd (s.regVal rs)) := by
  change ((readReg rs s).andThen _).outcome = _
  rw [readReg_done h]
  rfl

/-- Settles O28: both instructions are one register write, `mov` after a read that changes nothing. -/
theorem movesFillRegister : Obligations.MovesFillRegister :=
  ⟨fun r i s => ⟨_, exec_num r i s, Regs.get_set_self .., s.setReg_changesOnlyRegs r i⟩,
    fun rd rs s h => ⟨_, exec_mov_of_canRead h rd, Regs.get_set_self .., s.setReg_changesOnlyRegs rd (s.regVal rs)⟩⟩

end Sys2Proof.Machine

/-! # Control flow: jumps -/

namespace Sys2Proof.Machine

/-- A write of a pair changes its two cells and no other part of the state (10_state.md R16, R17). -/
theorem State.setPair_changesOnlyRegs (s : State) (rl rh : Reg) (w : Word) :
    ChangesOnlyRegs s (s.setPair rl rh w) [rl, rh] := by
  refine ⟨fun q hq => ?_, ⟨rfl, rfl⟩, fun _ _ => rfl, ⟨rfl, rfl, rfl, rfl, rfl⟩, rfl, rfl⟩
  obtain ⟨hl, hh⟩ : q ≠ rl ∧ q ≠ rh := by simpa using hq
  rw [State.setPair_regs, Regs.get_set_ne _ _ _ _ hh, Regs.get_set_ne _ _ _ _ hl]

theorem State.setPc_changesOnlyRegs (s : State) (w : Word) : ChangesOnlyRegs s (s.setPc w) [.ipl, .iph] :=
  s.setPair_changesOnlyRegs .ipl .iph w

theorem exec_jmp (lo hi : Byte) (s : State) : exec (.jmp lo hi) s = .next (s.setPc (cat hi lo)) := rfl

theorem exec_jin_of_canRead {rl rh : Reg} {s : State} (hl : s.canRead rl) (hh : s.canRead rh) :
    exec (.jin rl rh) s = .next (s.setPc (s.pairVal rl rh)) := by
  change ((readPair rl rh s).andThen _).outcome = _
  rw [readPair_done hl hh]
  rfl

/-- Settles O29: both instructions are one move of IP, `jin` after reads that change nothing. -/
theorem jumpsSetIp : Obligations.JumpsSetIp := by
  refine ⟨fun lo hi s => ⟨_, exec_jmp lo hi s, ?_, s.setPc_changesOnlyRegs _⟩,
    fun rl rh s hl hh => ⟨_, exec_jin_of_canRead hl hh, ?_, s.setPc_changesOnlyRegs _⟩⟩
  · rw [State.setPc_pc, toNat_cat, Nat.mul_comm]
  · rw [State.setPc_pc, State.toNat_pairVal]

theorem jumpIf_of_canRead {f : Flag} {s : State} (h : s.canReadFlag f) (wanted : Bool) (w : Word) :
    jumpIf f wanted w s = .done () (if (s.flagCell f).val == wanted then s.setPc w else s) := by
  rw [jumpIf, readFlag_done h, Res.andThen_done]

/-- The two jumps on a flag: of each pair exactly one is taken, and the other leaves the state as it was. -/
theorem jumpIf_followsFlag {f : Flag} {s : State} (h : s.canReadFlag f) (w : Word) :
    (∃ t, (jumpIf f true w s).outcome = .next t ∧
      if (s.flagCell f).val = true then t.pc = w ∧ ChangesOnlyRegs s t [.ipl, .iph] else t = s) ∧
    (∃ t, (jumpIf f false w s).outcome = .next t ∧
      if (s.flagCell f).val = true then t = s else t.pc = w ∧ ChangesOnlyRegs s t [.ipl, .iph]) := by
  have htaken : (s.setPc w).pc = w ∧ ChangesOnlyRegs s (s.setPc w) [.ipl, .iph] :=
    ⟨s.setPc_pc w, s.setPc_changesOnlyRegs w⟩
  rw [jumpIf_of_canRead h, jumpIf_of_canRead h]
  cases (s.flagCell f).val with
  | true => exact ⟨⟨_, rfl, htaken⟩, ⟨_, rfl, rfl⟩⟩
  | false => exact ⟨⟨_, rfl, rfl⟩, ⟨_, rfl, htaken⟩⟩

/-- Settles O30. -/
theorem zeroJumpsFollowFlag : Obligations.ZeroJumpsFollowFlag :=
  fun lo hi _ h => jumpIf_followsFlag h (cat hi lo)

/-- Settles O31. -/
theorem carryJumpsFollowFlag : Obligations.CarryJumpsFollowFlag :=
  fun lo hi _ h => jumpIf_followsFlag h (cat hi lo)

end Sys2Proof.Machine

/-! # Stack: the states that a push and a pop leave

`State.pushed` and `State.popped` name the states; `push_of_lt` and `pop_of_readGives` say that the operations leave
them, and every other law speaks of the states alone. -/

namespace Sys2Proof.Machine

/-- What a push, a pop and a move of IP leave as it was: every register but IP and SP, the flags, the parameters, the
latches, the error record and `pc0`. -/
structure KeepsButPointers (s t : State) : Prop where
  regs : KeepsRegsBut s t [.ipl, .iph, .spl, .sph]
  flags : KeepsFlags s t
  control : KeepsControl s t

theorem KeepsRegsBut.mono {s t : State} {w w' : List Reg} (h : KeepsRegsBut s t w) (hw : w ⊆ w') :
    KeepsRegsBut s t w' := fun r hr => h r fun hmem => hr (hw hmem)

theorem KeepsButPointers.trans {s t u : State} (hst : KeepsButPointers s t) (htu : KeepsButPointers t u) :
    KeepsButPointers s u := by
  obtain ⟨hregs, ⟨hz, hc⟩, hcfg, hloaded, hhalted, hfault, hpc0⟩ := hst
  obtain ⟨hregs', ⟨hz', hc'⟩, hcfg', hloaded', hhalted', hfault', hpc0'⟩ := htu
  exact ⟨fun r hr => (hregs' r hr).trans (hregs r hr), ⟨hz'.trans hz, hc'.trans hc⟩, hcfg'.trans hcfg,
    hloaded'.trans hloaded, hhalted'.trans hhalted, hfault'.trans hfault, hpc0'.trans hpc0⟩

theorem KeepsButPointers.cfg {s t : State} (h : KeepsButPointers s t) : t.cfg = s.cfg := h.control.1

theorem KeepsButPointers.pc0 {s t : State} (h : KeepsButPointers s t) : t.pc0 = s.pc0 := by
  obtain ⟨-, -, -, -, hpc0⟩ := h.control
  exact hpc0

theorem State.setPc_keepsButPointers (s : State) (w : Word) : KeepsButPointers s (s.setPc w) := by
  obtain ⟨hregs, hflags, -, hcontrol, -⟩ := s.setPc_changesOnlyRegs w
  exact ⟨hregs.mono (by simp), hflags, hcontrol⟩

theorem State.setSp_keepsButPointers (s : State) (w : Word) : KeepsButPointers s (s.setSp w) := by
  obtain ⟨hregs, hflags, -, hcontrol, -⟩ := s.setPair_changesOnlyRegs .spl .sph w
  exact ⟨hregs.mono (by simp), hflags, hcontrol⟩

theorem State.writeAt_keepsButPointers (s : State) (a : Nat) (v : Byte) : KeepsButPointers s (s.writeAt a v) where
  regs r _ := congrArg (Regs.get · r) (s.writeAt_regs a v)
  flags := ⟨s.writeAt_zero a v, s.writeAt_carry a v⟩
  control := ⟨s.writeAt_cfg a v, s.writeAt_loaded a v, s.writeAt_halted a v, s.writeAt_fault a v, s.writeAt_pc0 a v⟩

theorem State.setSp_canReadSp (s : State) (w : Word) : (s.setSp w).canReadSp := by
  simp [State.canReadSp, State.canRead, State.readable, Regs.get_set]

theorem State.writeEvents_congr {s t : State} (h : t.cfg = s.cfg) (a : Nat) (v : Byte) :
    t.writeEvents a v = s.writeEvents a v := by
  rw [State.writeEvents, State.isIo_congr h, State.ioOffset_congr h, State.writeEvents]

theorem State.writeEvents_of_storage {s : State} {a : Nat} {v : Byte} (h : s.isIo a = false) :
    s.writeEvents a v = [] := by
  simp [State.writeEvents, h]

/-- The state after a push below the top of memory (20_memory.md R46). -/
def State.pushed (s : State) (v : Byte) : State := (s.writeAt s.sp.toNat v).setSp (s.sp + 1)

theorem push_of_lt {s : State} (hsp : s.canReadSp) (hlt : s.sp.toNat < 0xFFFF) (v : Byte) :
    push v s = .done () (s.pushed v) := push_done hsp hlt

theorem State.pushed_canReadSp (s : State) (v : Byte) : (s.pushed v).canReadSp := State.setSp_canReadSp ..

theorem State.pushed_keeps (s : State) (v : Byte) : KeepsButPointers s (s.pushed v) :=
  (s.writeAt_keepsButPointers _ v).trans (State.setSp_keepsButPointers _ _)

theorem State.pushed_toNat_sp {s : State} (hlt : s.sp.toNat < 0xFFFF) (v : Byte) :
    (s.pushed v).sp.toNat = s.sp.toNat + 1 := by
  rw [State.pushed, State.setSp_sp, toNat_add_one hlt]

/-- Storage after a push: the byte at the old SP, unless that is in the window, and every other byte as before. -/
theorem State.pushed_read (s : State) (v : Byte) (a : Nat) :
    (s.pushed v).mem.read a = if a = s.sp.toNat ∧ s.isIo s.sp.toNat = false then some v else s.mem.read a :=
  s.writeAt_read ..

theorem State.pushed_ioLog (s : State) (v : Byte) : (s.pushed v).ioLog = s.ioLog ++ s.writeEvents s.sp.toNat v :=
  s.writeAt_ioLog ..

theorem State.pushed_draws (s : State) (v : Byte) : (s.pushed v).draws = s.draws := s.writeAt_draws ..

/-- A push at the top of memory (20_memory.md R46; the spec's decision D7). -/
theorem push_top {s : State} (hsp : s.canReadSp) (htop : s.sp.toNat = 0xFFFF) (v : Byte) :
    ∃ t, push v s = .raised t ∧
      t.fault = some { kind := .addressOutOfRange, ip := s.pc0, value := .address 0x10000 } :=
  ⟨_, push_trap hsp htop, rfl⟩

theorem State.afterRead_of_storage {s : State} {a : Nat} (h : s.isIo a = false) : s.afterRead a = s := by
  simp [State.afterRead, h]

theorem State.readEvents_of_storage {s : State} {a : Nat} (h : s.isIo a = false) : s.readEvents a = [] := by
  simp [State.readEvents, h]

theorem State.holdsByte.isIo_eq_false {s : State} {a : Nat} {b : Byte} (h : s.holdsByte a b) : s.isIo a = false := h.2.1

theorem State.readGives_of_holdsByte {s : State} {a : Nat} {b : Byte} (h : s.holdsByte a b) : s.readGives a b := by
  obtain ⟨ha, hio, hread⟩ := h
  exact ⟨ha, by simp [hio, hread]⟩

@[simp] theorem State.afterRead_mem (s : State) (a : Nat) : (s.afterRead a).mem = s.mem := by
  unfold State.afterRead; split <;> rfl

theorem State.afterRead_ioLog (s : State) (a : Nat) : (s.afterRead a).ioLog = s.ioLog ++ s.readEvents a := by
  unfold State.afterRead State.readEvents
  split
  · rfl
  · exact (List.append_nil _).symm

theorem State.afterRead_keepsButPointers (s : State) (a : Nat) : KeepsButPointers s (s.afterRead a) := by
  unfold State.afterRead
  split <;> exact ⟨fun _ _ => rfl, ⟨rfl, rfl⟩, rfl, rfl, rfl, rfl, rfl⟩

/-- A read of the device does not look at the register file. -/
theorem State.setSp_afterRead (s : State) (w : Word) (a : Nat) :
    (s.setSp w).afterRead a = (s.afterRead a).setSp w :=
  (apply_ite (State.setSp · w) (s.isIo a = true) (s.afterGet (s.ioOffset a)) s).symm

/-- A read that gives a byte is done (the converse of `memRead_inv`). -/
theorem memRead_of_readGives {s : State} {a : Nat} {b : Byte} (h : s.readGives a b) :
    memRead a s = .done b (s.afterRead a) := by
  obtain ⟨ha, hb⟩ := h
  rw [memRead_nat ha, State.afterRead]
  split
  · next hio => rw [if_pos hio] at hb; rw [hb]
  · next hio => rw [if_neg hio] at hb; rw [hb]

/-- The state after a pop that gives a byte (20_memory.md R46). -/
def State.popped (s : State) : State := (s.afterRead (s.sp.toNat - 1)).setSp (s.sp - 1)

theorem pop_of_readGives {s : State} {b : Byte} (hsp : s.canReadSp) (hpos : 0 < s.sp.toNat)
    (h : s.readGives (s.sp.toNat - 1) b) : pop s = .done b s.popped := by
  rw [pop_done hsp hpos, memRead_of_readGives (s := s.setSp (s.sp - 1)) h, State.setSp_afterRead, State.popped]

theorem State.popped_canReadSp (s : State) : s.popped.canReadSp := State.setSp_canReadSp ..

theorem State.popped_keeps (s : State) : KeepsButPointers s s.popped :=
  (s.afterRead_keepsButPointers _).trans (State.setSp_keepsButPointers _ _)

theorem State.popped_toNat_sp {s : State} (hpos : 0 < s.sp.toNat) : s.popped.sp.toNat = s.sp.toNat - 1 := by
  rw [State.popped, State.setSp_sp]
  exact BitVec.toNat_sub_of_le hpos

@[simp] theorem State.popped_mem (s : State) : s.popped.mem = s.mem := s.afterRead_mem _

theorem State.popped_ioLog (s : State) : s.popped.ioLog = s.ioLog ++ s.readEvents (s.sp.toNat - 1) :=
  s.afterRead_ioLog _

theorem State.popped_unwritten {s : State} {a : Nat} (h : s.unwritten a) : s.popped.unwritten a := by
  rwa [State.unwritten, State.isIo_congr s.popped_keeps.cfg, State.popped_mem]

/-- A pop at the bottom of memory (20_memory.md R46; the spec's decision D7). -/
theorem pop_bottom {s : State} (hsp : s.canReadSp) (h : s.sp.toNat = 0) :
    RaisesIn (pop s) s .addressOutOfRange (.address (-1)) :=
  ⟨_, pop_trap hsp h, rfl, rfl⟩

/-- A pop of a byte that nothing has written (20_memory.md R44, R46). -/
theorem pop_unwritten {s : State} (hsp : s.canReadSp) (hpos : 0 < s.sp.toNat) (h : s.unwritten (s.sp.toNat - 1)) :
    RaisesIn (pop s) s .undefinedRead (.address (s.sp.toNat - 1 : Nat)) := by
  rw [pop_done hsp hpos]
  exact memRead_unwritten (s := s.setSp (s.sp - 1)) h

end Sys2Proof.Machine

/-! # Control flow: calls and returns -/

namespace Sys2Proof.Machine

/-- The state after a call (41_control_flow.md R93, R94). -/
def State.called (s : State) (target : Word) : State :=
  ((s.pushed (loByte s.pc)).pushed (hiByte s.pc)).setPc target

theorem call_of_le {s : State} (hpc : s.canReadPc) (hsp : s.canReadSp) (hle : s.sp.toNat ≤ 0xFFFD) (target : Word) :
    call target s = .done () (s.called target) := by
  have hlt : s.sp.toNat < 0xFFFF := by omega
  have hlt' : (s.pushed (loByte s.pc)).sp.toNat < 0xFFFF := by rw [State.pushed_toNat_sp hlt]; omega
  rw [call, readPc_done hpc, Res.andThen_done, push_of_lt hsp hlt, Res.andThen_done,
    push_of_lt (s.pushed_canReadSp _) hlt', Res.andThen_done, State.called]

theorem State.called_keeps (s : State) (target : Word) : KeepsButPointers s (s.called target) :=
  ((s.pushed_keeps _).trans (State.pushed_keeps _ _)).trans (State.setPc_keepsButPointers _ _)

/-- Storage after a call: the two bytes of the return address, each unless it goes to the window, and every other byte
as before. -/
theorem State.called_read {s : State} (hle : s.sp.toNat ≤ 0xFFFD) (target : Word) (a : Nat) :
    (s.called target).mem.read a =
      if a = s.sp.toNat + 1 ∧ s.isIo (s.sp.toNat + 1) = false then some (hiByte s.pc)
      else if a = s.sp.toNat ∧ s.isIo s.sp.toNat = false then some (loByte s.pc)
      else s.mem.read a := by
  rw [State.called, State.setPc_mem, State.pushed_read, State.pushed_toNat_sp (by omega),
    State.isIo_congr (s.pushed_keeps _).cfg, State.pushed_read]

theorem State.called_callsTo {s : State} (hle : s.sp.toNat ≤ 0xFFFD) (target : Word) :
    CallsTo s (s.called target) target := by
  have hlt : s.sp.toNat < 0xFFFF := by omega
  have hfst : (s.pushed (loByte s.pc)).sp.toNat = s.sp.toNat + 1 := State.pushed_toNat_sp hlt _
  obtain ⟨hregs, hflags, hcontrol⟩ := s.called_keeps target
  refine ⟨State.setPc_pc .., ?_, fun hio => ?_, fun hio => ?_, ?_, fun a ha => ?_, hregs, hflags, hcontrol, ?_⟩
  · rw [State.called, State.setPc_sp, State.pushed_toNat_sp (by omega), hfst]
  · rw [State.called_read hle, if_neg (by omega), if_pos ⟨rfl, hio⟩]
  · rw [State.called_read hle, if_pos ⟨rfl, hio⟩]
  · rw [State.called, State.setPc_ioLog, State.pushed_ioLog, hfst, State.writeEvents_congr (s.pushed_keeps _).cfg,
      State.pushed_ioLog]
  · simp only [List.mem_cons, List.not_mem_nil, or_false, not_or] at ha
    rw [State.called_read hle, if_neg fun h => ha.2 h.1, if_neg fun h => ha.1 h.1]
  · rw [State.called, State.setPc_draws, State.pushed_draws, State.pushed_draws]

/-- A call with no room for both bytes raises at the push that would move SP past 0xFFFF: the second at SP = 0xFFFE, the
first at SP = 0xFFFF. -/
theorem call_of_gt {s : State} (hpc : s.canReadPc) (hsp : s.canReadSp) (hgt : 0xFFFD < s.sp.toNat) (target : Word) :
    ∃ t, call target s = .raised t ∧
      t.fault = some { kind := .addressOutOfRange, ip := s.pc0, value := .address 0x10000 } := by
  rw [call, readPc_done hpc, Res.andThen_done]
  by_cases hlt : s.sp.toNat < 0xFFFF
  · have htop : (s.pushed (loByte s.pc)).sp.toNat = 0xFFFF := by rw [State.pushed_toNat_sp hlt]; omega
    obtain ⟨t, ht, hfault⟩ := push_top (s.pushed_canReadSp (loByte s.pc)) htop (hiByte s.pc)
    rw [push_of_lt hsp hlt, Res.andThen_done, ht]
    exact ⟨t, rfl, (s.pushed_keeps _).pc0 ▸ hfault⟩
  · have htop : s.sp.toNat = 0xFFFF := by have := s.sp.isLt; omega
    obtain ⟨t, ht, hfault⟩ := push_top hsp htop (loByte s.pc)
    rw [ht]
    exact ⟨t, rfl, hfault⟩

theorem call_outcome {s : State} (hpc : s.canReadPc) (hsp : s.canReadSp) (target : Word) :
    if s.sp.toNat ≤ 0xFFFD then ∃ t, (call target s).outcome = .next t ∧ CallsTo s t target
    else ∃ t, (call target s).outcome = .next t ∧
      t.fault = some { kind := .addressOutOfRange, ip := s.pc0, value := .address 0x10000 } := by
  split
  · next hle => exact ⟨_, by rw [call_of_le hpc hsp hle, Res.outcome_done], State.called_callsTo hle target⟩
  · next hgt =>
    obtain ⟨t, ht, hfault⟩ := call_of_gt hpc hsp (Nat.lt_of_not_le hgt) target
    exact ⟨t, by rw [ht, Res.outcome_raised], hfault⟩

theorem exec_clc (lo hi : Byte) (s : State) : exec (.clc lo hi) s = (call (cat hi lo) s).outcome := rfl

theorem exec_clr_of_canRead {rl rh : Reg} {s : State} (hl : s.canRead rl) (hh : s.canRead rh) :
    exec (.clr rl rh) s = (call (s.pairVal rl rh) s).outcome := by
  change ((readPair rl rh s).andThen _).outcome = _
  rw [readPair_done hl hh, Res.andThen_done]

/-- Settles O32. -/
theorem clcCallsTarget : Obligations.ClcCallsTarget :=
  fun lo hi _ hpc hsp => call_outcome hpc hsp (cat hi lo)

/-- Settles O33: the pair is read before the first push. -/
theorem clrCallsOldPair : Obligations.ClrCallsOldPair := by
  intro rl rh s hl hh hpc hsp
  rw [exec_clr_of_canRead hl hh]
  exact call_outcome hpc hsp (s.pairVal rl rh)

theorem exec_ret (s : State) :
    exec .ret s =
      ((pop s).andThen fun hi s => (pop s).andThen fun lo s => .done () (s.setPc (cat hi lo))).outcome := rfl

/-- A return whose first pop gives a byte goes on with its second pop. -/
theorem exec_ret_of_fst {s : State} {hi : Byte} (hsp : s.canReadSp) (hpos : 0 < s.sp.toNat)
    (h : s.readGives (s.sp.toNat - 1) hi) :
    exec .ret s = ((pop s.popped).andThen fun lo s => .done () (s.setPc (cat hi lo))).outcome := by
  rw [exec_ret, pop_of_readGives hsp hpos h, Res.andThen_done]

/-- A return whose second pop raises: the record and the I/O calls are those of that pop. -/
theorem exec_ret_of_snd_raises {s : State} {hi : Byte} {k : ErrorKind} {v : ErrorValue} (hsp : s.canReadSp)
    (hpos : 0 < s.sp.toNat) (h : s.readGives (s.sp.toNat - 1) hi) (hsnd : RaisesIn (pop s.popped) s.popped k v) :
    ∃ t, exec .ret s = .next t ∧ t.fault = some { kind := k, ip := s.pc0, value := v } ∧
      t.ioLog = s.ioLog ++ s.readEvents (s.sp.toNat - 1) := by
  obtain ⟨t, ht, hfault, hio⟩ := (hsnd.andThen fun lo s => .done () (s.setPc (cat hi lo))).outcome
  exact ⟨t, (exec_ret_of_fst hsp hpos h).trans ht, s.popped_keeps.pc0 ▸ hfault, hio.trans s.popped_ioLog⟩

/-- A return that can read both bytes (41_control_flow.md R95). -/
theorem exec_ret_of_readGives {s : State} {hi lo : Byte} (hsp : s.canReadSp) (hle : 2 ≤ s.sp.toNat)
    (hhi : s.readGives (s.sp.toNat - 1) hi) (hlo : (s.afterRead (s.sp.toNat - 1)).readGives (s.sp.toNat - 2) lo) :
    ∃ t, exec .ret s = .next t ∧ t.pc = cat hi lo ∧ t.sp.toNat = s.sp.toNat - 2 ∧
      t.ioLog = s.ioLog ++ s.readEvents (s.sp.toNat - 1) ++
        (s.afterRead (s.sp.toNat - 1)).readEvents (s.sp.toNat - 2) ∧
      KeepsRegsBut s t [.ipl, .iph, .spl, .sph] ∧ KeepsFlags s t ∧ KeepsStorageBut s t [] ∧ KeepsControl s t := by
  have hfst : s.popped.sp.toNat = s.sp.toNat - 1 := State.popped_toNat_sp (by omega)
  have hsub : s.popped.sp.toNat - 1 = s.sp.toNat - 2 := by omega
  have hlo' : s.popped.readGives (s.popped.sp.toNat - 1) lo := by rw [hsub]; exact hlo
  obtain ⟨hregs, hflags, hcontrol⟩ :=
    (s.popped_keeps.trans s.popped.popped_keeps).trans (State.setPc_keepsButPointers _ (cat hi lo))
  refine ⟨s.popped.popped.setPc (cat hi lo), ?_, State.setPc_pc .., ?_, ?_, hregs, hflags, fun a _ => ?_, hcontrol⟩
  · rw [exec_ret_of_fst hsp (by omega) hhi, pop_of_readGives s.popped_canReadSp (by omega) hlo']
    rfl
  · rw [State.setPc_sp, State.popped_toNat_sp (by omega), hsub]
  · rw [State.setPc_ioLog, State.popped_ioLog, hsub, State.popped_ioLog]
    rfl
  · rw [State.setPc_mem, State.popped_mem, State.popped_mem]

/-- Settles O34: the two pops in turn, by which of them raises. -/
theorem retPopsAddress : Obligations.RetPopsAddress := by
  intro s hsp
  refine ⟨fun hi lo hle hhi hlo => exec_ret_of_readGives hsp hle hhi hlo, fun hzero => ?_, fun b hone hb => ?_,
    fun hpos hnone => ?_, fun hi hle hhi hnone => ?_⟩
  · exact ((pop_bottom hsp hzero).andThen _).outcome
  · have hfst : s.sp.toNat - 1 = 0 := by omega
    have hbottom : s.popped.sp.toNat = 0 := by rw [State.popped_toNat_sp (by omega), hfst]
    have hret := exec_ret_of_snd_raises hsp (by omega) (State.readGives_of_holdsByte (hfst ▸ hb))
      (pop_bottom s.popped_canReadSp hbottom)
    rwa [hfst, State.readEvents_of_storage hb.isIo_eq_false, List.append_nil] at hret
  · exact ((pop_unwritten hsp hpos hnone).andThen _).outcome
  · have hsub : s.popped.sp.toNat - 1 = s.sp.toNat - 2 := by rw [State.popped_toNat_sp (by omega)]; omega
    have hpos : 0 < s.popped.sp.toNat := by rw [State.popped_toNat_sp (by omega)]; omega
    have hsnd := pop_unwritten s.popped_canReadSp hpos (hsub ▸ State.popped_unwritten hnone)
    rw [hsub] at hsnd
    exact exec_ret_of_snd_raises hsp (by omega) hhi hsnd

/-- A direct or an indirect call with room for the return address leaves the state after a call. -/
theorem exec_call {i : Instr} {s : State}
    (hi : (∃ lo hi, i = .clc lo hi) ∨ (∃ rl rh, i = .clr rl rh ∧ s.canRead rl ∧ s.canRead rh))
    (hpc : s.canReadPc) (hsp : s.canReadSp) (hle : s.sp.toNat ≤ 0xFFFD) :
    ∃ target, exec i s = .next (s.called target) := by
  rcases hi with ⟨lo, hi, rfl⟩ | ⟨rl, rh, rfl, hl, hh⟩
  · exact ⟨_, by rw [exec_clc, call_of_le hpc hsp hle, Res.outcome_done]⟩
  · exact ⟨_, by rw [exec_clr_of_canRead hl hh, call_of_le hpc hsp hle, Res.outcome_done]⟩

/-- A move of IP is no write of SP. -/
theorem State.setPc_canReadSp {s : State} (h : s.canReadSp) (w : Word) : (s.setPc w).canReadSp := by
  obtain ⟨hl, hh⟩ := h
  have hregs := s.setPc_keepsRegs w
  rw [State.canReadSp, State.canRead, State.canRead, hregs .spl (by decide), hregs .sph (by decide)]
  exact ⟨hl, hh⟩

theorem State.called_canReadSp (s : State) (target : Word) : (s.called target).canReadSp :=
  State.setPc_canReadSp (State.pushed_canReadSp _ _) target

/-- Where both bytes of a return address are storage, the return goes there and makes no I/O call. -/
theorem exec_ret_of_holdsByte {s : State} {hi lo : Byte} {a : Nat} (hsp : s.canReadSp) (ha : s.sp.toNat = a + 2)
    (hhi : s.holdsByte (a + 1) hi) (hlo : s.holdsByte a lo) :
    ∃ t, exec .ret s = .next t ∧ t.pc = cat hi lo ∧ t.sp.toNat = a ∧ t.ioLog = s.ioLog ∧ KeepsButPointers s t := by
  have hfst : s.sp.toNat - 1 = a + 1 := by omega
  have hsnd : s.sp.toNat - 2 = a := by omega
  have hread : s.afterRead (s.sp.toNat - 1) = s := State.afterRead_of_storage (hfst ▸ hhi.isIo_eq_false)
  obtain ⟨t, ht, hpc, hsp', hio, hregs, hflags, -, hcontrol⟩ :=
    exec_ret_of_readGives (hi := hi) (lo := lo) hsp (by omega) (hfst ▸ State.readGives_of_holdsByte hhi)
      (by rw [hread, hsnd]; exact State.readGives_of_holdsByte hlo)
  rw [hread, hfst, hsnd, State.readEvents_of_storage hhi.isIo_eq_false,
    State.readEvents_of_storage hlo.isIo_eq_false, List.append_nil, List.append_nil] at hio
  exact ⟨t, ht, hpc, hsp'.trans hsnd, hio, hregs, hflags, hcontrol⟩

/-- The state in which an instruction fetched from elsewhere is executed: IP and `pc0` are new (10_state.md R21). -/
def State.resumedAt (s : State) (p q : Word) : State := { s.setPc p with pc0 := q }

theorem State.resumedAt_canReadSp {s : State} (h : s.canReadSp) (p q : Word) : (s.resumedAt p q).canReadSp :=
  State.setPc_canReadSp h p

theorem State.resumedAt_sp (s : State) (p q : Word) : (s.resumedAt p q).sp = s.sp := s.setPc_sp p

theorem State.resumedAt_holdsByte {s : State} {a : Nat} {b : Byte} (h : s.holdsByte a b) (p q : Word) :
    (s.resumedAt p q).holdsByte a b := h

theorem State.resumedAt_keepsRegs (s : State) (p q : Word) : KeepsRegsBut s (s.resumedAt p q) [.ipl, .iph] :=
  s.setPc_keepsRegs p

/-- A return from the state that a call left, wherever it is fetched from. -/
theorem exec_ret_of_callsTo {s t : State} {target : Word} (hcall : CallsTo s t target) (hsp : t.canReadSp)
    (hle : s.sp.toNat ≤ 0xFFFD) (hlo : s.isIo s.sp.toNat = false) (hhi : s.isIo (s.sp.toNat + 1) = false)
    (p q : Word) :
    ∃ u, exec .ret (t.resumedAt p q) = .next u ∧ u.pc = s.pc ∧ u.sp = s.sp ∧ u.fault = s.fault ∧
      KeepsRegsBut s u [.ipl, .iph, .spl, .sph] ∧ KeepsFlags s u ∧ u.ioLog = s.ioLog := by
  obtain ⟨-, htop, hbyte, hbyte', hio, -, hregs, ⟨hz, hc⟩, ⟨hcfg, -, -, hfault, -⟩, -⟩ := hcall
  rw [State.writeEvents_of_storage hlo, State.writeEvents_of_storage hhi, List.append_nil, List.append_nil] at hio
  have hlow : t.holdsByte s.sp.toNat (loByte s.pc) := ⟨s.sp.isLt, by rwa [State.isIo_congr hcfg], hbyte hlo⟩
  have hhigh : t.holdsByte (s.sp.toNat + 1) (hiByte s.pc) :=
    ⟨by rw [Config.memBytes]; omega, by rwa [State.isIo_congr hcfg], hbyte' hhi⟩
  obtain ⟨u, hret, hupc, husp, huio, huregs, ⟨huz, huc⟩, -, -, -, hufault, -⟩ :=
    exec_ret_of_holdsByte (State.resumedAt_canReadSp hsp p q) (by rw [State.resumedAt_sp, htop])
      (State.resumedAt_holdsByte hhigh p q) (State.resumedAt_holdsByte hlow p q)
  have hmoved : KeepsRegsBut t (t.resumedAt p q) [.ipl, .iph, .spl, .sph] := (t.resumedAt_keepsRegs p q).mono (by simp)
  exact ⟨u, hret, hupc.trans (cat_hi_lo s.pc), BitVec.eq_of_toNat_eq husp, hufault.trans hfault,
    fun r hr => ((huregs r hr).trans (hmoved r hr)).trans (hregs r hr), ⟨huz.trans hz, huc.trans hc⟩, huio.trans hio⟩

/-- Settles O35: the call leaves the return address where the return's two pops find it. -/
theorem callThenReturnComesBack : Obligations.CallThenReturnComesBack := by
  intro i s t p q hi hpc hsp hle hlo hhi hcall
  obtain ⟨target, hexec⟩ := exec_call hi hpc hsp hle
  obtain rfl : s.called target = t := by rw [hexec] at hcall; cases hcall; rfl
  exact exec_ret_of_callsTo (State.called_callsTo hle target) (s.called_canReadSp target) hle hlo hhi p q

end Sys2Proof.Machine

/-! # Memory: a register loaded from an address and stored at one -/

namespace Sys2Proof.Machine

/-- An access outside 0..0xFFFF that reads (20_memory.md R44). -/
theorem memRead_outOfRange {a : Int} {s : State} (h : a < 0 ∨ a > 0xFFFF) :
    RaisesIn (memRead a s) s .addressOutOfRange (.address a) :=
  ⟨_, memRead_trap h, rfl, rfl⟩

/-- An access outside 0..0xFFFF that writes (20_memory.md R45). -/
theorem memWrite_outOfRange {a : Int} {s : State} (h : a < 0 ∨ a > 0xFFFF) (v : Byte) :
    RaisesIn (memWrite a v s) s .addressOutOfRange (.address a) :=
  ⟨_, memWrite_trap v h, rfl, rfl⟩

@[simp] theorem State.afterRead_regs (s : State) (a : Nat) : (s.afterRead a).regs = s.regs := by
  unfold State.afterRead; split <;> rfl

/-- What a load that gives a byte leaves: the byte in its register, and the record of the call it made. -/
theorem loadInto_of_readGives {a : Nat} {b : Byte} {s : State} (h : s.readGives a b) (r : Reg) :
    ∃ t, (loadInto r a s).outcome = .next t ∧ t.regs.get r = { val := b, isDef := true } ∧
      t.ioLog = s.ioLog ++ s.readEvents a ∧
      KeepsRegsBut s t [r] ∧ KeepsFlags s t ∧ KeepsStorageBut s t [] ∧ KeepsControl s t := by
  obtain ⟨-, hflags, hcontrol⟩ := s.afterRead_keepsButPointers a
  obtain ⟨hregs, -, -, -, -⟩ := (s.afterRead a).setReg_changesOnlyRegs r b
  refine ⟨(s.afterRead a).setReg r b, ?_, Regs.get_set_self .., s.afterRead_ioLog a, fun q hq => ?_, hflags,
    fun _ _ => ?_, hcontrol⟩
  · rw [loadInto, memRead_of_readGives h, Res.andThen_done, Res.outcome_done]
  · rw [hregs q hq, State.afterRead_regs]
  · rw [State.setReg_mem, State.afterRead_mem]

theorem State.writeAt_read_self {s : State} {a : Nat} (h : s.isIo a = false) (v : Byte) :
    (s.writeAt a v).mem.read a = some v := by
  rw [State.writeAt_read, if_pos ⟨rfl, h⟩]

theorem State.writeAt_keepsStorage (s : State) (a : Nat) (v : Byte) : KeepsStorageBut s (s.writeAt a v) [a] := by
  intro b hb
  rw [State.writeAt_read, if_neg fun h => List.ne_of_not_mem_cons hb h.1]

/-- What a store at an address in range leaves: the register's byte in storage or, in the window, one call. -/
theorem storeFrom_of_canRead {r : Reg} {a : Nat} {s : State} (hr : s.canRead r) (ha : a < 65536) :
    ∃ t, (storeFrom r a s).outcome = .next t ∧
      (s.isIo a = false → t.mem.read a = some (s.regVal r)) ∧
      t.ioLog = s.ioLog ++ s.writeEvents a (s.regVal r) ∧
      KeepsStorageBut s t [a] ∧ KeepsRegsBut s t [] ∧ KeepsFlags s t ∧ KeepsControl s t ∧ t.draws = s.draws := by
  obtain ⟨-, hflags, hcontrol⟩ := s.writeAt_keepsButPointers a (s.regVal r)
  refine ⟨s.writeAt a (s.regVal r), ?_, fun hio => State.writeAt_read_self hio _, s.writeAt_ioLog ..,
    s.writeAt_keepsStorage a _, fun q _ => ?_, hflags, hcontrol, s.writeAt_draws ..⟩
  · rw [storeFrom, readReg_done hr, Res.andThen_done, memWrite_nat _ ha, Res.outcome_done]
  · rw [State.writeAt_regs]

end Sys2Proof.Machine

/-! # Stack: the stack instructions -/

namespace Sys2Proof.Machine

theorem State.setSp_changesOnlyRegs (s : State) (w : Word) : ChangesOnlyRegs s (s.setSp w) [.spl, .sph] :=
  s.setPair_changesOnlyRegs .spl .sph w

/-- A move of SP to an address in range (10_state.md R24). -/
theorem moveSp_inRange {t : Int} {n : Nat} (ht : t = n) (hn : n ≤ 0xFFFF) (s : State) :
    ∃ u, (moveSp t s).outcome = .next u ∧ u.sp.toNat = n ∧ ChangesOnlyRegs s u [.spl, .sph] := by
  subst ht
  refine ⟨s.setSp (BitVec.ofNat 16 n), ?_, ?_, s.setSp_changesOnlyRegs _⟩
  · rw [moveSp_done (by omega), Res.outcome_done, BitVec.ofInt_natCast]
  · rw [State.setSp_sp, BitVec.toNat_ofNat, Nat.mod_eq_of_lt (by omega)]

/-- A move of SP out of 0..0xFFFF (10_state.md R24; the spec's decision D7). -/
theorem moveSp_outOfRange {t : Int} {s : State} (h : ¬ (0 ≤ t ∧ t ≤ 0xFFFF)) :
    RaisesIn (moveSp t s) s .addressOutOfRange (.address t) :=
  ⟨_, moveSp_trap h, rfl, rfl⟩

theorem exec_alc_of_canReadSp {s : State} (hsp : s.canReadSp) (n : Byte) :
    exec (.alc n) s = (moveSp ((s.sp.toNat : Int) + n.toNat) s).outcome := by
  change ((readSp s).andThen _).outcome = _
  rw [readSp_done hsp, Res.andThen_done]

theorem exec_eat_of_canReadSp {s : State} (hsp : s.canReadSp) (n : Byte) :
    exec (.eat n) s = (moveSp ((s.sp.toNat : Int) - n.toNat) s).outcome := by
  change ((readSp s).andThen _).outcome = _
  rw [readSp_done hsp, Res.andThen_done]

/-- Settles O36: both instructions are one move of SP, by whether its target is in range. -/
theorem alcEatMoveSp : Obligations.AlcEatMoveSp := by
  intro n s hsp
  have htop := s.sp.isLt
  rw [exec_alc_of_canReadSp hsp, exec_eat_of_canReadSp hsp]
  constructor
  · split
    · next hle => exact moveSp_inRange (Int.natCast_add ..).symm hle s
    · next hgt => exact (moveSp_outOfRange (by omega)).outcome
  · split
    · next hle => exact moveSp_inRange (Int.ofNat_sub hle).symm (by omega) s
    · next hgt => exact (moveSp_outOfRange (by omega)).outcome

/-- A slot of the frame below SP is at an address (20_memory.md R46). -/
theorem stackSlot_of_lt {sp : Word} {off : Byte} (h : off.toNat < sp.toNat) :
    stackSlot sp off = (sp.toNat - off.toNat - 1 : Nat) := by
  rw [stackSlot]
  omega

theorem stackSlot_neg_of_le {sp : Word} {off : Byte} (h : sp.toNat ≤ off.toNat) : stackSlot sp off < 0 := by
  rw [stackSlot]
  omega

theorem exec_ofg_of_canReadSp {s : State} (hsp : s.canReadSp) (r : Reg) (off : Byte) :
    exec (.ofg r off) s = (loadInto r (stackSlot s.sp off) s).outcome := by
  change ((slotOperand off s).andThen _).outcome = _
  rw [slotOperand_done hsp, Res.andThen_done]

theorem exec_ofs_of_canReadSp {s : State} (hsp : s.canReadSp) (r : Reg) (off : Byte) :
    exec (.ofs r off) s = (storeFrom r (stackSlot s.sp off) s).outcome := by
  change ((slotOperand off s).andThen _).outcome = _
  rw [slotOperand_done hsp, Res.andThen_done]

/-- Settles O37: a load from the slot. -/
theorem ofgReadsSlot : Obligations.OfgReadsSlot := by
  intro r off s hsp
  rw [exec_ofg_of_canReadSp hsp]
  refine ⟨fun b hlt hb => ?_, fun hle => ?_, fun hlt hnone => ?_⟩
  · rw [stackSlot_of_lt hlt]
    exact loadInto_of_readGives hb r
  · exact ((memRead_outOfRange (.inl (stackSlot_neg_of_le hle))).andThen _).outcome
  · rw [stackSlot_of_lt hlt]
    exact ((memRead_unwritten hnone).andThen _).outcome

/-- Settles O38: a store at the slot. -/
theorem ofsWritesSlot : Obligations.OfsWritesSlot := by
  intro r off s hsp hr
  rw [exec_ofs_of_canReadSp hsp]
  split
  · next hlt =>
    have htop := s.sp.isLt
    rw [stackSlot_of_lt hlt]
    exact storeFrom_of_canRead hr (by omega)
  · next hge =>
    rw [storeFrom, readReg_done hr, Res.andThen_done]
    exact (memWrite_outOfRange (.inl (stackSlot_neg_of_le (Nat.le_of_not_lt hge))) _).outcome

theorem State.popped_regs (s : State) : s.popped.regs = (s.setSp (s.sp - 1)).regs := by
  rw [State.popped, ← State.setSp_afterRead, State.afterRead_regs]

theorem exec_pop_of_readGives {s : State} {b : Byte} (hsp : s.canReadSp) (hpos : 0 < s.sp.toNat)
    (h : s.readGives (s.sp.toNat - 1) b) (r : Reg) : exec (.pop r) s = .next (s.popped.setReg r b) := by
  change ((pop s).andThen _).outcome = _
  rw [pop_of_readGives hsp hpos h, Res.andThen_done, Res.outcome_done]

/-- Settles O39: the register is written in the state that the pop leaves, in which SP has moved. -/
theorem popReadsTop : Obligations.PopReadsTop := by
  intro r s hsp
  refine ⟨fun b hpos hb => ?_, fun hzero => ?_, fun hpos hnone => ?_⟩
  · obtain ⟨-, hflags, hcontrol⟩ := s.popped_keeps
    refine ⟨_, exec_pop_of_readGives hsp hpos hb r, Regs.get_set_self .., fun q hq => ?_, s.popped_ioLog, hflags,
      fun a _ => ?_, hcontrol⟩
    · rw [State.setReg_regs, Regs.get_set_ne _ _ _ _ hq, State.popped_regs]
    · rw [State.setReg_mem, State.popped_mem]
  · exact ((pop_bottom hsp hzero).andThen _).outcome
  · exact ((pop_unwritten hsp hpos hnone).andThen _).outcome

theorem State.pushed_keepsRegs (s : State) (v : Byte) : KeepsRegsBut s (s.pushed v) [.spl, .sph] := by
  intro q hq
  obtain ⟨hregs, -, -, -, -⟩ := (s.writeAt s.sp.toNat v).setSp_changesOnlyRegs (s.sp + 1)
  rw [State.pushed, hregs q hq, State.writeAt_regs]

theorem exec_psh_of_canRead {r : Reg} {s : State} (hr : s.canRead r) :
    exec (.psh r) s = (push (s.regVal r) s).outcome := by
  change ((readReg r s).andThen _).outcome = _
  rw [readReg_done hr, Res.andThen_done]

/-- Settles O40: a push of the byte that the register holds before SP moves. -/
theorem pshWritesTop : Obligations.PshWritesTop := by
  intro r s hr hsp
  rw [exec_psh_of_canRead hr]
  split
  · next hlt =>
    obtain ⟨-, hflags, hcontrol⟩ := s.pushed_keeps (s.regVal r)
    exact ⟨s.pushed (s.regVal r), by rw [push_of_lt hsp hlt, Res.outcome_done], State.pushed_toNat_sp hlt _,
      fun hio => State.writeAt_read_self hio _, s.pushed_ioLog _, s.writeAt_keepsStorage s.sp.toNat _,
      s.pushed_keepsRegs _, hflags, hcontrol, s.pushed_draws _⟩
  · next hge =>
    have htop : s.sp.toNat = 0xFFFF := by have := s.sp.isLt; omega
    obtain ⟨t, ht, hfault⟩ := push_top hsp htop (s.regVal r)
    exact ⟨t, by rw [ht, Res.outcome_raised], hfault⟩

end Sys2Proof.Machine

/-! # Memory access: loads and stores of M -/

namespace Sys2Proof.Machine

theorem toNat_immAddress (lo hi : Byte) : (immAddress lo hi).toNat = 256 * hi.toNat + lo.toNat := by
  rw [immAddress, toNat_cat, Nat.mul_comm]

/-- A load from an address that nothing has written (20_memory.md R44). -/
theorem loadInto_unwritten {a : Nat} {s : State} (h : s.unwritten a) (r : Reg) :
    Raises (loadInto r a s).outcome s .undefinedRead (.address a) :=
  ((memRead_unwritten h).andThen _).outcome

theorem exec_gec (lo hi : Byte) (s : State) :
    exec (.gec lo hi) s = (loadInto .m (256 * hi.toNat + lo.toNat : Nat) s).outcome := by
  change (loadInto .m (immAddress lo hi).toNat s).outcome = _
  rw [toNat_immAddress]

theorem exec_sec (lo hi : Byte) (s : State) :
    exec (.sec lo hi) s = (storeFrom .m (256 * hi.toNat + lo.toNat : Nat) s).outcome := by
  change (storeFrom .m (immAddress lo hi).toNat s).outcome = _
  rw [toNat_immAddress]

/-- The address of `ger` is computed in the state before the load, so `ger` with M in its pair reads the old M. -/
theorem exec_ger_of_canRead {rl rh : Reg} {s : State} (hl : s.canRead rl) (hh : s.canRead rh) :
    exec (.ger rl rh) s =
      (loadInto .m (256 * (s.regVal rh).toNat + (s.regVal rl).toNat : Nat) s).outcome := by
  change ((readPair rl rh s).andThen _).outcome = _
  rw [readPair_done hl hh, Res.andThen_done, State.toNat_pairVal]

theorem exec_ser_of_canRead {rl rh : Reg} {s : State} (hl : s.canRead rl) (hh : s.canRead rh) :
    exec (.ser rl rh) s =
      (storeFrom .m (256 * (s.regVal rh).toNat + (s.regVal rl).toNat : Nat) s).outcome := by
  change ((readPair rl rh s).andThen _).outcome = _
  rw [readPair_done hl hh, Res.andThen_done, State.toNat_pairVal]

/-- Settles O41: both instructions are one load into M, `ger` after reads that change nothing. -/
theorem loadsFillM : Obligations.LoadsFillM := by
  refine ⟨fun lo hi s => ?_, fun rl rh s hl hh => ?_⟩
  · rw [exec_gec]
    exact ⟨fun _ hb => loadInto_of_readGives hb .m, fun hnone => loadInto_unwritten hnone .m⟩
  · rw [exec_ger_of_canRead hl hh]
    exact ⟨fun _ hb => loadInto_of_readGives hb .m, fun hnone => loadInto_unwritten hnone .m⟩

/-- An address made of two bytes lies in the address space, so a store at it is never out of range. -/
theorem addressOfBytes_lt (hi lo : Byte) : 256 * hi.toNat + lo.toNat < 65536 := by
  rw [← toNat_immAddress]
  exact (immAddress lo hi).isLt

/-- Settles O42: both instructions are one store of M, `ser` after reads that change nothing. -/
theorem storesWriteM : Obligations.StoresWriteM := by
  refine ⟨fun lo hi s hm => ?_, fun rl rh s hl hh hm => ?_⟩
  · rw [exec_sec]
    exact storeFrom_of_canRead hm (addressOfBytes_lt hi lo)
  · rw [exec_ser_of_canRead hl hh]
    exact storeFrom_of_canRead hm (addressOfBytes_lt _ _)

end Sys2Proof.Machine

/-! # Arithmetic: results and their flags -/

namespace Sys2Proof.Machine

theorem storedResult_add (x y : Byte) : storedResult (x.toNat + y.toNat) = x + y := by
  rw [storedResult, BitVec.ofInt_add]
  simp

theorem storedResult_sub (x y : Byte) : storedResult (x.toNat - y.toNat) = x - y := by
  have hstored := toNat_storedResult (x.toNat - y.toNat)
  bv_omega

theorem storedResult_mul (x y : Byte) : storedResult (x.toNat * y.toNat) = x * y := by
  rw [storedResult, BitVec.ofInt_mul]
  simp

/-- Z is true exactly when the stored byte is 0 (44_arithmetic.md R107(4)). -/
theorem zeroOf_eq_storedResult (w : Int) : zeroOf w = (storedResult w == 0#8) := by
  have hstored := toNat_storedResult w
  rw [zeroOf, Bool.eq_iff_iff, decide_eq_true_iff, beq_iff_eq, BitVec.toNat_eq, BitVec.toNat_ofNat]
  omega

theorem zeroOf_natCast (n : Nat) : zeroOf n = decide (n % 256 = 0) := by
  rw [zeroOf, decide_eq_decide]
  omega

theorem carryOf_natCast (n : Nat) : carryOf n = decide (n > 255) := by
  rw [carryOf, decide_eq_decide]
  omega

/-- A difference of bytes is 0 modulo 256 only where it is 0. -/
theorem zeroOf_sub (x y : Byte) : zeroOf (x.toNat - y.toNat) = (x == y) := by
  rw [zeroOf, Bool.eq_iff_iff, decide_eq_true_iff, beq_iff_eq]
  bv_omega

/-- A difference of bytes leaves 0..255 only by a borrow. -/
theorem carryOf_sub (x y : Byte) : carryOf (x.toNat - y.toNat) = decide (x.toNat < y.toNat) := by
  rw [carryOf, decide_eq_decide]
  omega

/-- An arithmetic result, by the byte and the flags of its true result `w`: the destination and both flags are written,
and no other part of the state (44_arithmetic.md R107). -/
theorem State.setResult_leavesResult (s : State) (rd : Reg) {w : Int} {v : Byte} {z c : Bool}
    (hv : storedResult w = v) (hz : zeroOf w = z) (hc : carryOf w = c) :
    LeavesResult s (s.setResult rd w) rd v z c := by
  subst hv hz hc
  obtain ⟨hregs, -, hstorage, hcontrol, hio⟩ := s.setReg_changesOnlyRegs rd (storedResult w)
  exact ⟨Regs.get_set_self .., rfl, rfl, hregs, hstorage, hcontrol, hio⟩

theorem alu1_outcome {r : Reg} {s : State} (h : s.canRead r) (f : Int → Int) :
    (alu1 f r s).outcome = .next (s.setResult r (f (s.regVal r).toNat)) := by
  rw [alu1, readReg_done h, Res.andThen_done, Res.outcome_done]

theorem readTwo_done {rd rs : Reg} {s : State} (hd : s.canRead rd) (hs : s.canRead rs) :
    readTwo rd rs s = .done (s.regVal rd, s.regVal rs) s := by
  rw [readTwo, readReg_done hd, Res.andThen_done, readReg_done hs, Res.andThen_done]

theorem alu2_outcome {rd rs : Reg} {s : State} (hd : s.canRead rd) (hs : s.canRead rs) (f : Int → Int → Int) :
    (alu2 f rd rs s).outcome = .next (s.setResult rd (f (s.regVal rd).toNat (s.regVal rs).toNat)) := by
  rw [alu2, readTwo_done hd hs, Res.andThen_done, Res.outcome_done]

/-- Settles O43: `inc` is the sum with 1, which is 0 modulo 256 and above 255 exactly when it is 256. -/
theorem incAddsOne : Obligations.IncAddsOne := by
  refine fun r s h => ⟨_, alu1_outcome h _, s.setResult_leavesResult r (storedResult_add _ 1#8) ?_ ?_⟩
  · rw [zeroOf, Bool.eq_iff_iff, decide_eq_true_iff, beq_iff_eq]
    bv_omega
  · rw [carryOf, Bool.eq_iff_iff, decide_eq_true_iff, beq_iff_eq]
    bv_omega

/-- Settles O44: `dec` is the difference with 1, which borrows exactly from 0. -/
theorem decTakesOne : Obligations.DecTakesOne := by
  refine fun r s h => ⟨_, alu1_outcome h _, s.setResult_leavesResult r (storedResult_sub _ 1#8) (zeroOf_sub _ 1#8) ?_⟩
  refine (carryOf_sub _ 1#8).trans ?_
  rw [Bool.eq_iff_iff, decide_eq_true_iff, beq_iff_eq]
  bv_omega

/-- Settles O45: the true sum is a natural number, whose flags `zeroOf_natCast` and `carryOf_natCast` give. -/
theorem addStoresSum : Obligations.AddStoresSum := by
  refine fun rd rs s hd hs => ⟨_, alu2_outcome hd hs _, s.setResult_leavesResult rd (storedResult_add ..) ?_ ?_⟩
  · rw [← Int.natCast_add, zeroOf_natCast]
  · rw [← Int.natCast_add, carryOf_natCast]

/-- Settles O46: the laws of a difference of two bytes. -/
theorem subStoresDifference : Obligations.SubStoresDifference := fun rd _ s hd hs =>
  ⟨_, alu2_outcome hd hs _, s.setResult_leavesResult rd (storedResult_sub ..) (zeroOf_sub ..) (carryOf_sub ..)⟩

/-- Settles O47: the product passes 255 exactly when its high byte is not 0. -/
theorem mulStoresLowProduct : Obligations.MulStoresLowProduct := by
  refine fun rd rs s hd hs => ⟨_, alu2_outcome hd hs _, s.setResult_leavesResult rd (storedResult_mul ..) ?_ ?_⟩
  · rw [zeroOf_eq_storedResult, storedResult_mul]
  · rw [← Int.natCast_mul, carryOf_natCast, decide_eq_decide]
    omega

end Sys2Proof.Machine

/-! # Arithmetic: shifts and counters -/

namespace Sys2Proof.Machine

/-- An `undef` result writes one cell (44_arithmetic.md R113 to R116; log 3). -/
theorem State.undefReg_keepsRegs (s : State) (r : Reg) : KeepsRegsBut s (s.undefReg r) [r] := fun q hq => by
  rw [State.undefReg_regs, Regs.get_set_ne _ _ _ _ (List.ne_of_not_mem_cons hq)]

theorem State.undefReg_isDef (s : State) (r : Reg) : ((s.undefReg r).regs.get r).isDef = false := by
  rw [State.undefReg_regs, Regs.get_set_self]

theorem State.undefReg_leavesFlagsUndef (s : State) {r : Reg} {w : List Reg} (hr : r ∈ w) :
    LeavesFlagsUndef s (s.undefReg r).undefFlags w :=
  ⟨rfl, rfl, (s.undefReg_keepsRegs r).mono (by simpa using hr), fun _ _ => rfl, ⟨rfl, rfl, rfl, rfl, rfl⟩, rfl⟩

theorem ChangesOnlyRegs.leavesFlagsUndef {s t : State} {w : List Reg} (h : ChangesOnlyRegs s t w) :
    LeavesFlagsUndef s t.undefFlags w := by
  obtain ⟨hregs, -, hstorage, hcontrol, hlog, -⟩ := h
  exact ⟨rfl, rfl, hregs, hstorage, hcontrol, hlog⟩

/-- A shift, by the byte `v` of a count of 0..7 (44_arithmetic.md R113, R114; the spec's decisions D9, D11). -/
theorem shift_leavesByte {f : Nat → Nat → Nat} {rd rs : Reg} {s : State} {v : Byte} (hd : s.canRead rd)
    (hs : s.canRead rs) (hv : BitVec.ofNat 8 (f (s.regVal rd).toNat (s.regVal rs).toNat) = v) :
    ∃ t, (shift f rd rs s).outcome = .next t ∧ LeavesFlagsUndef s t [rd] ∧
      if (s.regVal rs).toNat ≤ 7 then t.regs.get rd = { val := v, isDef := true }
      else (t.regs.get rd).isDef = false := by
  subst hv
  rw [shift, readTwo_done hd hs, Res.andThen_done]
  refine ⟨_, rfl, ?_⟩
  split
  · exact ⟨(s.setReg_changesOnlyRegs rd _).leavesFlagsUndef, Regs.get_set_self ..⟩
  · exact ⟨s.undefReg_leavesFlagsUndef (List.mem_singleton_self rd), s.undefReg_isDef rd⟩

/-- Settles O48: a byte shifted with zeros is multiplied or divided by a power of 2. -/
theorem shiftsMoveBits : Obligations.ShiftsMoveBits := by
  refine fun rd rs s hd hs => ⟨shift_leavesByte hd hs ?_, shift_leavesByte hd hs ?_⟩
  · rw [BitVec.toNat_eq, BitVec.toNat_ofNat, BitVec.toNat_shiftLeft, Nat.shiftLeft_eq]
  · rw [← Nat.shiftRight_eq_div_pow, ← BitVec.toNat_ushiftRight, BitVec.ofNat_toNat, BitVec.setWidth_eq]

/-- A write of a pair of two registers marks both halves and reads back as the word written. -/
theorem State.setPair_readsBack (s : State) {rl rh : Reg} (h : rl ≠ rh) (w : Word) :
    ((s.setPair rl rh w).regs.get rl).isDef = true ∧ ((s.setPair rl rh w).regs.get rh).isDef = true ∧
      (s.setPair rl rh w).pairVal rl rh = w := by
  simp [State.pairVal, State.regVal, Regs.get_set, h]

/-- A counter, by the number `n` it goes on to (44_arithmetic.md R115, R116; the spec's decisions D9, D35). -/
theorem counter_leavesCount {f : Word → Word} {rl rh : Reg} {s : State} {n : Nat} (hl : s.canRead rl)
    (hh : s.canRead rh) (hn : (f (s.pairVal rl rh)).toNat = n) :
    ∃ t, (counter f rl rh s).outcome = .next t ∧ LeavesFlagsUndef s t [rl, rh] ∧
      if rl = rh then (t.regs.get rl).isDef = false
      else (t.regs.get rl).isDef = true ∧ (t.regs.get rh).isDef = true ∧
        256 * (t.regVal rh).toNat + (t.regVal rl).toNat = n := by
  rw [counter, readPairOperand, readPair_done hl hh]
  refine ⟨_, rfl, ?_⟩
  split
  · exact ⟨s.undefReg_leavesFlagsUndef List.mem_cons_self, s.undefReg_isDef rl⟩
  · next hne =>
    obtain ⟨hdefl, hdefh, hword⟩ := s.setPair_readsBack hne (f (s.pairVal rl rh))
    refine ⟨(s.setPair_changesOnlyRegs rl rh _).leavesFlagsUndef, hdefl, hdefh, ?_⟩
    rw [← State.toNat_pairVal, ← hn]
    exact congrArg BitVec.toNat hword

/-- Settles O49: addition of words is modulo 65536, so the counter wraps. -/
theorem inlCountsUp : Obligations.InlCountsUp := by
  refine fun rl rh s hl hh => counter_leavesCount hl hh ?_
  rw [BitVec.toNat_add, State.toNat_pairVal]
  rfl

/-- Settles O50: to take one modulo 65536 is to add 65535. -/
theorem delCountsDown : Obligations.DelCountsDown := by
  refine fun rl rh s hl hh => counter_leavesCount hl hh ?_
  rw [BitVec.toNat_sub, State.toNat_pairVal, Nat.add_comm]
  rfl

end Sys2Proof.Machine

/-! # System: `hlt` -/

namespace Sys2Proof.Machine

/-- `hlt` does not end in an error and writes the latch alone (45_system.md R117). -/
theorem exec_hlt (s : State) : exec .hlt s = .next { s with halted := true } := rfl

/-- A `hlt` has no operand bytes, so its fetch ends after the opcode byte (30_encoding.md R61). -/
theorem fetch_hlt {s : State} (hread : s.canReadPc) (hcodes : s.codesOk)
    (hb : s.holdsByte s.pc.toNat (opcodeOf s.cfg.codes .hlt)) (hlt : s.pc.toNat < 0xFFFF) :
    fetch s = .done .hlt (s.fetched 1) := by
  rw [fetch_of_entry hread hb hlt (romLookup_opcodeOf hcodes .hlt)]
  rfl

theorem State.fetched_fault (s : State) (n : Nat) : (s.fetched n).fault = s.fault := State.setPc_fault ..

/-- A loaded machine with no error refuses to step while the latch is set (70_reset_and_hazards.md R139). -/
theorem step_halted {s : State} (hloaded : s.loaded = true) (hfault : s.fault = none) (hhalted : s.halted = true) :
    step s = .refused .halted := by
  obtain ⟨-, -, hrefused⟩ := stoppedMachineTakesNoStep s 0
  exact (hrefused hloaded hfault hhalted).1

/-- Settles O51: the fetch of a `hlt` raises nothing, so the step only moves IP and sets the latch, and of the tests that
`step` makes the machine then fails the one of the latch. -/
theorem hltHalts : Obligations.HltHalts := by
  refine fun s => ⟨⟨_, exec_hlt s, rfl, rfl⟩, fun hrun hread hcodes hb hlt => ?_⟩
  have hstep : step s = .next { s.fetched 1 with halted := true } := by
    rw [step_running hrun, fetch_hlt hread hcodes hb hlt]
    exact exec_hlt (s.fetched 1)
  obtain ⟨hloaded, -, hfault⟩ := s.running_iff.1 hrun
  have hfault' : (s.fetched 1).fault = none := (s.fetched_fault 1).trans hfault
  have hloaded' : (s.fetched 1).loaded = true := (s.fetched_keeps 1).loaded.trans hloaded
  exact ⟨_, hstep, rfl, hfault', State.setPc_pc .., step_halted hloaded' hfault' rfl⟩

end Sys2Proof.Machine

/-! # Exceptions: the error a step records

An error is recorded by `raise` alone, with the `pc0` of the moment, and each operation that raises has tested before
what makes its value the one that the kind calls for (60_exceptions.md R120, R121). Between the latching of `pc0` and
the error nothing touches `pc0`, the parameters or the record, so the two facts go through sequences together. -/

namespace Sys2Proof

theorem buildR_eq_error {c : Codes} {mk : Reg → Instr} {b b' : Byte} (h : buildR c mk b = .error b') :
    b' ∉ c.registerBytes := by
  unfold buildR at h
  split at h
  · next hb => cases h; exact regOfByte_eq_none.1 hb
  · cases h

theorem buildRR_eq_error {c : Codes} {mk : Reg → Reg → Instr} {b1 b2 b' : Byte} (h : buildRR c mk b1 b2 = .error b') :
    b' ∉ c.registerBytes := by
  unfold buildRR at h
  split at h
  · next hb => cases h; exact regOfByte_eq_none.1 hb
  · exact buildR_eq_error h

theorem BuiltAs.bad_of_error {c : Codes} {m : Mnemonic} {b1 b2 b : Byte} {ks : List OperandKind}
    (h : BuiltAs c m b1 b2 ks (.error b)) : b ∉ c.registerBytes := by
  generalize hx : Except.error b = x at h
  cases h with
  | r mk => exact buildR_eq_error hx.symm
  | ri mk => exact buildR_eq_error hx.symm
  | rr mk => exact buildRR_eq_error hx.symm
  | imm => cases hx

/-- The only operand byte the decoder refuses is one that names no register (30_encoding.md R68). -/
theorem bad_of_buildList_error {c : Codes} {m : Mnemonic} {bs : List Byte} {b : Byte}
    (h : buildList c m bs = .error b) : b ∉ c.registerBytes := by
  have hbuilt := build_builtAs c m (bs.getD 0 0#8) (bs.getD 1 0#8)
  rw [← buildList, h] at hbuilt
  exact hbuilt.bad_of_error

theorem decided_opcode_le {b : Byte} (h : b ∉ Codes.decided.opcodeBytes) : 0x1F ≤ b.toNat := by
  rwa [decided_opcodeBytes, mem_map_range_iff, Nat.not_lt] at h

theorem decided_register_le {b : Byte} (h : b ∉ Codes.decided.registerBytes) : 9 ≤ b.toNat := by
  rwa [decided_registerBytes, mem_map_range_iff, Nat.not_lt] at h

end Sys2Proof

namespace Sys2Proof.Machine

/-- The value fits the kind of error, by what was found to be wrong (60_exceptions.md R120); of the state only the
parameters count. -/
inductive State.ErrorFits (s : State) : ErrorKind → ErrorValue → Prop where
  | outOfRange (n : Int) (hn : n < 0 ∨ n > 0xFFFF) : s.ErrorFits .addressOutOfRange (.address n)
  | noEntry (b : Byte) (hb : b ∉ s.cfg.codes.opcodeBytes) : s.ErrorFits .invalidOpcode (.byte b)
  | noRegister (b : Byte) (hb : b ∉ s.cfg.codes.registerBytes) : s.ErrorFits .invalidRegister (.byte b)
  | unwritten (a : Nat) (ha : a ≤ 0xFFFF) (hio : s.isIo a = false) : s.ErrorFits .undefinedRead (.address a)
  | trappedRegister (r : Reg) (htrap : s.cfg.trapUndef = true) : s.ErrorFits .undefinedRead (.register r)
  | trappedFlag (f : Flag) (htrap : s.cfg.trapUndef = true) : s.ErrorFits .undefinedRead (.flag f)

theorem State.ErrorFits.congr {s t : State} {k : ErrorKind} {v : ErrorValue} (h : t.ErrorFits k v)
    (hcfg : t.cfg = s.cfg) : s.ErrorFits k v := by
  cases h with
  | outOfRange n hn => exact .outOfRange n hn
  | noEntry b hb => exact .noEntry b (hcfg ▸ hb)
  | noRegister b hb => exact .noRegister b (hcfg ▸ hb)
  | unwritten a ha hio => exact .unwritten a ha ((State.isIo_congr hcfg a).symm.trans hio)
  | trappedRegister r htrap => exact .trappedRegister r (hcfg ▸ htrap)
  | trappedFlag f htrap => exact .trappedFlag f (hcfg ▸ htrap)

/-- The record of `t` was written on the way from `s`, under the `pc0` of `s`, with a value that fits its kind. -/
def RecordsFitting (s t : State) : Prop :=
  ∃ k v, t.fault = some { kind := k, ip := s.pc0, value := v } ∧ s.ErrorFits k v

theorem RecordsFitting.of_keepsControl {s t u : State} (hst : KeepsControl s t) (h : RecordsFitting t u) :
    RecordsFitting s u := by
  obtain ⟨hcfg, -, -, -, hpc0⟩ := hst
  obtain ⟨k, v, hfault, hfits⟩ := h
  exact ⟨k, v, hpc0 ▸ hfault, hfits.congr hcfg⟩

theorem KeepsControl.refl (s : State) : KeepsControl s s := ⟨rfl, rfl, rfl, rfl, rfl⟩

theorem KeepsControl.trans {s t u : State} (hst : KeepsControl s t) (htu : KeepsControl t u) : KeepsControl s u := by
  obtain ⟨hcfg, hloaded, hhalted, hfault, hpc0⟩ := hst
  obtain ⟨hcfg', hloaded', hhalted', hfault', hpc0'⟩ := htu
  exact ⟨hcfg'.trans hcfg, hloaded'.trans hloaded, hhalted'.trans hhalted, hfault'.trans hfault, hpc0'.trans hpc0⟩

/-- What an operation answers from `s`: done, it has kept the record and what a record is made from; raised, its record
fits. -/
def Res.ErrsFittingly {α : Type} (s : State) : Res α → Prop
  | .done _ t => KeepsControl s t
  | .raised t => RecordsFitting s t

/-- Whatever the operation raises, from whatever state, fits. -/
def ErrsFittingly {α : Type} (op : State → Res α) : Prop := ∀ s, (op s).ErrsFittingly s

/-- An error of the second part fits from the start too, since the first part kept `pc0` and the parameters. -/
theorem Res.ErrsFittingly.andThen {α β : Type} {s : State} {x : Res α} {f : α → State → Res β}
    (hx : x.ErrsFittingly s) (hf : ∀ a, Machine.ErrsFittingly (f a)) : (x.andThen f).ErrsFittingly s := by
  cases x with
  | raised t => exact hx
  | done a t =>
    have h := hf a t
    rw [Res.andThen_done]
    cases hfa : f a t with
    | done b u => rw [hfa] at h; exact KeepsControl.trans hx h
    | raised u => rw [hfa] at h; exact RecordsFitting.of_keepsControl hx h

theorem ErrsFittingly.andThen {α β : Type} {op : State → Res α} {f : α → State → Res β} (hop : ErrsFittingly op)
    (hf : ∀ a, ErrsFittingly (f a)) : ErrsFittingly fun s => (op s).andThen (f ·) :=
  fun s => (hop s).andThen hf

/-- An instruction that is such an operation leaves the record as it was, or its error fits. -/
theorem ErrsFittingly.outcome {α : Type} {op : State → Res α} (hop : ErrsFittingly op) {s t : State}
    (h : (op s).outcome = .next t) : t.fault = s.fault ∨ RecordsFitting s t := by
  have hs := hop s
  cases hres : op s with
  | done a u =>
    rw [hres] at h hs
    cases h
    obtain ⟨-, -, -, hfault, -⟩ := hs
    exact .inl hfault
  | raised u => rw [hres] at h hs; cases h; exact .inr hs

/-! ### Where errors are raised -/

theorem raise_errs {α : Type} {k : ErrorKind} {v : ErrorValue} {s : State} (h : s.ErrorFits k v) :
    (raise k v s : Res α).ErrsFittingly s := ⟨k, v, rfl, h⟩

/-- An update, with a value, that touches no control. -/
theorem done_errs {α : Type} (a : α) (f : State → State) (h : ∀ s, KeepsControl s (f s)) :
    ErrsFittingly fun s => .done a (f s) := h

theorem unchanged_errs {α : Type} (a : α) : ErrsFittingly (Res.done a) := KeepsControl.refl

theorem setReg_errs (r : Reg) (v : Byte) : ErrsFittingly fun s => .done () (s.setReg r v) :=
  done_errs () (·.setReg r v) fun _ => ⟨rfl, rfl, rfl, rfl, rfl⟩

theorem setPc_errs (w : Word) : ErrsFittingly fun s => .done () (s.setPc w) :=
  done_errs () (·.setPc w) fun _ => ⟨rfl, rfl, rfl, rfl, rfl⟩

/-- A cell that cannot be read is read under a configuration that asks for the error (log 2). -/
theorem State.trapUndef_of_not_readable {α : Type} {s : State} {h : Held α} (hr : ¬ s.readable h = true) :
    s.cfg.trapUndef = true := by
  simp only [State.readable, Bool.or_eq_true, Bool.not_eq_true', not_or, Bool.not_eq_false] at hr
  exact hr.2

theorem readReg_errs (r : Reg) : ErrsFittingly (readReg r) := by
  intro s
  unfold readReg
  split
  · exact KeepsControl.refl s
  · next hr => exact raise_errs (.trappedRegister r (State.trapUndef_of_not_readable hr))

theorem readFlag_errs (f : Flag) : ErrsFittingly (readFlag f) := by
  intro s
  unfold readFlag
  split
  · exact KeepsControl.refl s
  · next hr => exact raise_errs (.trappedFlag f (State.trapUndef_of_not_readable hr))

theorem moveSp_errs (n : Int) : ErrsFittingly (moveSp n) := by
  intro s
  unfold moveSp
  split
  · exact ⟨rfl, rfl, rfl, rfl, rfl⟩
  · exact raise_errs (.outOfRange n (by omega))

theorem memRead_errs (a : Int) : ErrsFittingly (memRead a) := by
  intro s
  unfold memRead
  split
  · exact raise_errs (.outOfRange a (by omega))
  · next hrange =>
    obtain ⟨n, rfl⟩ := Int.eq_ofNat_of_zero_le (a := a) (by omega)
    split
    · exact ⟨rfl, rfl, rfl, rfl, rfl⟩
    · next hio =>
      split
      · exact raise_errs (.unwritten n (by omega) (Bool.eq_false_iff.2 hio))
      · exact KeepsControl.refl s

theorem writeAt_keepsControl (s : State) (a : Nat) (v : Byte) : KeepsControl s (s.writeAt a v) :=
  ⟨s.writeAt_cfg a v, s.writeAt_loaded a v, s.writeAt_halted a v, s.writeAt_fault a v, s.writeAt_pc0 a v⟩

theorem memWrite_errs (a : Int) (v : Byte) : ErrsFittingly (memWrite a v) := by
  intro s
  unfold memWrite
  split
  · exact raise_errs (.outOfRange a (by omega))
  · exact writeAt_keepsControl s a.toNat v

/-! ### The shared operations -/

theorem readPair_errs (rl rh : Reg) : ErrsFittingly (readPair rl rh) :=
  (readReg_errs rl).andThen fun _ => (readReg_errs rh).andThen fun _ => unchanged_errs _

theorem readTwo_errs (rd rs : Reg) : ErrsFittingly (readTwo rd rs) :=
  (readReg_errs rd).andThen fun _ => (readReg_errs rs).andThen fun _ => unchanged_errs _

theorem slotOperand_errs (off : Byte) : ErrsFittingly (slotOperand off) :=
  (readPair_errs _ _).andThen fun _ => unchanged_errs _

theorem push_errs (v : Byte) : ErrsFittingly (push v) :=
  (readPair_errs _ _).andThen fun _ => (memWrite_errs _ v).andThen fun _ => moveSp_errs _

theorem pop_errs : ErrsFittingly pop :=
  (readPair_errs _ _).andThen fun _ => (moveSp_errs _).andThen fun _ => memRead_errs _

theorem loadInto_errs (r : Reg) (a : Int) : ErrsFittingly (loadInto r a) := (memRead_errs a).andThen (setReg_errs r)

theorem storeFrom_errs (r : Reg) (a : Int) : ErrsFittingly (storeFrom r a) :=
  (readReg_errs r).andThen fun v => memWrite_errs a v

theorem jumpIf_errs (f : Flag) (wanted : Bool) (w : Word) : ErrsFittingly (jumpIf f wanted w) :=
  (readFlag_errs f).andThen fun v => done_errs () (fun s => if v == wanted then s.setPc w else s) fun s => by
    split <;> exact ⟨rfl, rfl, rfl, rfl, rfl⟩

theorem call_errs (w : Word) : ErrsFittingly (call w) :=
  (readPair_errs _ _).andThen fun _ => (push_errs _).andThen fun _ => (push_errs _).andThen fun _ => setPc_errs w

theorem alu1_errs (f : Int → Int) (r : Reg) : ErrsFittingly (alu1 f r) :=
  (readReg_errs r).andThen fun x => done_errs () (·.setResult r (f x.toNat)) fun _ => ⟨rfl, rfl, rfl, rfl, rfl⟩

theorem alu2_errs (f : Int → Int → Int) (rd rs : Reg) : ErrsFittingly (alu2 f rd rs) :=
  (readTwo_errs rd rs).andThen fun xy =>
    done_errs () (·.setResult rd (f xy.1.toNat xy.2.toNat)) fun _ => ⟨rfl, rfl, rfl, rfl, rfl⟩

theorem shift_errs (f : Nat → Nat → Nat) (rd rs : Reg) : ErrsFittingly (shift f rd rs) := by
  refine (readTwo_errs rd rs).andThen fun xy s => ?_
  split <;> exact ⟨rfl, rfl, rfl, rfl, rfl⟩

theorem counter_errs (f : Word → Word) (rl rh : Reg) : ErrsFittingly (counter f rl rh) := by
  refine (readPair_errs rl rh).andThen fun w s => ?_
  split <;> exact ⟨rfl, rfl, rfl, rfl, rfl⟩

/-! ### Execution, fetch and the step -/

/-- An instruction either leaves the record as it was, or it has recorded an error that fits. -/
theorem exec_errs (i : Instr) {s t : State} (h : exec i s = .next t) : t.fault = s.fault ∨ RecordsFitting s t := by
  cases i
  case num => exact (setReg_errs _ _).outcome h
  case mov => exact ((readReg_errs _).andThen (setReg_errs _)).outcome h
  case jmp => exact (setPc_errs _).outcome h
  case jin => exact ((readPair_errs _ _).andThen setPc_errs).outcome h
  case jiz | jnz | jic | jnc => exact (jumpIf_errs _ _ _).outcome h
  case clc => exact (call_errs _).outcome h
  case clr => exact ((readPair_errs _ _).andThen call_errs).outcome h
  case ret => exact (pop_errs.andThen fun hi => pop_errs.andThen fun lo => setPc_errs (cat hi lo)).outcome h
  case alc | eat => exact ((readPair_errs _ _).andThen fun _ => moveSp_errs _).outcome h
  case ofg => exact ((slotOperand_errs _).andThen (loadInto_errs _)).outcome h
  case ofs => exact ((slotOperand_errs _).andThen (storeFrom_errs _)).outcome h
  case pop => exact (pop_errs.andThen (setReg_errs _)).outcome h
  case psh => exact ((readReg_errs _).andThen push_errs).outcome h
  case gec => exact (loadInto_errs _ _).outcome h
  case sec => exact (storeFrom_errs _ _).outcome h
  case ger => exact ((readPair_errs _ _).andThen fun _ => loadInto_errs _ _).outcome h
  case ser => exact ((readPair_errs _ _).andThen fun _ => storeFrom_errs _ _).outcome h
  case inc | dec => exact (alu1_errs _ _).outcome h
  case add | sub | mul => exact (alu2_errs _ _ _).outcome h
  case shl | shr => exact (shift_errs _ _ _).outcome h
  case inl | del => exact (counter_errs _ _ _).outcome h
  case hlt => cases h; exact .inl rfl

theorem fetchByte_errs : ErrsFittingly fetchByte := by
  have hread : ErrsFittingly fun s => memRead (s.pc.toNat : Int) s := fun s => memRead_errs s.pc.toNat s
  refine hread.andThen fun b s => ?_
  split
  · exact raise_errs (.outOfRange _ (by omega))
  · exact ⟨rfl, rfl, rfl, rfl, rfl⟩

theorem fetchBytes_errs (n : Nat) : ErrsFittingly (fetchBytes n) := by
  induction n with
  | zero => exact unchanged_errs _
  | succ n ih => exact fetchByte_errs.andThen fun _ => ih.andThen fun _ => unchanged_errs _

theorem fetchOperands_errs (m : Mnemonic) : ErrsFittingly (fetchOperands m) := by
  refine (fetchBytes_errs _).andThen fun bs s => ?_
  split
  · next b hb => exact raise_errs (.noRegister b (bad_of_buildList_error hb))
  · exact KeepsControl.refl s

theorem fetchAfterOpcode_errs (op : Byte) : ErrsFittingly (fetchAfterOpcode op) := by
  intro s
  unfold fetchAfterOpcode
  split
  · next hop => exact raise_errs (.noEntry op (romLookup_eq_none.1 hop))
  · exact fetchOperands_errs _ s

/-- From the latching of `pc0` on, an error of a fetch names the instruction that is fetched. -/
theorem fetch_errs (s : State) : (fetch s).ErrsFittingly { s with pc0 := s.pc } := by
  have hlatch : (latchPc s).ErrsFittingly { s with pc0 := s.pc } := readPair_errs .ipl .iph { s with pc0 := s.pc }
  exact hlatch.andThen fun _ => fetchByte_errs.andThen fetchAfterOpcode_errs

/-- A step that answers a state started with no error recorded, and an error recorded after it fits and names the
instruction at IP. -/
theorem step_errs {s t : State} (h : step s = .next t) :
    s.fault = none ∧ (t.fault = none ∨ RecordsFitting { s with pc0 := s.pc } t) := by
  obtain ⟨hrun, hfetch⟩ := step_inv h
  obtain ⟨-, -, hnone⟩ := s.running_iff.1 hrun
  have herrs := fetch_errs s
  refine ⟨hnone, ?_⟩
  rcases hfetch with hraised | ⟨i, u, hdone, hexec⟩
  · rw [hraised] at herrs; exact .inr herrs
  · rw [hdone] at herrs
    have hkept : KeepsControl { s with pc0 := s.pc } u := herrs
    rcases exec_errs i hexec with hsame | hrec
    · obtain ⟨-, -, -, hfault, -⟩ := hkept
      exact .inl (hsame.trans (hfault.trans hnone))
    · exact .inr (hrec.of_keepsControl hkept)

/-- What is known of an error that a step records. -/
theorem step_error_inv {s t : State} {r : FaultRecord} (h : step s = .next t) (hr : t.fault = some r) :
    s.fault = none ∧ r.ip = s.pc ∧ s.ErrorFits r.kind r.value := by
  obtain ⟨hnone, ht | ⟨k, v, hfault, hfits⟩⟩ := step_errs h
  · rw [ht] at hr; cases hr
  · rw [hfault] at hr
    cases hr
    exact ⟨hnone, rfl, hfits.congr rfl⟩

/-- Settles O18: the record carries the `pc0` latched at the step's IP, and a loaded machine with an error recorded
takes no step. -/
theorem errorsArePrecise : Obligations.ErrorsArePrecise := by
  intro s t r h hr
  obtain ⟨hnone, hip, -⟩ := step_error_inv h hr
  obtain ⟨-, hstopped, -⟩ := stoppedMachineTakesNoStep t 0
  exact ⟨hnone, hip, (hstopped r (step_loaded h) hr).1⟩

/-- Settles O19: one case per way in which an error can arise. -/
theorem errorRecordFitsItsKind : Obligations.ErrorRecordFitsItsKind := by
  rintro s t ⟨kind, ip, value⟩ h hr
  obtain ⟨-, -, hfits⟩ := step_error_inv h hr
  cases hfits with
  | outOfRange n hn => exact ⟨n, rfl, hn⟩
  | noEntry b hb => exact ⟨b, rfl, hb, fun hc => decided_opcode_le (hc ▸ hb)⟩
  | noRegister b hb => exact ⟨b, rfl, hb, fun hc => decided_register_le (hc ▸ hb)⟩
  | unwritten a ha hio => exact .inl ⟨a, rfl, ha, hio⟩
  | trappedRegister q htrap => exact .inr ⟨htrap, .inl ⟨q, rfl⟩⟩
  | trappedFlag f htrap => exact .inr ⟨htrap, .inr ⟨f, rfl⟩⟩

end Sys2Proof.Machine

/-! # Host port: the start

`start` ends every load and every restart (70_reset_and_hazards.md R133): what it leaves in each field, once. -/

namespace Sys2Proof.Machine

@[simp] theorem start_cfg (s : State) : (start s).cfg = s.cfg := rfl

@[simp] theorem start_mem (s : State) : (start s).mem = s.mem := rfl

@[simp] theorem start_loaded (s : State) : (start s).loaded = s.loaded := rfl

@[simp] theorem start_halted (s : State) : (start s).halted = false := rfl

@[simp] theorem start_fault (s : State) : (start s).fault = none := rfl

@[simp] theorem start_ioLog (s : State) : (start s).ioLog = s.ioLog := rfl

theorem start_leftUndef (s : State) : LeftUndef (start s) := by
  refine ⟨fun r hr => ?_, rfl, rfl⟩
  cases r with
  | ipl | iph => simp at hr
  | a | b | c | d | m | spl | sph => rfl

/-- A start from a stored entry point leaves IP readable and made of its two bytes, low byte first. -/
theorem start_pc {s : State} {lo hi : Byte} (hlo : s.mem.read 0 = some lo) (hhi : s.mem.read 1 = some hi) :
    (start s).pc = cat hi lo ∧ (start s).canReadPc := by
  simp [State.pc, State.pairVal, State.regVal, State.canReadPc, State.canRead, State.readable, Regs.get, start, seedCell,
    hlo, hhi]

/-- A started CPU is not halted and has no error, so of the invariant only the layout is left. -/
theorem start_inv {s : State} (hstorage : s.storageOk) (hwindow : s.windowOk) (hcodes : s.codesOk) : (start s).Inv :=
  ⟨hstorage, hwindow, hcodes, fun h => absurd h Bool.false_ne_true, fun h => absurd h Bool.false_ne_true⟩

/-- Settles O11: the reset window base is 0xF000, the reset numbers are the decided ones, and nothing is stored. -/
theorem resetHasInvariant : Obligations.ResetHasInvariant := by
  have hstorage : State.reset.storageOk := ⟨reset_mem_wf, fun _ hc => nomatch hc⟩
  have hwindow : State.reset.windowOk := ⟨by decide, by decide⟩
  exact ⟨hstorage, hwindow, decided_distinct, fun h => absurd h Bool.false_ne_true,
    fun h => absurd h Bool.false_ne_true⟩

/-- Settles O57. -/
theorem restartSeedsIp : Obligations.RestartSeedsIp := by
  intro s lo hi hlo hhi
  obtain ⟨hpc, hread⟩ := start_pc hlo hhi
  have hip : (restart s).pc.toNat = 256 * hi.toNat + lo.toNat := by
    rw [restart, hpc, toNat_cat, Nat.mul_comm]
  exact ⟨hip, hread, start_leftUndef s, start_halted s, start_fault s, start_mem s, start_loaded s, start_cfg s,
    start_ioLog s⟩

end Sys2Proof.Machine

/-! # Host port: the load

A load is refused outside the require lines and otherwise writes its bytes and then the entry point, and starts
(70_reset_and_hazards.md R135). `AcceptsLoad` names the require lines. -/

namespace Sys2Proof.Machine

theorem State.meetsWindow_iff (s : State) (a len : Nat) :
    s.meetsWindow a len = true ↔ 0 < len ∧ a < s.cfg.ioBase.toNat + 4096 ∧ s.cfg.ioBase.toNat < a + len :=
  decide_eq_true_iff

/-- The require lines of a load of `len` bytes at `a` (70_reset_and_hazards.md R135). -/
def State.AcceptsLoad (s : State) (a len : Nat) : Prop :=
  2 ≤ a ∧ a + len ≤ Config.memBytes ∧ s.meetsWindow a len = false

theorem State.acceptsLoad_iff (s : State) (a len : Nat) :
    s.AcceptsLoad a len ↔ 2 ≤ a ∧ a + len ≤ 0x10000 ∧
      (len = 0 ∨ a + len ≤ s.cfg.ioBase.toNat ∨ s.cfg.ioBase.toNat + 4096 ≤ a) := by
  rw [State.AcceptsLoad, ← Bool.not_eq_true, State.meetsWindow_iff, Config.memBytes]
  omega

theorem loadProgram_accepted {s : State} {a : Word} {bs : List Nat} (h : s.AcceptsLoad a.toNat bs.length) :
    loadProgram a bs s = .next (start (s.withProgram a bs)) := by
  obtain ⟨hlow, htop, hwindow⟩ := h
  rw [loadProgram, if_neg (by omega), if_neg (by omega), hwindow]
  rfl

/-- Settles O56: the require lines are tested in the order of the clauses. -/
theorem loadProgramRefusals : Obligations.LoadProgramRefusals := by
  intro a bs s
  refine ⟨fun hlow => ?_, fun hlow htop => ?_, fun hlow htop hne hbelow habove => ?_⟩
  · rw [loadProgram, if_pos hlow]
  · rw [loadProgram, if_neg (by omega), Config.memBytes, if_pos htop]
  · have hmeets := (s.meetsWindow_iff a.toNat bs.length).2 ⟨List.length_pos_iff.2 hne, hbelow, habove⟩
    rw [loadProgram, if_neg (by omega), Config.memBytes, if_neg (by omega), if_pos hmeets]

/-- A load that answers a state met the require lines, and answers the start of the state it wrote. -/
theorem loadProgram_inv {s t : State} {a : Word} {bs : List Nat} (h : loadProgram a bs s = .next t) :
    s.AcceptsLoad a.toNat bs.length ∧ t = start (s.withProgram a bs) := by
  unfold loadProgram at h
  split at h
  · cases h
  · next hlow =>
    split at h
    · cases h
    · next htop =>
      split at h
      · cases h
      · next hwindow =>
        cases h
        exact ⟨⟨by omega, by omega, Bool.eq_false_iff.2 hwindow⟩, rfl⟩

/-- The entry point lies over the bytes of the load, which lie over what was stored. -/
theorem State.withProgram_read (s : State) (a : Word) (bs : List Nat) (x : Nat) :
    (s.withProgram a bs).mem.read x =
      if x = 1 then some (hiByte a)
      else if x = 0 then some (loByte a)
      else if a.toNat ≤ x ∧ x < a.toNat + bs.length then (bs[x - a.toNat]?).map (BitVec.ofNat 8)
      else s.mem.read x := by
  simp only [State.withProgram, Memory.read_write, Memory.read_writeList, List.length_map, List.getElem?_map]

/-- The cells after a load are the two of the entry point, those of the load and cells from before. -/
theorem State.mem_withProgram {s : State} {a : Word} {bs : List Nat} {c : Host.Cell}
    (h : c ∈ (s.withProgram a bs).mem) : (c.1 < 2 ∨ a.toNat ≤ c.1 ∧ c.1 < a.toNat + bs.length) ∨ c ∈ s.mem := by
  rcases Memory.mem_write _ _ _ c h with rfl | h
  · exact .inl (.inl Nat.one_lt_two)
  · rcases Memory.mem_write _ _ _ c h with rfl | h
    · exact .inl (.inl Nat.two_pos)
    · have hlist := Memory.mem_writeList _ _ _ c h
      rw [List.length_map] at hlist
      exact hlist.imp_left .inr

/-- The window lies above the entry point, and an accepted load does not meet it. -/
theorem State.withProgram_storageOk {s : State} {a : Word} {bs : List Nat} (hok : s.storageOk) (hwindow : s.windowOk)
    (h : s.AcceptsLoad a.toNat bs.length) : (s.withProgram a bs).storageOk := by
  obtain ⟨hwf, hcells⟩ := hok
  obtain ⟨hbase, -⟩ := hwindow
  obtain ⟨-, htop, hclear⟩ := (s.acceptsLoad_iff _ _).1 h
  rw [Config.ioBaseMin] at hbase
  refine ⟨Memory.write_wf _ _ _ (Memory.write_wf _ _ _ (Memory.writeList_wf _ _ _ hwf)), fun c hc => ?_⟩
  rw [State.isIo_congr (t := s.withProgram a bs) (s := s) rfl]
  rcases State.mem_withProgram hc with hnew | hold
  · exact ⟨by rw [Config.memBytes]; omega, (s.isIo_eq_false _).2 (by omega)⟩
  · exact hcells c hold

/-- Settles O12: both calls end in a start, from a state whose storage is as the spec lays it out. -/
theorem hostCallsKeepInvariant : Obligations.HostCallsKeepInvariant := by
  rintro s ⟨hstorage, hwindow, hcodes, -, -⟩
  refine ⟨start_inv hstorage hwindow hcodes, fun a bs t h => ?_⟩
  obtain ⟨haccepts, rfl⟩ := loadProgram_inv h
  exact start_inv (State.withProgram_storageOk hstorage hwindow haccepts) hwindow hcodes

/-- Settles O55: IP is seeded from the entry point that the load itself wrote. -/
theorem loadProgramPlacesProgram : Obligations.LoadProgramPlacesProgram := by
  intro a bs s hlow htop hclear
  rw [← List.length_eq_zero_iff] at hclear
  have haccepts := (s.acceptsLoad_iff a.toNat bs.length).2 ⟨hlow, htop, hclear⟩
  have hlo : (s.withProgram a bs).mem.read 0 = some (loByte a) := by simp [State.withProgram_read]
  have hhi : (s.withProgram a bs).mem.read 1 = some (hiByte a) := by simp [State.withProgram_read]
  obtain ⟨hpc, hread⟩ := start_pc hlo hhi
  refine ⟨_, loadProgram_accepted haccepts, fun k hk => ?_, hlo, hhi, fun x hx hout => ?_, hpc.trans (cat_hi_lo a), hread,
    rfl, start_leftUndef _, rfl, rfl⟩
  · rw [start_mem, State.withProgram_read, if_neg (by omega), if_neg (by omega), if_pos (by omega),
      Nat.add_sub_cancel_left, List.getElem?_eq_getElem hk, Option.map_some]
  · rw [start_mem, State.withProgram_read, if_neg (by omega), if_neg (by omega), if_neg (by omega)]

end Sys2Proof.Machine

/-! # Host port: the run

`runLoop` tests a halt and an error after each step, `run` tests them before the first: so where the loop goes on, it is
a run of its own. -/

namespace Sys2Proof.Machine

theorem runRefusal_eq_none_iff (s : State) : runRefusal s = none ↔ s.running = true := by
  rw [State.running_iff]
  unfold runRefusal
  split
  · next hloaded => simp [hloaded]
  · next hloaded =>
    split
    · next hfault => simp [Option.isSome_iff_ne_none.1 hfault]
    · next hfault => simpa [hloaded] using fun _ => Option.not_isSome_iff_eq_none.1 hfault

theorem run_of_running {s : State} (h : s.running = true) (n : Nat) : run n s = runLoop n s := by
  rw [run, (runRefusal_eq_none_iff s).2 h]

/-- A machine that is not running is refused, whatever the budget. -/
theorem run_of_not_running {s : State} (h : ¬ s.running = true) : ∃ r, ∀ n, run n s = .refused r := by
  obtain ⟨r, hr⟩ := Option.ne_none_iff_exists'.1 (mt (runRefusal_eq_none_iff s).1 h)
  exact ⟨r, fun n => by rw [run, hr]⟩

/-- A running machine steps to a next state: a fetch that fails has its error in it. -/
theorem step_next_of_running {s : State} (h : s.running = true) : ∃ t, step s = .next t := by
  rw [step_running h]
  cases fetch s with
  | done i u => exact exec_answers_next i u
  | raised u => exact ⟨u, rfl⟩

theorem running_of_step {s t : State} (h : step s = .next t) (hfault : t.fault = none) (hhalted : t.halted = false) :
    t.running = true := t.running_iff.2 ⟨step_loaded h, hhalted, hfault⟩

/-- Settles O59. -/
theorem runFollowsStep : Obligations.RunFollowsStep := by
  intro s t n hrun
  refine ⟨run_of_running hrun 0, fun h => ⟨fun r hr => ?_, fun hfault hhalted => ?_, fun hfault hhalted => ?_⟩⟩
  · simp [run_of_running hrun, runLoop, h, hr]
  · simp [run_of_running hrun, runLoop, h, hfault, hhalted]
  · rw [run_of_running (running_of_step h hfault hhalted)]
    simp [run_of_running hrun, runLoop, h, hfault, hhalted]

/-- What a host gets that calls `run` again, with budget `n`, where a run paused, and stays with any other result. -/
def RunResult.continueWith (n : Nat) : RunResult → RunResult
  | .returned false t => run n t
  | .returned true t => .returned true t
  | .error r t => .error r t
  | .refused r => .refused r

theorem RunResult.continueWith_of_ended {r : RunResult} (n : Nat) (h : r.ended = true) : r.continueWith n = r := by
  cases r with
  | returned halted t => cases h; rfl
  | error r t => rfl
  | refused r => rfl

/-- Induction over the first budget: a step that goes on leaves a running machine and the smaller budget. -/
theorem run_add_of_running (m n : Nat) {s : State} (hrun : s.running = true) :
    run (m + n) s = (run m s).continueWith n := by
  induction m generalizing s with
  | zero => rw [Nat.zero_add, run_of_running hrun 0]; rfl
  | succ m ih =>
    obtain ⟨t, hstep⟩ := step_next_of_running hrun
    obtain ⟨herror, hhalt, hgo⟩ := (runFollowsStep s t m hrun).2 hstep
    obtain ⟨herror', hhalt', hgo'⟩ := (runFollowsStep s t (m + n) hrun).2 hstep
    rw [Nat.add_right_comm]
    cases hfault : t.fault with
    | some r => rw [herror r hfault, herror' r hfault]; rfl
    | none =>
      cases hhalted : t.halted with
      | true => rw [hhalt hfault hhalted, hhalt' hfault hhalted]; rfl
      | false => rw [hgo hfault hhalted, hgo' hfault hhalted]; exact ih (running_of_step hstep hfault hhalted)

theorem run_add (m n : Nat) (s : State) : run (m + n) s = (run m s).continueWith n := by
  by_cases hrun : s.running = true
  · exact run_add_of_running m n hrun
  · obtain ⟨r, hrefused⟩ := run_of_not_running hrun
    rw [hrefused, hrefused]; rfl

/-- Settles O58: both clauses read `run_add`, a pause and an end. -/
theorem runBudgetSplits : Obligations.RunBudgetSplits := by
  refine fun m n s => ⟨fun t hpaused => ?_, fun hended => ?_⟩
  · rw [run_add, hpaused]; rfl
  · rw [run_add, RunResult.continueWith_of_ended n hended]

end Sys2Proof.Machine

/-! # Encoding: decode and encode agree

The operand bytes of an instruction build it again, and operand bytes that build an instruction are its own; each is
said once per operand format (30_encoding.md R65). The decode ROM does the same for the opcode byte. -/

namespace Sys2Proof

/-! ### Decoding what was encoded -/

theorem buildR_regIndex {c : Codes} (h : c.distinct = true) (mk : Reg → Instr) (r : Reg) :
    buildR c mk (regIndex c r) = .ok (mk r) := by
  rw [buildR, regOfByte_regIndex h]

theorem buildRI_regIndex {c : Codes} (h : c.distinct = true) (mk : Reg → Byte → Instr) (r : Reg) (b : Byte) :
    buildRI c mk (regIndex c r) b = .ok (mk r b) :=
  buildR_regIndex h _ r

theorem buildRR_regIndex {c : Codes} (h : c.distinct = true) (mk : Reg → Reg → Instr) (r q : Reg) :
    buildRR c mk (regIndex c r) (regIndex c q) = .ok (mk r q) := by
  rw [buildRR, regOfByte_regIndex h]
  exact buildR_regIndex h (mk r) q

theorem buildList_operandBytes {c : Codes} (h : c.distinct = true) (i : Instr) :
    buildList c i.mnemonic (i.operandBytes c) = .ok i := by
  cases i
  case pop | psh | inc | dec => exact buildR_regIndex h _ _
  case num | ofg | ofs => exact buildRI_regIndex h _ _ _
  case mov | jin | clr | ger | ser | add | sub | mul | shl | shr | inl | del => exact buildRR_regIndex h _ _ _
  case jmp | jiz | jnz | jic | jnc | clc | gec | sec | alc | eat | ret | hlt => rfl

/-- Settles O1: the ROM gives the mnemonic back from its opcode byte, so the decoder takes the operand bytes and no
more, and they build the instruction. -/
theorem decodeInvertsEncode : Obligations.DecodeInvertsEncode := by
  intro c i rest h
  have hlen : (i.operandBytes c).length = i.mnemonic.kinds.length := i.operandBytes_length c
  rw [encode, List.cons_append, decode_of_enough (romLookup_opcodeOf h i.mnemonic) (by simp),
    List.take_left' hlen, List.drop_left' hlen, buildList_operandBytes h]
  rfl

/-! ### Encoding what was decoded -/

theorem regIndex_of_buildR {c : Codes} {mk : Reg → Instr} {b : Byte} {i : Instr} (h : buildR c mk b = .ok i) :
    ∃ r, i = mk r ∧ regIndex c r = b := by
  unfold buildR at h
  split at h
  · cases h
  · next r hr => cases h; exact ⟨r, rfl, regIndex_of_regOfByte hr⟩

theorem regIndex_of_buildRR {c : Codes} {mk : Reg → Reg → Instr} {b1 b2 : Byte} {i : Instr}
    (h : buildRR c mk b1 b2 = .ok i) : ∃ r q, i = mk r q ∧ regIndex c r = b1 ∧ regIndex c q = b2 := by
  unfold buildRR at h
  split at h
  · cases h
  · next r hr =>
    obtain ⟨q, hi, hq⟩ := regIndex_of_buildR h
    exact ⟨r, q, hi, regIndex_of_regOfByte hr, hq⟩

/-- The operand bytes of what a mnemonic builds are the bytes it was built from, as many as it has operands. -/
theorem operandBytes_of_build {c : Codes} {m : Mnemonic} {b1 b2 : Byte} {i : Instr} (h : build c m b1 b2 = .ok i) :
    i.operandBytes c = [b1, b2].take m.kinds.length := by
  cases m
  case pop | psh | inc | dec | num | ofg | ofs => obtain ⟨r, rfl, rfl⟩ := regIndex_of_buildR h; rfl
  case mov | jin | clr | ger | ser | add | sub | mul | shl | shr | inl | del =>
    obtain ⟨r, q, rfl, rfl, rfl⟩ := regIndex_of_buildRR h; rfl
  case jmp | jiz | jnz | jic | jnc | clc | gec | sec | alc | eat | ret | hlt => cases h; rfl

/-- At most two bytes are among the two that `buildList` reads. -/
theorem take_getD_pair {bs : List Byte} (h : bs.length ≤ 2) : [bs.getD 0 0#8, bs.getD 1 0#8].take bs.length = bs := by
  match bs, h with
  | [], _ => rfl
  | [_], _ => rfl
  | [_, _], _ => rfl

theorem operandBytes_of_buildList {c : Codes} {m : Mnemonic} {bs : List Byte} {i : Instr}
    (hlen : bs.length = m.kinds.length) (h : buildList c m bs = .ok i) : i.operandBytes c = bs := by
  have hle : bs.length ≤ 2 := hlen.trans_le (Machine.kinds_length_le m)
  rw [operandBytes_of_build h, ← hlen, take_getD_pair hle]

/-- Settles O2: the ROM entry found stands for the opcode byte, and the bytes taken after it are the operand bytes of
what they build. -/
theorem encodeInvertsDecode : Obligations.EncodeInvertsDecode := by
  intro c bs i rest h
  cases bs with
  | nil => cases h
  | cons op bs =>
    obtain ⟨m, hop, hle, hbuild, rfl⟩ := decode_ok_inv h
    have hopcode : opcodeOf c i.mnemonic = op := mnemonic_of_buildList hbuild ▸ opcodeOf_of_romLookup hop
    have hoperands : i.operandBytes c = bs.take m.kinds.length :=
      operandBytes_of_buildList (List.length_take_of_le hle) hbuild
    rw [encode, hopcode, hoperands, List.cons_append, List.take_append_drop]

/-! ### Words of the opcode table -/

/-- A word whose bytes begin with the encoding of an instruction is read as that instruction. -/
theorem decodeTableWord_of_encode {nbits w : Nat} {i : Instr} (h : encode Codes.decided i <+: tableBytes nbits w) :
    decodeTableWord nbits w = some i := by
  obtain ⟨rest, hbytes⟩ := h
  rw [decodeTableWord, decodeWord, ← hbytes, decodeInvertsEncode _ i rest decided_distinct]

theorem decodeTableWord_of_error {nbits w : Nat} {e : DecodeError}
    (h : decode Codes.decided (tableBytes nbits w) = .error e) : decodeTableWord nbits w = none := by
  rw [decodeTableWord, decodeWord, h]

/-- Settles O5: the bytes of each word that decodes begin with the encoding of its instruction; of the two others the
decoder refuses the register byte 9 and the opcode byte 0x1F. -/
theorem writtenWordsDecode : Obligations.WrittenWordsDecode := by
  have hregister : decode Codes.decided (tableBytes 24 0x090017) = .error (.invalidRegister 9#8) := by decide
  have hopcode : decode Codes.decided (tableBytes 8 0x1F) = .error (.invalidOpcode 0x1F#8) := by decide
  refine ⟨?_, ?_, ?_, ?_, ?_, ?_, ?_, ?_, ?_, ?_, decodeTableWord_of_error hregister, decodeTableWord_of_error hopcode⟩
  all_goals exact decodeTableWord_of_encode (by decide)

end Sys2Proof
